-- ==== Sys2Proof/Word.lean ====
section
/-!
DEFINITION. The block's words: octets and octet strings (spec 00_scope.md R7, R9). Every size, index, length and
sequence number is a natural number (R8: nothing wraps unless a rule says so), so octets are the only words here; the
31-bit and 4-bit registers get their widths in Machine/State.lean.
-/

namespace Sys2Proof

/-- An octet (R7): bit 7 is the most significant, bit 0 the least. -/
abbrev Octet := BitVec 8

/-- An octet string (R9): a finite sequence of octets, compared by exact octet equality (decision D17). -/
abbrev OctetString := List Octet

/-- The US-ASCII octets of a text: what the spec means by a string in quotation marks (R9). -/
def ascii (text : String) : OctetString := text.toList.map fun c => BitVec.ofNat 8 c.toNat

end Sys2Proof
end

