-- ==== Sys2Proof/Config.lean ====
section
/-!
DEFINITION. The implementation parameters of spec 00_scope.md R5 that the document or the spec fixes, under the spec's
own names. The three OPEN ones are not constants here: HUF_STRICT_END and RING_INIT_CAP are fields of State that no
step writes (so a statement about every state holds for every value of them; notes/assumptions/1.md and 2.md), and
SEQ_BITS does not appear because sequence numbers are unbounded naturals (R5, R250; notes/assumptions/3.md).
-/

namespace Sys2Proof.Config

/-- `STATIC_LEN` (R5): the number of entries of the static table. -/
def staticLen : Nat := 61

/-- `HUF_NSYM` (R5): the number of Huffman symbols; 0..255 are octets. -/
def hufNsym : Nat := 257

/-- The EOS symbol (R5, R12). -/
def eosSymbol : Nat := 256

/-- `ENTRY_OVERHEAD` (R5, R11): what every entry's size counts on top of its two lengths. -/
def entryOverhead : Nat := 32

/-- `INT_MAX` (R5, decision D3): the largest integer the block decodes, 2^31 − 1. -/
def intMax : Nat := 2147483647

/-- `INT_MAX_CONT` (R5, decision D3): the most continuation octets of one integer. -/
def intMaxCont : Nat := 5

/-- `INT_PREFIX_MIN` (R5, decision D4). -/
def intPrefixMin : Nat := 1

/-- `INT_PREFIX_MAX` (R5, decision D4). -/
def intPrefixMax : Nat := 8

/-- `RESET_MAX_SIZE` (R5, decision D8): the reset value that stands for "unbounded". -/
def resetMaxSize : Nat := 2147483647

/-- The default of `HUF_STRICT_END` (R5, decision D5), which State.reset takes. -/
def hufStrictEndDefault : Bool := false

/-- DESIGN CHOICE (notes/assumptions/2.md): the ring capacity State.reset names, the least R5 allows for the OPEN
`RING_INIT_CAP`. No command result depends on it (R43). -/
def ringInitCapDefault : Nat := 1

end Sys2Proof.Config
end

