-- ==== Sys2Proof/Syntax.lean ====
section
/-!
DEFINITION. The instructions of the block: one constructor of Instr per row of spec/opcode_table.json, in the table's
order. The table has three layers (30_encoding.md): the five header-field representations, selected by a first octet in
a header block (R81); the two string-literal forms, selected by a first octet where a string stands (R85); and the 18
host commands, an 8-bit code with typed operands (R95). A representation or string constructor carries the bits of its
first octet that the pattern leaves free, which is the prefix of the integer that starts there (R83, R84); everything
after that octet (continuation octets, strings) is operand data the meaning reads from the input operand, in stream
order (R22, R120). Beside Instr: what the host offers (Offer) and the spec's own textual notation for header blocks
(R98), as data.
-/

namespace Sys2Proof

/-- An instruction: a row of spec/opcode_table.json. -/
inductive Instr where
  /-- `IDX` (R81, R282): Indexed Header Field, with the 7 prefix bits of its index. -/
  | idx (i : BitVec 7)
  /-- `LIT_INC` (R81, R285): Literal With Incremental Indexing, with the 6 prefix bits of its name index. -/
  | litInc (n : BitVec 6)
  /-- `SIZE_UPD` (R81, R287): Dynamic Table Size Update, with the 5 prefix bits of the new cap. -/
  | sizeUpd (n : BitVec 5)
  /-- `LIT_NEVER` (R81, R286): Literal Never Indexed, with the 4 prefix bits of its name index. -/
  | litNever (n : BitVec 4)
  /-- `LIT_NOIDX` (R81, R288): Literal Without Indexing, with the 4 prefix bits of its name index. -/
  | litNoidx (n : BitVec 4)
  /-- `STR_RAW` (R85, R190): a plain string literal, with the 7 prefix bits of its length. -/
  | strRaw (l : BitVec 7)
  /-- `STR_HUF` (R85, R190): a Huffman-coded string literal, with the 7 prefix bits of its length. -/
  | strHuf (l : BitVec 7)
  /-- `DECODE_BLOCK` (R95 code 0x01, R280). -/
  | decodeBlock (inp : OctetString)
  /-- `SET_MAX_TABLE_SIZE` (R95 code 0x02, R300). -/
  | setMaxTableSize (n : Nat)
  /-- `SET_MAX_LIST_SIZE` (R95 code 0x03, R301). -/
  | setMaxListSize (n : Nat)
  /-- `READ_STATUS` (R95 code 0x04, R302). -/
  | readStatus
  /-- `RESET` (R95 code 0x05, R303). -/
  | reset
  /-- `INT_DECODE` (R95 code 0x10, R127). -/
  | intDecode (n : Nat) (inp : OctetString)
  /-- `INT_ENCODE` (R95 code 0x11, R131). -/
  | intEncode (n : Nat) (flags : Nat) (v : Nat)
  /-- `HUF_DECODE` (R95 code 0x20, R167). -/
  | hufDecode (inp : OctetString)
  /-- `HUF_ENCODE` (R95 code 0x21, R171). -/
  | hufEncode (inp : OctetString)
  /-- `STR_DECODE` (R95 code 0x30, R196). -/
  | strDecode (inp : OctetString)
  /-- `ST_GET` (R95 code 0x40, R213). -/
  | stGet (i : Nat)
  /-- `ST_FIND_NAME` (R95 code 0x41, R214). -/
  | stFindName (name : OctetString)
  /-- `DT_GET` (R95 code 0x50, R245). -/
  | dtGet (i : Nat)
  /-- `DT_ADD` (R95 code 0x51, R241). -/
  | dtAdd (name value : OctetString)
  /-- `DT_SET_MAX` (R95 code 0x52, R243). -/
  | dtSetMax (n : Nat)
  /-- `DT_FIND_NAME` (R95 code 0x53, R247). -/
  | dtFindName (name : OctetString)
  /-- `DT_INDEX_OF` (R95 code 0x54, R248). -/
  | dtIndexOf (seq : Nat)
  /-- `DT_READ_SIZE` (R95 code 0x55, R249). -/
  | dtReadSize
deriving DecidableEq, Repr

/-- One typed operand of a host command (R95): a number or an octet string. -/
inductive Operand where
  | num (n : Nat)
  | octets (s : OctetString)
deriving DecidableEq, Repr

/-- What the host offers at the command port (R95): a command code of 8 bits and its typed operands. The spec gives the
operands no packing into octets, so none is invented (notes/assumptions/4.md). -/
structure Offer where
  code : Octet
  operands : List Operand
deriving DecidableEq, Repr

/-- A string of the notation of R98: `"text"` (plain) or `h"text"` (Huffman-coded by R170). -/
inductive Str where
  | raw (text : OctetString)
  | huf (text : OctetString)
deriving DecidableEq, Repr

/-- A name reference of the notation of R98: `idx:<i>` with i ≥ 1, or a literal string. -/
inductive NameRef where
  | idx (i : Nat)
  | lit (name : Str)
deriving DecidableEq, Repr

/-- One line of the notation of R98: exactly one representation, written with whole operands. -/
inductive Line where
  | idx (i : Nat)
  | litInc (name : NameRef) (value : Str)
  | litNoidx (name : NameRef) (value : Str)
  | litNever (name : NameRef) (value : Str)
  | sizeUpd (n : Nat)
deriving DecidableEq, Repr

end Sys2Proof
end

