-- ==== Sys2Proof/WellFormed.lean ====
section
/-!
DEFINITION. Which instructions have every operand in its stated range (R95, R97, R329): the 31-bit operands n, i and v
at most INT_MAX, the width N in 1..8, the flags one octet. An instruction outside these ranges is still decoded and
still executed: its meaning answers InvalidCommand at acceptance (R329). Representations and string literals carry only
bits of one octet, so every one of them is well formed (R82, R90: no first octet is reserved).
-/

namespace Sys2Proof

/-- A 31-bit operand in range (R95, R329): 0 .. INT_MAX. -/
def inRange31 (n : Nat) : Bool := decide (n ≤ Config.intMax)

/-- A width operand N in range (R95, R127): 1..8. -/
def inRangeWidth (n : Nat) : Bool := decide (Config.intPrefixMin ≤ n) && decide (n ≤ Config.intPrefixMax)

/-- An octet operand in range (R95): 0..255. -/
def inRangeOctet (n : Nat) : Bool := decide (n < 256)

/-- Every operand of the instruction is in the range R95 states for it. -/
def WellFormed : Instr → Bool
  | .idx _ | .litInc _ | .sizeUpd _ | .litNever _ | .litNoidx _ | .strRaw _ | .strHuf _ => true
  | .decodeBlock _ => true
  | .setMaxTableSize n => inRange31 n
  | .setMaxListSize n => inRange31 n
  | .readStatus => true
  | .reset => true
  | .intDecode n _ => inRangeWidth n
  | .intEncode n flags v => inRangeWidth n && inRangeOctet flags && inRange31 v
  | .hufDecode _ => true
  | .hufEncode _ => true
  | .strDecode _ => true
  | .stGet i => inRange31 i
  | .stFindName _ => true
  | .dtGet i => inRange31 i
  | .dtAdd _ _ => true
  | .dtSetMax n => inRange31 n
  | .dtFindName _ => true
  | .dtIndexOf _ => true
  | .dtReadSize => true

end Sys2Proof
end

