-- ==== Sys2Proof/Decode.lean ====
section
/-!
DEFINITION. The decoder and the encoder of the three layers of spec/opcode_table.json (30_encoding.md R81, R85, R95).
The same octet means different things in the three layers (0x41 is LIT_INC in a header block, the length of a plain
string where a string stands, ST_FIND_NAME at the command port), so what is decoded is a Code: the octet or the offer
TOGETHER with the layer it was fetched in. Decoding is total and rejects by name; it rejects nothing in the two octet
layers (R82, R90) and in the command layer a code that is not in R95 or operands that are not the row's (R97, R329).
After it, the encoder, written from the same table.
-/

namespace Sys2Proof

/-- What the sequencer fetches, with the layer it stands in. -/
inductive Code where
  /-- the first octet of a representation in a header block (R80, R281) -/
  | field (b : Octet)
  /-- the first octet of a string literal (R190) -/
  | string (b : Octet)
  /-- a command offered by the host (R95) -/
  | command (o : Offer)
deriving DecidableEq, Repr

/-- Why a Code is no instruction (R97, R329). -/
inductive DecodeError where
  /-- the command code is not in the table of R95 -/
  | unknownCommandCode (code : Octet)
  /-- an operand is missing, or the operands are not those of the code's row (R329) -/
  | operandsNotOfTheRow (code : Octet)
deriving DecidableEq, Repr

/-- The 18 rows of R95, by name. -/
inductive Command where
  | decodeBlock | setMaxTableSize | setMaxListSize | readStatus | reset
  | intDecode | intEncode | hufDecode | hufEncode | strDecode
  | stGet | stFindName | dtGet | dtAdd | dtSetMax | dtFindName | dtIndexOf | dtReadSize
deriving DecidableEq, Repr

/-- The command codes, transcribed from the table of R95. -/
def commandTable : List (Octet × Command) :=
  [(0x01, .decodeBlock), (0x02, .setMaxTableSize), (0x03, .setMaxListSize), (0x04, .readStatus), (0x05, .reset),
   (0x10, .intDecode), (0x11, .intEncode), (0x20, .hufDecode), (0x21, .hufEncode), (0x30, .strDecode),
   (0x40, .stGet), (0x41, .stFindName), (0x50, .dtGet), (0x51, .dtAdd), (0x52, .dtSetMax), (0x53, .dtFindName),
   (0x54, .dtIndexOf), (0x55, .dtReadSize)]

/-- The row of R95 a command code selects. -/
def commandOf (code : Octet) : Option Command := commandTable.lookup code

/-- A row of R95 with the operands the host supplied; none where an operand is missing or not of the row's type. -/
def Command.build : Command → List Operand → Option Instr
  | .decodeBlock, [.octets inp] => some (.decodeBlock inp)
  | .setMaxTableSize, [.num n] => some (.setMaxTableSize n)
  | .setMaxListSize, [.num n] => some (.setMaxListSize n)
  | .readStatus, [] => some .readStatus
  | .reset, [] => some .reset
  | .intDecode, [.num n, .octets inp] => some (.intDecode n inp)
  | .intEncode, [.num n, .num flags, .num v] => some (.intEncode n flags v)
  | .hufDecode, [.octets inp] => some (.hufDecode inp)
  | .hufEncode, [.octets inp] => some (.hufEncode inp)
  | .strDecode, [.octets inp] => some (.strDecode inp)
  | .stGet, [.num i] => some (.stGet i)
  | .stFindName, [.octets name] => some (.stFindName name)
  | .dtGet, [.num i] => some (.dtGet i)
  | .dtAdd, [.octets name, .octets value] => some (.dtAdd name value)
  | .dtSetMax, [.num n] => some (.dtSetMax n)
  | .dtFindName, [.octets name] => some (.dtFindName name)
  | .dtIndexOf, [.num seq] => some (.dtIndexOf seq)
  | .dtReadSize, [] => some .dtReadSize
  | _, _ => none

/-- The representation a first octet selects, testing bit 7, then 6, then 5, then 4 (R81, R82, R281). -/
def decodeField (b : Octet) : Instr :=
  if b.getLsbD 7 then .idx (b.extractLsb' 0 7)
  else if b.getLsbD 6 then .litInc (b.extractLsb' 0 6)
  else if b.getLsbD 5 then .sizeUpd (b.extractLsb' 0 5)
  else if b.getLsbD 4 then .litNever (b.extractLsb' 0 4)
  else .litNoidx (b.extractLsb' 0 4)

/-- The string form a first octet selects: bit 7 is the Huffman flag H (R85, R190). -/
def decodeString (b : Octet) : Instr :=
  if b.getLsbD 7 then .strHuf (b.extractLsb' 0 7) else .strRaw (b.extractLsb' 0 7)

/-- The command an offer asks for (R95), or why it is refused (R97, R329). -/
def decodeCommand (o : Offer) : Except DecodeError Instr :=
  match commandOf o.code with
  | none => .error (.unknownCommandCode o.code)
  | some c =>
    match c.build o.operands with
    | none => .error (.operandsNotOfTheRow o.code)
    | some i => .ok i

/-- The instruction of a fetched code. -/
def decode : Code → Except DecodeError Instr
  | .field b => .ok (decodeField b)
  | .string b => .ok (decodeString b)
  | .command o => decodeCommand o

/-- The code the block fetches for an instruction, from the same tables (R81, R85, R95). -/
def encode : Instr → Code
  | .idx i => .field (1#1 ++ i)
  | .litInc n => .field (0b01#2 ++ n)
  | .sizeUpd n => .field (0b001#3 ++ n)
  | .litNever n => .field (0b0001#4 ++ n)
  | .litNoidx n => .field (0b0000#4 ++ n)
  | .strRaw l => .string (0#1 ++ l)
  | .strHuf l => .string (1#1 ++ l)
  | .decodeBlock inp => .command ⟨0x01, [.octets inp]⟩
  | .setMaxTableSize n => .command ⟨0x02, [.num n]⟩
  | .setMaxListSize n => .command ⟨0x03, [.num n]⟩
  | .readStatus => .command ⟨0x04, []⟩
  | .reset => .command ⟨0x05, []⟩
  | .intDecode n inp => .command ⟨0x10, [.num n, .octets inp]⟩
  | .intEncode n flags v => .command ⟨0x11, [.num n, .num flags, .num v]⟩
  | .hufDecode inp => .command ⟨0x20, [.octets inp]⟩
  | .hufEncode inp => .command ⟨0x21, [.octets inp]⟩
  | .strDecode inp => .command ⟨0x30, [.octets inp]⟩
  | .stGet i => .command ⟨0x40, [.num i]⟩
  | .stFindName name => .command ⟨0x41, [.octets name]⟩
  | .dtGet i => .command ⟨0x50, [.num i]⟩
  | .dtAdd name value => .command ⟨0x51, [.octets name, .octets value]⟩
  | .dtSetMax n => .command ⟨0x52, [.num n]⟩
  | .dtFindName name => .command ⟨0x53, [.octets name]⟩
  | .dtIndexOf seq => .command ⟨0x54, [.num seq]⟩
  | .dtReadSize => .command ⟨0x55, []⟩

/-- The octet spec/opcode_table.json matches: the first octet in the two octet layers, the code of a command. -/
def Code.octet : Code → Octet
  | .field b => b
  | .string b => b
  | .command o => o.code

/-- The match and mask columns of the instruction's row in spec/opcode_table.json. -/
def tableRow : Instr → Octet × Octet
  | .idx _ => (0x80, 0x80)
  | .litInc _ => (0x40, 0xC0)
  | .sizeUpd _ => (0x20, 0xE0)
  | .litNever _ => (0x10, 0xF0)
  | .litNoidx _ => (0x00, 0xF0)
  | .strRaw _ => (0x00, 0x80)
  | .strHuf _ => (0x80, 0x80)
  | .decodeBlock _ => (0x01, 0xFF)
  | .setMaxTableSize _ => (0x02, 0xFF)
  | .setMaxListSize _ => (0x03, 0xFF)
  | .readStatus => (0x04, 0xFF)
  | .reset => (0x05, 0xFF)
  | .intDecode _ _ => (0x10, 0xFF)
  | .intEncode _ _ _ => (0x11, 0xFF)
  | .hufDecode _ => (0x20, 0xFF)
  | .hufEncode _ => (0x21, 0xFF)
  | .strDecode _ => (0x30, 0xFF)
  | .stGet _ => (0x40, 0xFF)
  | .stFindName _ => (0x41, 0xFF)
  | .dtGet _ => (0x50, 0xFF)
  | .dtAdd _ _ => (0x51, 0xFF)
  | .dtSetMax _ => (0x52, 0xFF)
  | .dtFindName _ => (0x53, 0xFF)
  | .dtIndexOf _ => (0x54, 0xFF)
  | .dtReadSize => (0x55, 0xFF)

/-- The operands of a row of R95 when every operand bit is zero: the number 0, the empty octet string. -/
def Command.zeroOperands : Command → List Operand
  | .decodeBlock => [.octets []]
  | .setMaxTableSize => [.num 0]
  | .setMaxListSize => [.num 0]
  | .readStatus => []
  | .reset => []
  | .intDecode => [.num 0, .octets []]
  | .intEncode => [.num 0, .num 0, .num 0]
  | .hufDecode => [.octets []]
  | .hufEncode => [.octets []]
  | .strDecode => [.octets []]
  | .stGet => [.num 0]
  | .stFindName => [.octets []]
  | .dtGet => [.num 0]
  | .dtAdd => [.octets [], .octets []]
  | .dtSetMax => [.num 0]
  | .dtFindName => [.octets []]
  | .dtIndexOf => [.num 0]
  | .dtReadSize => []

/-- The first octet of a table word: bits 7..0. -/
def tableOctet (w : Nat) : Octet := BitVec.ofNat 8 w

/-- The octets of a table word in stream order, first octet lowest, followed by zero operand octets. -/
def tableOctets (nbits w : Nat) : OctetString :=
  (List.range (nbits / 8)).map (fun k => BitVec.ofNat 8 (w >>> (8 * k))) ++ List.replicate 16 0

/-- Where a table word is read. DESIGN CHOICE (notes/assumptions/5.md): the table's three layers share octets and a
word does not say its layer, so a word whose octet is a command code of R95 is read at the command port with operands
of zero, and every other word is read as the first octet of a representation in a header block. -/
def tableCode (w : Nat) : Code :=
  match commandOf (tableOctet w) with
  | some c => .command ⟨tableOctet w, c.zeroOperands⟩
  | none => .field (tableOctet w)

/-- The instruction the decoder reads from a word numbered as spec/opcode_table.json numbers it; every row of the table
gives 8 bits, and the bits above `nbits` are zero. -/
def decodeTableWord (nbits w : Nat) : Option Instr :=
  match decode (tableCode (w % 2 ^ nbits)) with
  | .ok i => some i
  | .error _ => none

end Sys2Proof
end

