-- ==== Sys2Proof/Machine/State.lean ====
section
/-!
DEFINITION. The state of the block (10_state.md R21) as plain data, and its value after power-on reset (R350). Every
mutable element of R21 is a field here. The read-only tables HUF_CODE, HUF_TREE, ST_ENTRY and ST_NAME_IDX (R45–R47) are
constants in Machine/HuffmanRom.lean, Machine/Huffman.lean and Machine/StaticRom.lean: they never change, and nothing
writes them. Beside R21 the state holds what a command in progress needs (R22, R36, R280), the host's side of the
command port (R95, R96, R366), and the two OPEN parameters of R5 that one machine fixes.
-/

namespace Sys2Proof.Machine

/-- The error taxonomy of R321. -/
inductive Err where
  | unexpectedEndOfStream
  | integerLimitExceeded
  | invalidHuffmanPadding
  | eosDecodedLiterally
  | invalidTableIndex
  | headerListSizeExceeded
  /-- reserved: no rule raises it (R328, decision D7) -/
  | characterCodingError
  | invalidCommand
deriving DecidableEq, Repr

/-- The code of an error (R321), the width of LAST_ERR (R21). 0 is OK and 9..15 are unused. -/
def Err.code : Err → BitVec 4
  | .unexpectedEndOfStream => 1
  | .integerLimitExceeded => 2
  | .invalidHuffmanPadding => 3
  | .eosDecodedLiterally => 4
  | .invalidTableIndex => 5
  | .headerListSizeExceeded => 6
  | .characterCodingError => 7
  | .invalidCommand => 8

/-- Why the machine stops. No state a run from reset reaches takes either: the spec's errors are no faults (R320), they
end a command with a status. -/
inductive Fault where
  /-- Raised by EvictTo where the table is empty and DT_CUR_SIZE still exceeds DT_MAX_SIZE, so that R231's guard fails:
  "a model that reaches it has a broken invariant and must fault" (93_implementation_defined.md U7). Safe. -/
  | tableSizeInvariantBroken
  /-- Raised by DT_FIND_NAME where DT_NAME_IDX lists a sequence number that no entry holds, against R33: R247 gives such
  a list element no value. Safe. -/
  | nameIndexInvariantBroken
deriving DecidableEq, Repr

/-- Why an instruction has no meaning. -/
inductive Refusal where
  /-- Raised by exec for an instruction without a meaning; no arm of this model does. Safe. -/
  | notModelled (mnemonic : String)
deriving DecidableEq, Repr

/-- A header triple (R11): what a field that emits a header emits. -/
structure Header where
  name : OctetString
  value : OctetString
  sensitive : Bool
deriving DecidableEq, Repr

/-- An entry of the dynamic table with its sequence number (R11, R30). -/
structure DynEntry where
  name : OctetString
  value : OctetString
  seq : Nat
deriving DecidableEq, Repr

/-- The ring representation (R40): `RING_CAP`, `RING_HEAD`, `RING_TAIL` and `RING_SLOT[]`. -/
structure Ring where
  cap : Nat
  head : Nat
  tail : Nat
  slots : List (Option DynEntry)
deriving DecidableEq, Repr

/-- `DT_NAME_IDX` (R33): a map from names to sequence numbers, newest first, kept as a list of keys with their lists. -/
abbrev NameIndex := List (OctetString × List Nat)

/-- The dynamic table (R30, R33, R40). -/
structure DynTable where
  /-- `DT_ENTRIES`, newest first -/
  entries : List DynEntry
  /-- `DT_CUR_SIZE`, a natural (R6, decision D18) -/
  curSize : Nat
  /-- `DT_MAX_SIZE` -/
  maxSize : BitVec 31
  /-- `DT_SEQ_NEXT` -/
  seqNext : Nat
  /-- `DT_NAME_IDX` -/
  nameIdx : NameIndex
  /-- `RING_*` -/
  ring : Ring
deriving DecidableEq, Repr

/-- Which unit walks the input operand while a command is in progress. -/
inductive Activity where
  /-- none: no command is in progress, or one that ends in the step that accepts it -/
  | idle
  /-- DECODE_BLOCK: representations stand at the cursor (R280) -/
  | block
  /-- STR_DECODE: a string literal stands at the cursor (R196) -/
  | string
deriving DecidableEq, Repr

/-- The scratch state of a command in progress, which holds nothing between commands (R36). -/
structure Scratch where
  activity : Activity
  /-- `In` (R60), latched at acceptance -/
  input : OctetString
  /-- `pos` (R22) -/
  pos : Nat
  /-- the response list `out` (R280) -/
  out : List Header
  /-- `total`, the running header-list size (R280, R283) -/
  total : Nat
deriving DecidableEq, Repr

/-- The result of a command that ended with status OK (R95, last column but one). -/
inductive Result where
  | none
  | headers (hs : List Header)
  | status (lastErr : BitVec 4) (errSticky : Bool)
  | int (v consumed : Nat)
  | octets (s : OctetString)
  | string (s : OctetString) (consumed : Nat)
  | entry (name value : OctetString)
  | staticMatches (ms : List (Nat × OctetString))
  | dynMatches (ms : List (Int × Nat × OctetString))
  | position (p : Int)
  | sizes (curSize maxSize length : Nat)
deriving DecidableEq, Repr

/-- A response (R96): status OK with a result, or an error status with none. -/
inductive Response where
  | ok (r : Result)
  | error (e : Err)
deriving DecidableEq, Repr

/-- The status of a response (R96, R321). -/
def Response.status : Response → BitVec 4
  | .ok _ => 0
  | .error e => e.code

/-- The state of the block. -/
structure State where
  /-- `CFG_MAX_TABLE_SIZE` (R21, R24) -/
  cfgMaxTableSize : BitVec 31
  /-- `LIST_CAP_EN` (R21, R25) -/
  listCapEn : Bool
  /-- `LIST_CAP` (R21, R25) -/
  listCap : BitVec 31
  /-- `LAST_ERR` (R21, R26) -/
  lastErr : BitVec 4
  /-- `ERR_STICKY` (R21, R26) -/
  errSticky : Bool
  /-- `BUSY` (R21, R23) -/
  busy : Bool
  /-- `DT_*` and `RING_*` (R21, R30, R40) -/
  dt : DynTable
  /-- the command in progress (R22, R36, R280) -/
  scratch : Scratch
  /-- the commands the host offers and the block has not accepted, in the host's order (R67, R360) -/
  offers : List Offer
  /-- the responses produced so far, oldest first (R96, R365) -/
  responses : List Response
  /-- `HUF_STRICT_END` (R5, decision D5): written by no step -/
  hufStrictEnd : Bool
  /-- `RING_INIT_CAP` (R5, decision D9): written by no step -/
  ringInitCap : Nat
deriving DecidableEq, Repr

/-- The scratch state between commands: nothing (R22, R36). -/
def Scratch.empty : Scratch := { activity := .idle, input := [], pos := 0, out := [], total := 0 }

/-- The ring after reset (R350): `RING_CAP` = `RING_INIT_CAP`, both cursors 0, every slot empty. -/
def Ring.reset (initCap : Nat) : Ring := { cap := initCap, head := 0, tail := 0, slots := List.replicate initCap none }

/-- The dynamic table after reset (R350). -/
def DynTable.reset (initCap : Nat) : DynTable :=
  { entries := [], curSize := 0, maxSize := BitVec.ofNat 31 Config.resetMaxSize, seqNext := 1, nameIdx := [],
    ring := Ring.reset initCap }

/-- The block after power-on reset (R350): every element of R21 at its reset value, no command offered, no response
produced yet. `HUF_STRICT_END` is at the default R5 gives and `RING_INIT_CAP` at the value notes/assumptions/2.md
names. -/
def State.reset : State :=
  { cfgMaxTableSize := BitVec.ofNat 31 Config.resetMaxSize
    listCapEn := false
    listCap := 0
    lastErr := 0
    errSticky := false
    busy := false
    dt := DynTable.reset Config.ringInitCapDefault
    scratch := Scratch.empty
    offers := []
    responses := []
    hufStrictEnd := Config.hufStrictEndDefault
    ringInitCap := Config.ringInitCapDefault }

end Sys2Proof.Machine
end

