-- ==== Sys2Proof/Machine/Flags.lean ====
section
/-!
DEFINITION. The block's only flags (10_state.md R26): LAST_ERR and ERR_STICKY. There are no condition codes and no
arithmetic flags.
-/

namespace Sys2Proof.Machine

/-- The status a command ends with (R96): `LAST_ERR <- status`, and `ERR_STICKY <- 1` where it is not OK. -/
def State.setStatus (s : State) (status : BitVec 4) : State :=
  { s with lastErr := status, errSticky := s.errSticky || status != 0 }

end Sys2Proof.Machine
end

