-- ==== Sys2Proof/Machine/Huffman.lean ====
section
/-!
DEFINITION. The Huffman unit (42_huffman.md): the tree and its build (R150, R151), the decoder as a tree walk with 8-bit
lookups (R160), and the auxiliary encoder (R170).
-/

namespace Sys2Proof.Machine

/-- The 256 slots of an internal node, indexed by an octet. They are held as the binary tree of the index bits, most
significant first, in which `all x` says that every slot below this point holds `x`; Slots.get and Slots.fill are the
array's read and its range write. -/
inductive Slots (α : Type) where
  | all (x : α)
  | split (zero one : Slots α)
deriving Repr

/-- The slot whose index has the low `k` bits of `c` still to be read. -/
def Slots.getBits {α : Type} : Nat → Slots α → Nat → α
  | _, .all x, _ => x
  | 0, .split zero _, _ => zero.getBits 0 0
  | k + 1, .split zero one, c => if c.testBit k then one.getBits k c else zero.getBits k c

/-- `slot[c]`: the content of slot c, 0 ≤ c < 256. -/
def Slots.get {α : Type} (s : Slots α) (c : Nat) : α := s.getBits 8 c

/-- Write `x` into every slot whose index agrees with `c` in its next `n` bits, the first of which is bit `k - 1`. -/
def Slots.fillBits {α : Type} : (n k : Nat) → Slots α → Nat → α → Slots α
  | 0, _, _, _, x => .all x
  | _ + 1, 0, _, _, x => .all x
  | n + 1, k + 1, s, c, x =>
    let zero := match s with
      | .all y => .all y
      | .split z _ => z
    let one := match s with
      | .all y => .all y
      | .split _ o => o
    if c.testBit k then .split zero (one.fillBits n k c x) else .split (zero.fillBits n k c x) one

/-- `for i in start .. start + 2^shift − 1: slot[i] ← x` (R150), where `start` is a multiple of 2^shift below 256. -/
def Slots.fill {α : Type} (s : Slots α) (start shift : Nat) (x : α) : Slots α := s.fillBits (8 - shift) 8 start x

/-- `slot[i] ← x`, for one slot. -/
def Slots.set {α : Type} (s : Slots α) (i : Nat) (x : α) : Slots α := s.fill i 0 x

/-- What a slot holds (R151): nothing yet, a terminal with its symbol and the bits of its code that fall in the last
8-bit level, or an internal node with 256 slots and `bits` = 8. -/
inductive HufNode where
  | empty
  | terminal (symbol bits : Nat)
  | internal (slots : Slots HufNode)
deriving Repr

/-- An internal node whose every slot is empty. -/
def HufNode.new : HufNode := .internal (.all .empty)

/-- `node.slot[c]`; a node that is not internal has no slots. -/
def HufNode.slot : HufNode → Nat → HufNode
  | .internal slots, c => slots.get c
  | .empty, _ => .empty
  | .terminal _ _, _ => .empty

/-- One symbol's part of BuildTree (R150), from an internal node on, with at most `depth` levels to descend. None is the
failure MalformedTable (R154). -/
def HufNode.insert : (depth : Nat) → HufNode → (code len symbol : Nat) → Option HufNode
  | 0, _, _, _, _ => none
  | depth + 1, node, code, len, symbol =>
    match node with
    | .empty => none
    | .terminal _ _ => none
    | .internal slots =>
      if len > 8 then
        let i := (code >>> (len - 8)) % 256
        let child := match slots.get i with
          | .empty => some HufNode.new
          | .terminal _ _ => none
          | .internal s => some (.internal s)
        match child with
        | none => none
        | some node =>
          match HufNode.insert depth node code (len - 8) symbol with
          | none => none
          | some node => some (.internal (slots.set i node))
      else
        let shift := 8 - len
        let start := (code <<< shift) % 256
        some (.internal (slots.fill start shift (.terminal symbol len)))

/-- BuildTree over the rows of a code table, the first of which is the code of `symbol` (R150). -/
def buildFrom : HufNode → (symbol : Nat) → List HufCode → Option HufNode
  | node, _, [] => some node
  | node, symbol, c :: cs =>
    match HufNode.insert 4 node c.code c.len symbol with
    | none => none
    | some node => buildFrom node (symbol + 1) cs

/-- BuildTree (R150); none where the table is malformed (R154). -/
def buildTree (table : List HufCode) : Option HufNode := buildFrom HufNode.new 0 table

/-- `HUF_TREE` (R46): built from HUF_CODE at power-on reset and never changed (R351). The build cannot fail (R154); were
the table malformed it would be refused and there would be no tree to walk (R338). -/
def hufTree : HufNode := (buildTree hufCode).getD .empty

/-- The state of a walk (R160): the current node, whether it is ROOT, the 16-bit accumulator, the number of unconsumed
bits in it, and the octets decoded so far. -/
structure HufWalk where
  node : HufNode
  atRoot : Bool
  cur : Nat
  bits : Nat
  out : OctetString

/-- The walk at the start of a string (R36, R191). -/
def HufWalk.start : HufWalk := { node := hufTree, atRoot := true, cur := 0, bits := 0, out := [] }

/-- A terminal was reached whose last level took `bits` bits: emit its symbol and go back to ROOT, or raise
EosDecodedLiterally (R160, R164). -/
def HufWalk.emit (w : HufWalk) (symbol bits : Nat) : Except Err HufWalk :=
  if symbol = Config.eosSymbol then .error .eosDecodedLiterally
  else .ok { w with node := hufTree, atRoot := true, bits := w.bits - bits, out := w.out ++ [BitVec.ofNat 8 symbol] }

/-- `while bits >= 8` of R160. Every pass consumes at least one bit, so `fuel` = the bits outstanding is enough. An empty
slot does not occur, because every slot of the tree is filled (R153); DESIGN CHOICE (notes/assumptions/10.md): it would
be a malformed bit stream. -/
def HufWalk.lookups : (fuel : Nat) → HufWalk → Except Err HufWalk
  | 0, w => .ok w
  | fuel + 1, w =>
    if w.bits ≥ 8 then
      match w.node.slot ((w.cur >>> (w.bits - 8)) % 256) with
      | .terminal symbol bits =>
        match w.emit symbol bits with
        | .error e => .error e
        | .ok w => w.lookups fuel
      | .internal slots => HufWalk.lookups fuel { w with node := .internal slots, atRoot := false, bits := w.bits - 8 }
      | .empty => .error .invalidHuffmanPadding
    else .ok w

/-- `for each octet b of data` of R160. -/
def HufWalk.feed : HufWalk → OctetString → Except Err HufWalk
  | w, [] => .ok w
  | w, b :: data =>
    match HufWalk.lookups (w.bits + 8) { w with cur := (w.cur * 256 + b.toNat) % 65536, bits := w.bits + 8 } with
    | .error e => .error e
    | .ok w => w.feed data

/-- The drain of R160 (R162): fewer than 8 bits remain, left-aligned and zero-filled to form the lookup. -/
def HufWalk.drain : (fuel : Nat) → HufWalk → Except Err HufWalk
  | 0, w => .ok w
  | fuel + 1, w =>
    if w.bits > 0 then
      match w.node.slot ((w.cur <<< (8 - w.bits)) % 256) with
      | .terminal symbol bits =>
        if bits ≤ w.bits then
          match w.emit symbol bits with
          | .error e => .error e
          | .ok w => w.drain fuel
        else .ok w
      | .internal _ => .ok w
      | .empty => .ok w
    else .ok w

/-- The end of R160: the bits left must all be ones (R163), and with HUF_STRICT_END the walk must have ended at ROOT
(R165). -/
def HufWalk.finish (strictEnd : Bool) (w : HufWalk) : Except Err OctetString :=
  if w.cur % 2 ^ w.bits ≠ 2 ^ w.bits - 1 then .error .invalidHuffmanPadding
  else if !w.atRoot && strictEnd then .error .invalidHuffmanPadding
  else .ok w.out

/-- HufDecode (R160), with the parameter HUF_STRICT_END. -/
def hufDecode (strictEnd : Bool) (data : OctetString) : Except Err OctetString :=
  match HufWalk.start.feed data with
  | .error e => .error e
  | .ok w =>
    match w.drain w.bits with
    | .error e => .error e
    | .ok w => w.finish strictEnd

/-- The state of the encoder (R170): the pending bits, how many they are, and the octets flushed so far. -/
structure HufPack where
  acc : Nat
  n : Nat
  out : OctetString

/-- `while n >= 8` of R170, which flushes whole octets; `fuel` = the bits pending is enough. -/
def HufPack.flush : (fuel : Nat) → HufPack → HufPack
  | 0, p => p
  | fuel + 1, p =>
    if p.n ≥ 8 then HufPack.flush fuel { p with n := p.n - 8, out := p.out ++ [BitVec.ofNat 8 (p.acc >>> (p.n - 8))] }
    else p

/-- One octet of R170: shift its code in, flush, and keep the pending bits. -/
def HufPack.push (p : HufPack) (b : Octet) : HufPack :=
  let c := hufCodeOf b
  let p := HufPack.flush (p.n + c.len) { p with acc := (p.acc <<< c.len) ||| c.code, n := p.n + c.len }
  { p with acc := p.acc % 2 ^ p.n }

/-- The end of R170: pad the last octet with the EOS code's high-order bits, which are ones (R62, R88). -/
def HufPack.finish (p : HufPack) : OctetString :=
  if p.n > 0 then p.out ++ [BitVec.ofNat 8 ((p.acc <<< (8 - p.n)) ||| (255 >>> p.n))] else p.out

/-- HufEncode (R170). -/
def hufEncode (data : OctetString) : OctetString := (data.foldl HufPack.push { acc := 0, n := 0, out := [] }).finish

end Sys2Proof.Machine
end

