-- ==== Sys2Proof/Machine/StaticRom.lean ====
section
/-!
DEFINITION. ST_ENTRY and ST_NAME_IDX (10_state.md R47): the fixed static table, transcribed row by row from
44_static_table.md R211, with its index lookup (R213) and its name index (R212).
-/

namespace Sys2Proof.Machine

/-- Rows 1 to 14 of R211. -/
def stEntries1 : List (OctetString × OctetString) :=
  [(ascii ":authority", ascii ""),
   (ascii ":method", ascii "GET"),
   (ascii ":method", ascii "POST"),
   (ascii ":path", ascii "/"),
   (ascii ":path", ascii "/index.html"),
   (ascii ":scheme", ascii "http"),
   (ascii ":scheme", ascii "https"),
   (ascii ":status", ascii "200"),
   (ascii ":status", ascii "204"),
   (ascii ":status", ascii "206"),
   (ascii ":status", ascii "304"),
   (ascii ":status", ascii "400"),
   (ascii ":status", ascii "404"),
   (ascii ":status", ascii "500")]

/-- Rows 15 to 31 of R211. -/
def stEntries15 : List (OctetString × OctetString) :=
  [(ascii "accept-charset", ascii ""),
   (ascii "accept-encoding", ascii "gzip, deflate"),
   (ascii "accept-language", ascii ""),
   (ascii "accept-ranges", ascii ""),
   (ascii "accept", ascii ""),
   (ascii "access-control-allow-origin", ascii ""),
   (ascii "age", ascii ""),
   (ascii "allow", ascii ""),
   (ascii "authorization", ascii ""),
   (ascii "cache-control", ascii ""),
   (ascii "content-disposition", ascii ""),
   (ascii "content-encoding", ascii ""),
   (ascii "content-language", ascii ""),
   (ascii "content-length", ascii ""),
   (ascii "content-location", ascii ""),
   (ascii "content-range", ascii ""),
   (ascii "content-type", ascii "")]

/-- Rows 32 to 46 of R211. -/
def stEntries32 : List (OctetString × OctetString) :=
  [(ascii "cookie", ascii ""),
   (ascii "date", ascii ""),
   (ascii "etag", ascii ""),
   (ascii "expect", ascii ""),
   (ascii "expires", ascii ""),
   (ascii "from", ascii ""),
   (ascii "host", ascii ""),
   (ascii "if-match", ascii ""),
   (ascii "if-modified-since", ascii ""),
   (ascii "if-none-match", ascii ""),
   (ascii "if-range", ascii ""),
   (ascii "if-unmodified-since", ascii ""),
   (ascii "last-modified", ascii ""),
   (ascii "link", ascii ""),
   (ascii "location", ascii "")]

/-- Rows 47 to 61 of R211. -/
def stEntries47 : List (OctetString × OctetString) :=
  [(ascii "max-forwards", ascii ""),
   (ascii "proxy-authenticate", ascii ""),
   (ascii "proxy-authorization", ascii ""),
   (ascii "range", ascii ""),
   (ascii "referer", ascii ""),
   (ascii "refresh", ascii ""),
   (ascii "retry-after", ascii ""),
   (ascii "server", ascii ""),
   (ascii "set-cookie", ascii ""),
   (ascii "strict-transport-security", ascii ""),
   (ascii "transfer-encoding", ascii ""),
   (ascii "user-agent", ascii ""),
   (ascii "vary", ascii ""),
   (ascii "via", ascii ""),
   (ascii "www-authenticate", ascii "")]

/-- `ST_ENTRY[1..61]` (R47, R211), in index order. -/
def stEntries : List (OctetString × OctetString) :=
  stEntries1 ++ stEntries15 ++ stEntries32 ++ stEntries47

/-- `ST_ENTRY[i]` (R210, 1-based); none outside 1..61. -/
def stEntry (i : Nat) : Option (OctetString × OctetString) :=
  if 1 ≤ i ∧ i ≤ Config.staticLen then stEntries[i - 1]? else none

/-- The static table's rows with their indices 1..61. -/
def stIndexed : List (Nat × OctetString × OctetString) := (List.range' 1 Config.staticLen).zip stEntries

/-- `ST_NAME_IDX[name]` (R212): the index and value of every entry with that name, in increasing index order; the empty
list for a name that does not occur. -/
def stFind (name : OctetString) : List (Nat × OctetString) :=
  (stIndexed.filter fun r => r.2.1 == name).map fun r => (r.1, r.2.2)

end Sys2Proof.Machine
end

