-- ==== Sys2Proof/Machine/Operands.lean ====
section
/-!
DEFINITION. The operand forms: integers with an N-bit first octet part (41_integer.md R120, R130), string literals
(43_string.md R190), combined table indices (45_dynamic_table.md R244) and name references (46_field_decoder.md R284).
Every reader takes the input operand `inp` and the cursor `pos` (R22) and answers the value with the cursor after the
octets it consumed, or the error it raises.
-/

namespace Sys2Proof.Machine

/-- The loop of IntDecode (R120): `left` more continuation octets are allowed (INT_MAX_CONT at the start), `m` is the
shift and `v` the value so far. With none left a 6th continuation octet would be needed, and the limit test comes before
the end-of-input test (R124, R125, decision D24). -/
def intGroups (inp : OctetString) : (left pos m v : Nat) → Except Err (Nat × Nat)
  | 0, _, _, _ => .error .integerLimitExceeded
  | left + 1, pos, m, v =>
    match inp[pos]? with
    | none => .error .unexpectedEndOfStream
    | some c =>
      let v := v + c.toNat % 128 * 2 ^ m
      if c.getLsbD 7 then intGroups inp left (pos + 1) (m + 7) v
      else if v > Config.intMax then .error .integerLimitExceeded
      else .ok (v, pos + 1)

/-- IntDecode(N) after its first octet, whose low N bits are `low` and which the cursor has passed (R120–R124). -/
def intRest (n low : Nat) (inp : OctetString) (pos : Nat) : Except Err (Nat × Nat) :=
  if low < 2 ^ n - 1 then .ok (low, pos) else intGroups inp Config.intMaxCont pos 0 low

/-- IntDecode(N) at the cursor (R120): the flag bits [7:N] of the first octet are ignored (R121). -/
def intDecode (n : Nat) (inp : OctetString) (pos : Nat) : Except Err (Nat × Nat) :=
  match inp[pos]? with
  | none => .error .unexpectedEndOfStream
  | some b => intRest n (b.toNat % 2 ^ n) inp (pos + 1)

/-- The continuation octets of IntEncode (R130): `while r >= 128`, at most `fuel` times. -/
def intEncodeGroups : (fuel r : Nat) → OctetString
  | 0, r => [BitVec.ofNat 8 r]
  | fuel + 1, r =>
    if r ≥ 128 then BitVec.ofNat 8 (r % 128 ||| 128) :: intEncodeGroups fuel (r >>> 7) else [BitVec.ofNat 8 r]

/-- IntEncode(N, flags, v) (R130). A value up to INT_MAX takes at most INT_MAX_CONT continuation octets (R132). -/
def intEncode (n flags v : Nat) : OctetString :=
  let lim := 2 ^ n - 1
  if v < lim then [BitVec.ofNat 8 (flags ||| v)]
  else BitVec.ofNat 8 (flags ||| lim) :: intEncodeGroups Config.intMaxCont (v - lim)

/-- StrDecode after the length integer `strLen` (R190): the length test comes before any content is read (R192), and a
string with H = 1 is one whole Huffman string (R191). -/
def strContent (strictEnd h : Bool) (strLen : Nat) (inp : OctetString) (pos : Nat) :
    Except Err (OctetString × Nat) :=
  if inp.length - pos < strLen then .error .unexpectedEndOfStream
  else
    let raw := (inp.drop pos).take strLen
    if h then
      match hufDecode strictEnd raw with
      | .error e => .error e
      | .ok s => .ok (s, pos + strLen)
    else .ok (raw, pos + strLen)

/-- StrDecode after its first octet, whose bit 7 is `h` and whose low 7 bits are `low` and which the cursor has passed
(R190, R191). -/
def strRest (strictEnd h : Bool) (low : Nat) (inp : OctetString) (pos : Nat) : Except Err (OctetString × Nat) :=
  match intRest 7 low inp pos with
  | .error e => .error e
  | .ok (strLen, pos) => strContent strictEnd h strLen inp pos

/-- StrDecode at the cursor (R190). -/
def strDecode (strictEnd : Bool) (inp : OctetString) (pos : Nat) : Except Err (OctetString × Nat) :=
  match inp[pos]? with
  | none => .error .unexpectedEndOfStream
  | some b => strRest strictEnd (b.getLsbD 7) (b.toNat % 128) inp (pos + 1)

/-- TableGet(i) (R244, R66): a combined index, static entries first, then the dynamic ones, newest first. -/
def DynTable.get (t : DynTable) (i : Nat) : Except Err (OctetString × OctetString) :=
  if i = 0 then .error .invalidTableIndex
  else if i ≤ Config.staticLen then
    match stEntry i with
    | some e => .ok e
    | none => .error .invalidTableIndex
  else
    match t.entries[i - Config.staticLen - 1]? with
    | some e => .ok (e.name, e.value)
    | none => .error .invalidTableIndex

/-- The name of a literal field (R284): by reference where the name index `ni` is not 0, and then only the name of the
referenced entry is used; else a string literal at the cursor. -/
def nameOperand (strictEnd : Bool) (t : DynTable) (ni : Nat) (inp : OctetString) (pos : Nat) :
    Except Err (OctetString × Nat) :=
  if ni ≠ 0 then
    match t.get ni with
    | .error e => .error e
    | .ok (name, _) => .ok (name, pos)
  else strDecode strictEnd inp pos

/-- The operands of a literal field after its first octet (R284), in stream order: the name index with an `n`-bit first
octet part `low`, the name, then the value. -/
def literalOperands (strictEnd : Bool) (t : DynTable) (n low : Nat) (inp : OctetString) (pos : Nat) :
    Except Err (OctetString × OctetString × Nat) :=
  match intRest n low inp pos with
  | .error e => .error e
  | .ok (ni, pos) =>
    match nameOperand strictEnd t ni inp pos with
    | .error e => .error e
    | .ok (name, pos) =>
      match strDecode strictEnd inp pos with
      | .error e => .error e
      | .ok (value, pos) => .ok (name, value, pos)

end Sys2Proof.Machine
end

