-- ==== Sys2Proof/Machine/Ops.lean ====
section
/-!
DEFINITION. The named operations over the state: accepting a command, ending it with a result, raising an error (the
block's one exception mechanism, 60_exceptions.md R320), the ring (10_state.md R42), the name index (R246) and the
internal operations of the dynamic table (45_dynamic_table.md R231–R240). There is no return from an exception: the
block has no handler and nothing to restore, and the next command simply starts from the state the error left (R333).
-/

namespace Sys2Proof.Machine

/-- An outcome of this machine. -/
abbrev Out := Host.Outcome State Fault Refusal

/-- The entry size of R11 and R230: the two lengths in octets and ENTRY_OVERHEAD. -/
def entrySize (name value : OctetString) : Nat := name.length + value.length + Config.entryOverhead

/-- The size of a held entry (R230). -/
def DynEntry.size (e : DynEntry) : Nat := entrySize e.name e.value

/-- The size of an emitted triple (R283). -/
def Header.size (h : Header) : Nat := entrySize h.name h.value

/-! ### Commands -/

/-- Acceptance of the command the host offers first (R23, R360): it leaves the offers and BUSY rises. -/
def State.accept (s : State) (rest : List Offer) : State := { s with offers := rest, busy := true }

/-- The end of a command (R22, R23, R36, R96): its response is produced, BUSY falls, and the cursor and every scratch
value are discarded. -/
def State.finish (s : State) (r : Response) : State :=
  { s with busy := false, scratch := Scratch.empty, responses := s.responses ++ [r] }

/-- A command ends with status OK and a result (R96). -/
def State.respond (s : State) (r : Result) : State := (s.setStatus 0).finish (.ok r)

/-- `raise E` (R320): the command ends at once, its response is the error code with no result, LAST_ERR and ERR_STICKY
are set, and BUSY falls. This is the block's only way of taking an exception: no vector, no saved context, no mode. -/
def State.raise (s : State) (e : Err) : State := (s.setStatus e.code).finish (.error e)

/-- A command that walks its input operand step by step latches it, with the cursor at 0 (R22, R280). -/
def State.start (s : State) (a : Activity) (inp : OctetString) : State :=
  { s with scratch := { activity := a, input := inp, pos := 0, out := [], total := 0 } }

/-- The cursor moves forward over the octets a field consumed (R22). -/
def State.advance (s : State) (pos : Nat) : State := { s with scratch := { s.scratch with pos := pos } }

/-- A field emits its triple (R280): where a list cap is configured its size is added to the running total, and reaching
the cap raises HeaderListSizeExceeded with the triple not emitted (R283). -/
def State.emit (s : State) (pos : Nat) (h : Header) : State :=
  if s.listCapEn then
    if s.scratch.total + h.size ≥ s.listCap.toNat then s.raise .headerListSizeExceeded
    else { s with scratch := { s.scratch with
             pos := pos, out := s.scratch.out ++ [h], total := s.scratch.total + h.size } }
  else { s with scratch := { s.scratch with pos := pos, out := s.scratch.out ++ [h] } }

/-! ### The ring (R42) -/

/-- `ring_addFirst(e)` (R42, decision D9): write at the head; when the head catches up to the tail, double the capacity
and repack with the oldest entry at slot 0. -/
def Ring.addFirst (r : Ring) (e : DynEntry) : Ring :=
  let slots := r.slots.set r.head (some e)
  let head := (r.head + 1) % r.cap
  if head = r.tail then
    let old := (List.range r.cap).map fun k => slots.getD ((r.tail + k) % r.cap) none
    { cap := 2 * r.cap, tail := 0, head := old.length, slots := old ++ List.replicate (2 * r.cap - old.length) none }
  else { r with slots := slots, head := head }

/-- The length of the ring (R41). -/
def Ring.length (r : Ring) : Nat := (r.head + r.cap - r.tail) % r.cap

/-- `ring_get(i)` (R42): 0 is the newest, for i below the length. -/
def Ring.get (r : Ring) (i : Nat) : Option DynEntry := r.slots.getD ((r.head + r.cap - (i + 1)) % r.cap) none

/-- `ring_removeLast()` (R42): nothing where the ring is empty; else the slot at the tail is emptied and the tail
advances. -/
def Ring.removeLast (r : Ring) : Ring :=
  if r.head = r.tail then r else { r with slots := r.slots.set r.tail none, tail := (r.tail + 1) % r.cap }

/-! ### The name index (R33, R246) -/

/-- `DT_NAME_IDX[name]`: an absent name reads as the empty list (R33). -/
def NameIndex.find (ix : NameIndex) (name : OctetString) : List Nat := (ix.lookup name).getD []

/-- The map without a key. -/
def NameIndex.erase (ix : NameIndex) (name : OctetString) : NameIndex := ix.filter fun k => k.1 != name

/-- `NameIdxInsert(name, s)` (R246). The key with the newest entry stands first, so that equal tables have equal name
indices (notes/assumptions/6.md). -/
def NameIndex.insert (ix : NameIndex) (name : OctetString) (s : Nat) : NameIndex :=
  (name, s :: ix.find name) :: ix.erase name

/-- `NameIdxRemove(name, s)` (R246), where s is the last element of the name's list: drop it, and the key with it where
nothing is left. -/
def NameIndex.removeOldest (ix : NameIndex) (name : OctetString) : NameIndex :=
  (ix.map fun k => if k.1 == name then (k.1, k.2.dropLast) else k).filter fun k => !k.2.isEmpty

/-! ### The dynamic table (R231–R240) -/

/-- EvictOldest() on a table whose oldest entry is `e` (R231): the ring, DT_ENTRIES, DT_CUR_SIZE and DT_NAME_IDX lose it
together. -/
def DynTable.dropOldest (t : DynTable) (e : DynEntry) : DynTable :=
  { t with
    ring := t.ring.removeLast
    entries := t.entries.dropLast
    curSize := t.curSize - e.size
    nameIdx := t.nameIdx.removeOldest e.name }

/-- EvictTo() (R232): evict the oldest entry while DT_CUR_SIZE exceeds DT_MAX_SIZE, at most `fuel` = DT_LENGTH times. To
find the table empty and still too large is the broken invariant of R231's guard, which faults (U7,
notes/assumptions/13.md). -/
def DynTable.evict : (fuel : Nat) → DynTable → Except Fault DynTable
  | 0, t => if t.curSize > t.maxSize.toNat then .error .tableSizeInvariantBroken else .ok t
  | fuel + 1, t =>
    if t.curSize > t.maxSize.toNat then
      match t.entries.getLast? with
      | some e => DynTable.evict fuel (t.dropOldest e)
      | none => .error .tableSizeInvariantBroken
    else .ok t

/-- EvictTo() (R232) of a whole table. -/
def DynTable.evictTo (t : DynTable) : Except Fault DynTable := DynTable.evict t.entries.length t

/-- The loop of Clear() (R240). -/
def DynTable.clearLoop : (fuel : Nat) → DynTable → DynTable
  | 0, t => t
  | fuel + 1, t =>
    match t.entries.getLast? with
    | some e => DynTable.clearLoop fuel (t.dropOldest e)
    | none => t

/-- Clear() (R240): evict every entry; DT_SEQ_NEXT and DT_MAX_SIZE stay. -/
def DynTable.clear (t : DynTable) : DynTable := DynTable.clearLoop t.entries.length t

/-- The insertion part of Insert (R233): the new entry takes DT_SEQ_NEXT and stands first. -/
def DynTable.push (t : DynTable) (name value : OctetString) : DynTable :=
  let e : DynEntry := { name := name, value := value, seq := t.seqNext }
  { t with
    seqNext := t.seqNext + 1
    ring := t.ring.addFirst e
    entries := e :: t.entries
    curSize := t.curSize + entrySize name value
    nameIdx := t.nameIdx.insert name t.seqNext }

/-- Insert(name, value) (R233): an entry larger than DT_MAX_SIZE clears the table and is not inserted; else it is
inserted, and older entries are evicted down to the cap. -/
def DynTable.insert (t : DynTable) (name value : OctetString) : Except Fault DynTable :=
  if entrySize name value > t.maxSize.toNat then .ok t.clear else (t.push name value).evictTo

/-- SetMax(n) for n in 0..INT_MAX (R234). -/
def DynTable.setMax (t : DynTable) (n : Nat) : Except Fault DynTable :=
  DynTable.evictTo { t with maxSize := BitVec.ofNat 31 n }

/-- A step that changes the dynamic table: the fault of the table, or the rest of the step with the new table. -/
def State.withTable (s : State) (t : Except Fault DynTable) (next : State → State) : Out :=
  match t with
  | .error f => .fault f
  | .ok t => .next (next { s with dt := t })

/-- DT_INDEX_OF's value (R248): the 0-based position of the entry with that sequence number, or −1. DT_OLDEST and
DT_NEWEST are those of R32. -/
def DynTable.indexOf (t : DynTable) (seq : Nat) : Int :=
  match t.entries.head?, t.entries.getLast? with
  | some newest, some oldest =>
    if oldest.seq ≤ seq ∧ seq ≤ newest.seq then (t.entries.length : Int) - ((seq : Int) - (oldest.seq : Int)) - 1
    else -1
  | _, _ => -1

/-- The value of the entry with a sequence number (R247). -/
def DynTable.valueOf (t : DynTable) (seq : Nat) : Option OctetString :=
  (t.entries.find? fun e => e.seq == seq).map fun e => e.value

/-- The list of R247: for each sequence number of the name, its combined index, itself and its value; none where the
name index lists a sequence number no entry holds. -/
def DynTable.matches (t : DynTable) (name : OctetString) : Option (List (Int × Nat × OctetString)) :=
  (t.nameIdx.find name).mapM fun seq =>
    (t.valueOf seq).map fun value => ((Config.staticLen : Int) + 1 + t.indexOf seq, seq, value)

end Sys2Proof.Machine
end

