-- ==== Sys2Proof/Machine/Block.lean ====
section
/-!
DEFINITION. DECODE_BLOCK (46_field_decoder.md R280). Accepting it latches the header block with the cursor at 0, an empty
response list and a total of 0; from then on each step runs one representation at the cursor, and when the cursor
reaches the end of the operand the command ends with the response list (R291). The loop itself is Machine/Fetch.lean.
DESIGN CHOICE (notes/assumptions/7.md): the step is one representation; no command can see the states between.
-/

namespace Sys2Proof.Machine

/-- `DECODE_BLOCK` (R280): `pos <- 0; out <- []; total <- 0` on the operand. -/
def execDecodeBlock (inp : OctetString) (s : State) : Out := .next (s.start .block inp)

/-- The end of the loop of R280 (R291): `result out`. -/
def State.endBlock (s : State) : State := s.respond (.headers s.scratch.out)

end Sys2Proof.Machine
end

