-- ==== Sys2Proof/Machine/Control.lean ====
section
/-!
DEFINITION. The meanings of the control and status commands (47_control.md R300–R303). An operand above INT_MAX is
InvalidCommand at acceptance, with no other change (R97, R329).
-/

namespace Sys2Proof.Machine

/-- `SET_MAX_TABLE_SIZE` (R300): `CFG_MAX_TABLE_SIZE <- n; SetMax(n)`. -/
def execSetMaxTableSize (n : Nat) (s : State) : Out :=
  if inRange31 n then
    s.withTable (s.dt.setMax n) fun s => { s with cfgMaxTableSize := BitVec.ofNat 31 n }.respond .none
  else .next (s.raise .invalidCommand)

/-- `SET_MAX_LIST_SIZE` (R301): `LIST_CAP_EN <- 1; LIST_CAP <- n`. -/
def execSetMaxListSize (n : Nat) (s : State) : Out :=
  if inRange31 n then .next ({ s with listCapEn := true, listCap := BitVec.ofNat 31 n }.respond .none)
  else .next (s.raise .invalidCommand)

/-- `READ_STATUS` (R302): the one command that does not write LAST_ERR (R96, decision D26). -/
def execReadStatus (s : State) : Out := .next (s.finish (.ok (.status s.lastErr s.errSticky)))

/-- Every mutable element of R21 at its reset value (R350). DESIGN CHOICE (notes/assumptions/9.md): the host's side of
the command port and the parameters of R5, which are no elements of R21, stay. -/
def State.resetElements (s : State) : State :=
  { s with
    cfgMaxTableSize := BitVec.ofNat 31 Config.resetMaxSize
    listCapEn := false
    listCap := 0
    lastErr := 0
    errSticky := false
    busy := false
    dt := DynTable.reset s.ringInitCap
    scratch := Scratch.empty }

/-- `RESET` (R303): the reset of R350, and a response of OK. -/
def execReset (s : State) : Out := .next (s.resetElements.respond .none)

end Sys2Proof.Machine
end

