-- ==== Sys2Proof/Machine/DynamicTable.lean ====
section
/-!
DEFINITION. The meanings of the dynamic table's commands (45_dynamic_table.md R241–R249). An operand above INT_MAX is
InvalidCommand at acceptance (R97, R329).
-/

namespace Sys2Proof.Machine

/-- `DT_GET` (R245): the entry at a combined index. -/
def execDtGet (i : Nat) (s : State) : Out :=
  if inRange31 i then
    match s.dt.get i with
    | .ok (name, value) => .next (s.respond (.entry name value))
    | .error e => .next (s.raise e)
  else .next (s.raise .invalidCommand)

/-- `DT_ADD` (R241): Insert(name, value); an oversized entry is no error, it clears the table. -/
def execDtAdd (name value : OctetString) (s : State) : Out :=
  s.withTable (s.dt.insert name value) fun s => s.respond .none

/-- `DT_SET_MAX` (R243): SetMax(n), not clamped by CFG_MAX_TABLE_SIZE (decision D27). -/
def execDtSetMax (n : Nat) (s : State) : Out :=
  if inRange31 n then s.withTable (s.dt.setMax n) fun s => s.respond .none
  else .next (s.raise .invalidCommand)

/-- `DT_FIND_NAME` (R247): the current index, sequence number and value of every held entry with exactly that name,
newest first. -/
def execDtFindName (name : OctetString) (s : State) : Out :=
  match s.dt.matches name with
  | some ms => .next (s.respond (.dynMatches ms))
  | none => .fault .nameIndexInvariantBroken

/-- `DT_INDEX_OF` (R248): the position of the entry with that sequence number, or −1. -/
def execDtIndexOf (seq : Nat) (s : State) : Out := .next (s.respond (.position (s.dt.indexOf seq)))

/-- `DT_READ_SIZE` (R249): `(DT_CUR_SIZE, DT_MAX_SIZE, DT_LENGTH)`. -/
def execDtReadSize (s : State) : Out :=
  .next (s.respond (.sizes s.dt.curSize s.dt.maxSize.toNat s.dt.entries.length))

end Sys2Proof.Machine
end

