-- ==== Sys2Proof/Machine/Field.lean ====
section
/-!
DEFINITION. The meanings of the five header-field representations (46_field_decoder.md R282–R288). Each runs where
DECODE_BLOCK's cursor stands on its first octet, whose free bits are its argument; it reads the octets after that one
from the input operand, and leaves the cursor after the last octet it consumed. DESIGN CHOICE (notes/assumptions/14.md):
outside DECODE_BLOCK, where no step runs one, a meaning reads the scratch state as it stands.
-/

namespace Sys2Proof.Machine

/-- How a literal field is represented (R284). -/
inductive LiteralKind where
  | inc
  | never
  | noidx
deriving DecidableEq, Repr

/-- FieldLiteral(N, kind) after the first octet (R284): decode the operands, insert only then and only for `inc` (R289),
and emit the triple, which is sensitive exactly for `never` (R286). -/
def fieldLiteral (n low : Nat) (kind : LiteralKind) (s : State) : Out :=
  match literalOperands s.hufStrictEnd s.dt n low s.scratch.input (s.scratch.pos + 1) with
  | .error e => .next (s.raise e)
  | .ok (name, value, pos) =>
    let h : Header := { name := name, value := value, sensitive := decide (kind = .never) }
    match kind with
    | .inc => s.withTable (s.dt.insert name value) fun s => s.emit pos h
    | .never => .next (s.emit pos h)
    | .noidx => .next (s.emit pos h)

/-- `IDX` (R282): resolve the combined index and emit that entry, never sensitive. -/
def execIdx (i : BitVec 7) (s : State) : Out :=
  match intRest 7 i.toNat s.scratch.input (s.scratch.pos + 1) with
  | .error e => .next (s.raise e)
  | .ok (index, pos) =>
    match s.dt.get index with
    | .error e => .next (s.raise e)
    | .ok (name, value) => .next (s.emit pos { name := name, value := value, sensitive := false })

/-- `LIT_INC` (R285): FieldLiteral(6, INC). -/
def execLitInc (n : BitVec 6) (s : State) : Out := fieldLiteral 6 n.toNat .inc s

/-- `SIZE_UPD` (R287): SetMax of the decoded value clamped to CFG_MAX_TABLE_SIZE; no header is emitted. -/
def execSizeUpd (n : BitVec 5) (s : State) : Out :=
  match intRest 5 n.toNat s.scratch.input (s.scratch.pos + 1) with
  | .error e => .next (s.raise e)
  | .ok (cap, pos) => s.withTable (s.dt.setMax (min cap s.cfgMaxTableSize.toNat)) fun s => s.advance pos

/-- `LIT_NEVER` (R286): FieldLiteral(4, NEVER). -/
def execLitNever (n : BitVec 4) (s : State) : Out := fieldLiteral 4 n.toNat .never s

/-- `LIT_NOIDX` (R288): FieldLiteral(4, NOIDX). -/
def execLitNoidx (n : BitVec 4) (s : State) : Out := fieldLiteral 4 n.toNat .noidx s

end Sys2Proof.Machine
end

