-- ==== Sys2Proof/Machine/HuffmanCommands.lean ====
section
/-!
DEFINITION. The meanings of the Huffman unit's commands (42_huffman.md R167, R171).
-/

namespace Sys2Proof.Machine

/-- `HUF_DECODE` (R167): the operand as one whole Huffman string with no length header. -/
def execHufDecode (inp : OctetString) (s : State) : Out :=
  match hufDecode s.hufStrictEnd inp with
  | .error e => .next (s.raise e)
  | .ok octets => .next (s.respond (.octets octets))

/-- `HUF_ENCODE` (R171). -/
def execHufEncode (inp : OctetString) (s : State) : Out := .next (s.respond (.octets (hufEncode inp)))

end Sys2Proof.Machine
end

