-- ==== Sys2Proof/Machine/Integer.lean ====
section
/-!
DEFINITION. The meanings of the integer unit's commands (41_integer.md R127, R131). An operand outside its range is
InvalidCommand at acceptance (R97, R329).
-/

namespace Sys2Proof.Machine

/-- `INT_DECODE` (R127): the value and how many octets it took; octets after it are ignored. -/
def execIntDecode (n : Nat) (inp : OctetString) (s : State) : Out :=
  if inRangeWidth n then
    match intDecode n inp 0 with
    | .error e => .next (s.raise e)
    | .ok (v, pos) => .next (s.respond (.int v pos))
  else .next (s.raise .invalidCommand)

/-- `INT_ENCODE` (R131): the minimal encoding, with the flag octet ORed in as given (R130). -/
def execIntEncode (n flags v : Nat) (s : State) : Out :=
  if inRangeWidth n && inRangeOctet flags && inRange31 v then .next (s.respond (.octets (intEncode n flags v)))
  else .next (s.raise .invalidCommand)

end Sys2Proof.Machine
end

