-- ==== Sys2Proof/Machine/StaticTable.lean ====
section
/-!
DEFINITION. The meanings of the static table's commands (44_static_table.md R213, R214). An index above INT_MAX is
InvalidCommand at acceptance (R97, R329).
-/

namespace Sys2Proof.Machine

/-- `ST_GET` (R213): the entry at a static index 1..61; dynamic entries are not reached from here. -/
def execStGet (i : Nat) (s : State) : Out :=
  if inRange31 i then
    match stEntry i with
    | some (name, value) => .next (s.respond (.entry name value))
    | none => .next (s.raise .invalidTableIndex)
  else .next (s.raise .invalidCommand)

/-- `ST_FIND_NAME` (R214): every static entry with exactly that name, in increasing index order. -/
def execStFindName (name : OctetString) (s : State) : Out := .next (s.respond (.staticMatches (stFind name)))

end Sys2Proof.Machine
end

