-- ==== Sys2Proof/Machine/StringLiteral.lean ====
section
/-!
DEFINITION. The meanings of the two string-literal rows and of the command that decodes one (43_string.md R190, R196).
STR_DECODE latches its operand; the string literal at the cursor is then the instruction the next step runs, and its end
is the command's end. Inside a literal field the same reader (strDecode, Machine/Operands.lean) is part of the field.
-/

namespace Sys2Proof.Machine

/-- The string literal STR_DECODE stands on (R190, R196): its octets and the cursor after it are the command's result. -/
def stringLiteral (h : Bool) (l : BitVec 7) (s : State) : Out :=
  match strRest s.hufStrictEnd h l.toNat s.scratch.input (s.scratch.pos + 1) with
  | .error e => .next (s.raise e)
  | .ok (octets, pos) => .next (s.respond (.string octets pos))

/-- `STR_RAW` (R190, H = 0): the octets as they stand. -/
def execStrRaw (l : BitVec 7) (s : State) : Out := stringLiteral false l s

/-- `STR_HUF` (R190, R191, H = 1): the octets decoded as one Huffman string. -/
def execStrHuf (l : BitVec 7) (s : State) : Out := stringLiteral true l s

/-- `STR_DECODE` (R196): `pos <- 0` on the operand, whose string literal runs next. -/
def execStrDecode (inp : OctetString) (s : State) : Out := .next (s.start .string inp)

end Sys2Proof.Machine
end

