-- ==== Sys2Proof/Machine/Dispatch.lean ====
section
/-!
DEFINITION. exec: one arm per instruction of spec/opcode_table.json, in the table's order, each one direct call of the
instruction's meaning.
-/

namespace Sys2Proof.Machine

def exec (i : Instr) (s : State) : Host.Outcome State Fault Refusal :=
  match i with
  | .idx p => Sys2Proof.Machine.execIdx p s
  | .litInc n => Sys2Proof.Machine.execLitInc n s
  | .sizeUpd n => Sys2Proof.Machine.execSizeUpd n s
  | .litNever n => Sys2Proof.Machine.execLitNever n s
  | .litNoidx n => Sys2Proof.Machine.execLitNoidx n s
  | .strRaw l => Sys2Proof.Machine.execStrRaw l s
  | .strHuf l => Sys2Proof.Machine.execStrHuf l s
  | .decodeBlock inp => Sys2Proof.Machine.execDecodeBlock inp s
  | .setMaxTableSize n => Sys2Proof.Machine.execSetMaxTableSize n s
  | .setMaxListSize n => Sys2Proof.Machine.execSetMaxListSize n s
  | .readStatus => Sys2Proof.Machine.execReadStatus s
  | .reset => Sys2Proof.Machine.execReset s
  | .intDecode n inp => Sys2Proof.Machine.execIntDecode n inp s
  | .intEncode n flags v => Sys2Proof.Machine.execIntEncode n flags v s
  | .hufDecode inp => Sys2Proof.Machine.execHufDecode inp s
  | .hufEncode inp => Sys2Proof.Machine.execHufEncode inp s
  | .strDecode inp => Sys2Proof.Machine.execStrDecode inp s
  | .stGet k => Sys2Proof.Machine.execStGet k s
  | .stFindName name => Sys2Proof.Machine.execStFindName name s
  | .dtGet k => Sys2Proof.Machine.execDtGet k s
  | .dtAdd name value => Sys2Proof.Machine.execDtAdd name value s
  | .dtSetMax n => Sys2Proof.Machine.execDtSetMax n s
  | .dtFindName name => Sys2Proof.Machine.execDtFindName name s
  | .dtIndexOf seq => Sys2Proof.Machine.execDtIndexOf seq s
  | .dtReadSize => Sys2Proof.Machine.execDtReadSize s

end Sys2Proof.Machine
end

