-- ==== Sys2Proof/Machine/Fetch.lean ====
section
/-!
DEFINITION. What the block does next (10_state.md R22, R23; 46_field_decoder.md R280, R281; 70_reset_and_hazards.md R360):
wait for an offer, accept one, run the representation or the string literal at the cursor of the command in progress, or
end that command because its input operand has ended.
-/

namespace Sys2Proof.Machine

/-- The octet at the cursor, `In[pos]` (R60). -/
def State.octetAtCursor (s : State) : Option Octet := s.scratch.input[s.scratch.pos]?

/-- The code the block fetches next with the state that runs it; none where it fetches nothing. While BUSY = 1 it is the
octet at the cursor of the command in progress, and no offer is accepted (R23); else it is the host's first offer, which
is accepted. -/
def State.fetch (s : State) : Option (Code × State) :=
  if s.busy then
    match s.scratch.activity, s.octetAtCursor with
    | .block, some b => some (.field b, s)
    | .string, some b => some (.string b, s)
    | _, _ => none
  else
    match s.offers with
    | o :: rest => some (.command o, s.accept rest)
    | [] => none

/-- The step that fetches nothing. A block whose operand has ended gives its response (R291), a string whose first octet
is missing raises UnexpectedEndOfStream (R190); with no command in progress and none accepted the block waits (R350).
DESIGN CHOICE (notes/assumptions/12.md): it waits too where BUSY = 1 with no command in progress, which no run
reaches. -/
def State.unfetched (s : State) : State :=
  if s.busy then
    match s.scratch.activity with
    | .block => s.endBlock
    | .string => s.raise .unexpectedEndOfStream
    | .idle => s
  else s

/-- The step of an offer that decodes to no command (R97, R329): it changes only LAST_ERR and ERR_STICKY. -/
def State.rejectOffer (s : State) : State := s.raise .invalidCommand

end Sys2Proof.Machine
end

