-- ==== Sys2Proof/Machine/Step.lean ====
section
/-!
DEFINITION. One step of the block: what State.fetch (Machine/Fetch.lean) gives is decoded and executed; an offer that
decodes to no command is rejected (R97); a step that fetches nothing is State.unfetched. And where a word of
spec/opcode_table.json has to stand for the next step to fetch it.
-/

namespace Sys2Proof.Machine

/-- One step. -/
def step (s : State) : Host.Outcome State Fault Refusal :=
  match s.fetch with
  | none => .next s.unfetched
  | some (c, s) =>
    match decode c with
    | .ok i => exec i s
    | .error _ => .next s.rejectOffer

/-- `s` with a table word where the next step fetches (notes/assumptions/5.md): a command word is offered first, with
operands of zero, to a block that is not busy; every other word stands at the cursor of a header block in progress,
followed by zero octets. -/
def State.withFetchWord (s : State) (nbits w : Nat) : State :=
  match tableCode (w % 2 ^ nbits) with
  | .command o => { s with busy := false, scratch := Scratch.empty, offers := o :: s.offers }
  | .field _ | .string _ => { s with busy := true }.start .block (tableOctets nbits (w % 2 ^ nbits))

end Sys2Proof.Machine
end

