-- ==== Sys2Proof/Machine/Assembler.lean ====
section
/-!
DEFINITION. The encoder of whole representations: the octets of a line of the spec's notation (30_encoding.md R98, R99),
built with IntEncode (R130) and HufEncode (R170) in the layouts of R83, R84 and R85.
-/

namespace Sys2Proof.Machine

/-- `Str` (R85): the length as an Int_7 with the Huffman flag in bit 7, then that many content octets. -/
def strEncode : Str → OctetString
  | .raw text => intEncode 7 0x00 text.length ++ text
  | .huf text => intEncode 7 0x80 (hufEncode text).length ++ hufEncode text

/-- A name reference under the pattern `pat` with an `n`-bit first octet part (R83): the name index, or 0 and a string. -/
def nameEncode (n pat : Nat) : NameRef → OctetString
  | .idx i => intEncode n pat i
  | .lit s => intEncode n pat 0 ++ strEncode s

/-- One line of R98: exactly one representation. -/
def lineEncode : Line → OctetString
  | .idx i => intEncode 7 0x80 i
  | .litInc name value => nameEncode 6 0x40 name ++ strEncode value
  | .litNoidx name value => nameEncode 4 0x00 name ++ strEncode value
  | .litNever name value => nameEncode 4 0x10 name ++ strEncode value
  | .sizeUpd n => intEncode 5 0x20 n

/-- A block written as lines (R98): the concatenation of the lines' octets. -/
def assemble (lines : List Line) : OctetString := lines.flatMap lineEncode

end Sys2Proof.Machine
end

