-- ==== Sys2Proof/Safety.lean ====
section
/-!
DEFINITION. What claims about the block are stated in: the invariants of the spec (10_state.md R31, R33, R43; 45_dynamic_table.md R252)
and of this model's scratch and status fields; what a step was (which instruction it ran, whether it was RESET); states
that agree but for the ring (R43); DECODE_BLOCK as the one loop R280 writes, independent of the steps of the machine;
and what the lines of R98 mean (R293).
-/

namespace Sys2Proof

/-! ### Kinds of instructions -/

/-- The five header-field representations (R81). -/
def Instr.isField : Instr → Bool
  | .idx _ | .litInc _ | .sizeUpd _ | .litNever _ | .litNoidx _ => true
  | _ => false

/-- The instructions that end their command and write nothing but the status and the response (R127, R131, R167, R171,
R196, R213, R214, R245, R247, R248, R249, R302). -/
def Instr.isQuery : Instr → Bool
  | .strRaw _ | .strHuf _ | .readStatus | .intDecode _ _ | .intEncode _ _ _ | .hufDecode _ | .hufEncode _ | .stGet _
  | .stFindName _ | .dtGet _ | .dtFindName _ | .dtIndexOf _ | .dtReadSize => true
  | _ => false

/-- The instructions that may change the dynamic table (R363). -/
def Instr.writesTable : Instr → Bool
  | .litInc _ | .sizeUpd _ | .setMaxTableSize _ | .reset | .dtAdd _ _ | .dtSetMax _ => true
  | _ => false

/-- The instructions that may change CFG_MAX_TABLE_SIZE (R24). -/
def Instr.writesConfig : Instr → Bool
  | .setMaxTableSize _ | .reset => true
  | _ => false

/-- The instructions that may change LIST_CAP_EN or LIST_CAP (R25). -/
def Instr.writesListCap : Instr → Bool
  | .setMaxListSize _ | .reset => true
  | _ => false

end Sys2Proof

namespace Sys2Proof.Machine

/-! ### Invariants -/

/-- The ring holds exactly these entries (R41, R43): `ring_get(i)` is entry i, newest first. -/
structure Ring.Holds (r : Ring) (es : List DynEntry) : Prop where
  slots_length : r.slots.length = r.cap
  head_lt : r.head < r.cap
  tail_lt : r.tail < r.cap
  length_eq : r.length = es.length
  get_eq : ∀ i, i < es.length → r.get i = es[i]?

/-- The invariants of the dynamic table that hold at every moment, also inside Insert (R31 without (I2), R33, R43). -/
structure DynTable.Coherent (t : DynTable) : Prop where
  /-- (I1) -/
  size_eq : t.curSize = (t.entries.map DynEntry.size).sum
  /-- (I3) -/
  seq_consecutive : ∀ i e e', t.entries[i]? = some e → t.entries[i + 1]? = some e' → e.seq = e'.seq + 1
  /-- (I4) -/
  seq_lt : ∀ e ∈ t.entries, e.seq < t.seqNext
  /-- DEDUCED (notes/assumptions/8.md): the newest entry took the number before DT_SEQ_NEXT (R233), without which an
  insertion would not keep (I3) -/
  seq_newest : ∀ e, t.entries.head? = some e → t.seqNext = e.seq + 1
  /-- R33: a name's list is the sequence numbers of the entries with that name, newest first. -/
  name_find : ∀ name, t.nameIdx.find name = (t.entries.filter fun e => e.name == name).map fun e => e.seq
  /-- R33: a name with no entry has no key. -/
  name_keys : ∀ k ∈ t.nameIdx, k.2 ≠ []
  /-- R33: it is a map. -/
  name_nodup : (t.nameIdx.map fun k => k.1).Nodup
  /-- R43 -/
  ring_holds : t.ring.Holds t.entries

/-- R31 with (I2), R33 and R43: what holds after every command. -/
structure DynTable.Inv (t : DynTable) : Prop extends t.Coherent where
  /-- (I2) -/
  size_le : t.curSize ≤ t.maxSize.toNat

/-- The invariant of the whole block. -/
structure State.Inv (s : State) : Prop where
  table : s.dt.Inv
  /-- RING_INIT_CAP ≥ 1 (R5) -/
  init_cap : 0 < s.ringInitCap
  /-- LAST_ERR holds 0..6 or 8 (R321, R328) -/
  last_err : s.lastErr.toNat ≤ 8 ∧ s.lastErr ≠ 7
  /-- an error in LAST_ERR is remembered by ERR_STICKY (R26) -/
  sticky : s.lastErr ≠ 0 → s.errSticky = true
  /-- nothing is kept between commands (R22, R36) -/
  idle_empty : s.busy = false → s.scratch = Scratch.empty
  /-- BUSY = 1 between steps only while a command walks its operand (R23) -/
  busy_active : s.busy = true → s.scratch.activity ≠ .idle
  /-- the cursor is bounded by len(In) (R22) -/
  cursor_le : s.scratch.pos ≤ s.scratch.input.length
  /-- under a list cap, `total` is the size of the triples emitted so far (R283) -/
  total_eq : s.listCapEn = true → s.scratch.total = (s.scratch.out.map Header.size).sum
  /-- and it has not reached the cap (R283) -/
  total_lt : s.listCapEn = true → s.scratch.out ≠ [] → s.scratch.total < s.listCap.toNat

/-! ### Steps -/

/-- The instruction the next step runs, if it runs one. -/
def State.nextInstr (s : State) : Option Instr :=
  match s.fetch with
  | none => none
  | some (c, _) =>
    match decode c with
    | .ok i => some i
    | .error _ => none

/-- The state after a field has emitted `h` and moved the cursor to `pos` without reaching the list cap (R280, R283). -/
def State.emitted (s : State) (pos : Nat) (h : Header) : State :=
  { s with scratch := { s.scratch with
      pos := pos, out := s.scratch.out ++ [h],
      total := if s.listCapEn then s.scratch.total + h.size else s.scratch.total } }

/-- The triple keeps the running total below the list cap, where one is configured (R283). -/
def State.belowCap (s : State) (h : Header) : Prop :=
  s.listCapEn = true → s.scratch.total + h.size < s.listCap.toNat

/-- Two states that agree on everything but the ring (R43). -/
def State.SameButRing (s t : State) : Prop :=
  ∃ r, t = { s with dt := { s.dt with ring := r } }

/-- Two outcomes that agree on everything but the ring. -/
def Out.SameButRing : Out → Out → Prop
  | .next s, .next t => s.SameButRing t
  | .fault f, .fault g => f = g
  | .refused p, .refused q => p = q
  | _, _ => False

/-! ### Sizes -/

/-- The running total of a list of triples (R283). -/
def headersSize (hs : List Header) : Nat := (hs.map Header.size).sum

/-- The total size of a list of entries (R31 (I1)). -/
def entriesSize (es : List DynEntry) : Nat := (es.map DynEntry.size).sum

/-- The entries that survive eviction to a cap (R232): drop the oldest while the rest is too large. `fuel` is the
number of entries. -/
def survivors : (fuel : Nat) → (cap : Nat) → List DynEntry → List DynEntry
  | 0, _, es => es
  | fuel + 1, cap, es => if entriesSize es > cap then survivors fuel cap es.dropLast else es

/-! ### DECODE_BLOCK as R280 writes it -/

/-- What R280's loop reads of the state and does not change. -/
structure BlockConfig where
  strictEnd : Bool
  cfgMax : Nat
  cap : Option Nat

/-- The configuration of a state. -/
def State.blockConfig (s : State) : BlockConfig :=
  { strictEnd := s.hufStrictEnd, cfgMax := s.cfgMaxTableSize.toNat,
    cap := if s.listCapEn then some s.listCap.toNat else none }

/-- `DecodeField()` (R281): the triple or none, the cursor after the field and the table; or the error. A fault of the
table stops it. -/
def fieldAt (c : BlockConfig) (t : DynTable) (inp : OctetString) (pos : Nat) :
    Except Fault (Except Err (Option Header × Nat × DynTable)) :=
  let literal (n : Nat) (inc sensitive : Bool) : Except Fault (Except Err (Option Header × Nat × DynTable)) :=
    match intDecode n inp pos with
    | .error e => .ok (.error e)
    | .ok (ni, pos) =>
      match (if ni ≠ 0 then (match t.get ni with | .ok (name, _) => .ok (name, pos) | .error e => .error e)
             else strDecode c.strictEnd inp pos : Except Err (OctetString × Nat)) with
      | .error e => .ok (.error e)
      | .ok (name, pos) =>
        match strDecode c.strictEnd inp pos with
        | .error e => .ok (.error e)
        | .ok (value, pos) =>
          if inc then
            match t.insert name value with
            | .error f => .error f
            | .ok t => .ok (.ok (some ⟨name, value, sensitive⟩, pos, t))
          else .ok (.ok (some ⟨name, value, sensitive⟩, pos, t))
  match inp[pos]? with
  | none => .ok (.error .unexpectedEndOfStream)
  | some b =>
    if b.getLsbD 7 then
      match intDecode 7 inp pos with
      | .error e => .ok (.error e)
      | .ok (i, pos) =>
        match t.get i with
        | .error e => .ok (.error e)
        | .ok (name, value) => .ok (.ok (some ⟨name, value, false⟩, pos, t))
    else if b.getLsbD 6 then literal 6 true false
    else if b.getLsbD 5 then
      match intDecode 5 inp pos with
      | .error e => .ok (.error e)
      | .ok (n, pos) =>
        match t.setMax (min n c.cfgMax) with
        | .error f => .error f
        | .ok t => .ok (.ok (none, pos, t))
    else if b.getLsbD 4 then literal 4 false true
    else literal 4 false false

/-- The loop of R280 from a cursor, a response list and a total on; `fuel` bounds the fields still to come (R291). The
answer is the response and the table the command leaves. -/
def blockLoop (c : BlockConfig) (inp : OctetString) :
    (fuel : Nat) → (t : DynTable) → (pos : Nat) → (out : List Header) → (total : Nat) →
    Except Fault (Response × DynTable)
  | 0, t, _, out, _ => .ok (.ok (.headers out), t)
  | fuel + 1, t, pos, out, total =>
    if pos < inp.length then
      match fieldAt c t inp pos with
      | .error f => .error f
      | .ok (.error e) => .ok (.error e, t)
      | .ok (.ok (none, pos, t)) => blockLoop c inp fuel t pos out total
      | .ok (.ok (some h, pos, t)) =>
        match c.cap with
        | none => blockLoop c inp fuel t pos (out ++ [h]) total
        | some cap =>
          if total + h.size ≥ cap then .ok (.error .headerListSizeExceeded, t)
          else blockLoop c inp fuel t pos (out ++ [h]) (total + h.size)
    else .ok (.ok (.headers out), t)

/-- `DECODE_BLOCK(In)` (R280) on a table: the response and the table it leaves. -/
def decodeBlock (c : BlockConfig) (t : DynTable) (inp : OctetString) : Except Fault (Response × DynTable) :=
  blockLoop c inp (inp.length + 1) t 0 [] 0

/-! ### What the lines of R98 mean (R293) -/

/-- The text a string of R98 stands for. -/
def strText : Str → OctetString
  | .raw text => text
  | .huf text => text

/-- The lengths of a string are within INT_MAX (R190). -/
def strFits : Str → Prop
  | .raw text => text.length ≤ Config.intMax
  | .huf text => (hufEncode text).length ≤ Config.intMax

/-- The name a name reference stands for in a table: the referenced entry's, or the literal one (R284). -/
def nameText (t : DynTable) : NameRef → Option OctetString
  | .idx i =>
    match t.get i with
    | .ok (name, _) => some name
    | .error _ => none
  | .lit s => some (strText s)

/-- The operands of a name reference are within their ranges (R98, R190). -/
def nameFits : NameRef → Prop
  | .idx i => i ≤ Config.intMax
  | .lit s => strFits s

/-- What a line does on a table (R282–R288): the triple it emits, if any, and the table after it; none where a reference
names no entry, or the table faults. -/
def lineMeaning (cfgMax : Nat) (t : DynTable) : Line → Option (Option Header × DynTable)
  | .idx i =>
    match t.get i with
    | .ok (name, value) => some (some ⟨name, value, false⟩, t)
    | .error _ => none
  | .litInc nm value =>
    match nameText t nm with
    | none => none
    | some name =>
      match t.insert name (strText value) with
      | .ok t => some (some ⟨name, strText value, false⟩, t)
      | .error _ => none
  | .litNoidx nm value => (nameText t nm).map fun name => (some ⟨name, strText value, false⟩, t)
  | .litNever nm value => (nameText t nm).map fun name => (some ⟨name, strText value, true⟩, t)
  | .sizeUpd n =>
    match t.setMax (min n cfgMax) with
    | .ok t => some (none, t)
    | .error _ => none

/-- Every operand of a line is within its range. -/
def lineFits : Line → Prop
  | .idx i => i ≤ Config.intMax
  | .litInc nm value => nameFits nm ∧ strFits value
  | .litNoidx nm value => nameFits nm ∧ strFits value
  | .litNever nm value => nameFits nm ∧ strFits value
  | .sizeUpd n => n ≤ Config.intMax

/-- The triples and the table of a sequence of lines (R290: each sees the table the lines before it left). -/
def linesMeaning (cfgMax : Nat) : DynTable → List Line → Option (List Header × DynTable)
  | t, [] => some ([], t)
  | t, l :: ls =>
    match lineMeaning cfgMax t l with
    | none => none
    | some (h, t) =>
      match linesMeaning cfgMax t ls with
      | none => none
      | some (hs, t) => some (h.toList ++ hs, t)

/-! ### Huffman bit strings (R166) -/

/-- The bits of a number, `n` of them, most significant first. -/
def bitsOf (n v : Nat) : List Bool := (List.range n).map fun k => v.testBit (n - 1 - k)

/-- The bits of an octet string in stream order (R62). -/
def octetBits (data : OctetString) : List Bool := data.flatMap fun b => bitsOf 8 b.toNat

/-- The code word of a symbol (R86). -/
def codeBits (symbol : Nat) : List Bool :=
  let c := hufCode.getD symbol ⟨0, 0⟩
  bitsOf c.len c.code

/-- The bit string splits as `w_1 … w_k t` (R166): the code words of the symbols `ws`, EOS among them where it occurs,
then a proper part `t` of some code word, possibly empty. -/
structure HufSplit (bits : List Bool) (ws : List Nat) (t : List Bool) : Prop where
  symbols : ∀ w ∈ ws, w ≤ Config.eosSymbol
  proper : ∃ (symbol : Nat) (u : List Bool), symbol ≤ Config.eosSymbol ∧ u ≠ [] ∧ codeBits symbol = t ++ u
  bits_eq : bits = ws.flatMap codeBits ++ t

end Sys2Proof.Machine
end

