-- ==== Sys2Proof/Certificates/Slice0/Obligations.lean ====
section
/-!
DEFINITION. The statements for the provers, one def per obligation of OBLIGATIONS.json. They are stated in the terms of
Sys2Proof/Safety.lean and of the machine's own operations; each docstring names the rules of spec/ it formalises.
-/

open Sys2Proof Sys2Proof.Machine

/-! ### Steps, decoding and encoding -/

/-- What a step runs (R22, R23, R281, R360): a block that is not busy accepts the host's first offer; a busy one fetches
the octet at the cursor of the command in progress; and the step is exec of the instruction the fetched code decodes to. That
each representation is a step of its own is the model's choice (notes/assumptions/7.md). -/
def Obligations.StepRunsTheDecodedInstruction : Prop :=
  (∀ (s : State) o rest, s.busy = false → s.offers = o :: rest → s.fetch = some (.command o, s.accept rest)) ∧
  (∀ (s : State) b, s.busy = true → s.scratch.activity = .block → s.scratch.input[s.scratch.pos]? = some b →
    s.fetch = some (.field b, s)) ∧
  (∀ (s : State) b, s.busy = true → s.scratch.activity = .string → s.scratch.input[s.scratch.pos]? = some b →
    s.fetch = some (.string b, s)) ∧
  (∀ (s : State) c s' i, s.fetch = some (c, s') → decode c = .ok i → step s = exec i s')

/-- What a step does that runs no instruction (R190, R291, R97, R350): the end of a block gives its response; a string
literal whose first octet is missing raises UnexpectedEndOfStream; an offer that decodes to no command raises
InvalidCommand; with nothing offered the block waits. That these are steps is the model's choice
(notes/assumptions/7.md). R97 and R329 refuse an unknown code and a missing operand; that an operand too many or of the
wrong type decodes to no command and is refused too is the model's choice (notes/assumptions/4.md). R350 has the block wait
for a command; that waiting is a step that answers the same state is the model's choice (notes/assumptions/12.md). -/
def Obligations.StepThatRunsNoInstruction : Prop :=
  (∀ s, s.busy = true → s.scratch.activity = .block → s.scratch.input.length ≤ s.scratch.pos →
    step s = .next (s.respond (.headers s.scratch.out))) ∧
  (∀ s, s.busy = true → s.scratch.activity = .string → s.scratch.input.length ≤ s.scratch.pos →
    step s = .next (s.raise .unexpectedEndOfStream)) ∧
  (∀ s o rest e, s.busy = false → s.offers = o :: rest → decodeCommand o = .error e →
    step s = .next ((s.accept rest).raise .invalidCommand)) ∧
  (∀ s, s.busy = false → s.offers = [] → step s = .next s)

/-- Codes written out from the tables of R81, R85 and R95 decode to the rows they stand for. -/
def Obligations.WrittenOutCodesDecode : Prop :=
  decode (.field 0b10000010) = .ok (.idx 2) ∧
  decode (.field 0b01000001) = .ok (.litInc 1) ∧
  decode (.field 0b00111111) = .ok (.sizeUpd 31) ∧
  decode (.field 0b00011111) = .ok (.litNever 15) ∧
  decode (.field 0b00000100) = .ok (.litNoidx 4) ∧
  decode (.string 0b00000011) = .ok (.strRaw 3) ∧
  decode (.string 0b10001100) = .ok (.strHuf 12) ∧
  decode (.command ⟨0x10, [.num 5, .octets [0x1f, 0x9a, 0x0a]]⟩) = .ok (.intDecode 5 [0x1f, 0x9a, 0x0a]) ∧
  decode (.command ⟨0x54, [.num 3]⟩) = .ok (.dtIndexOf 3) ∧
  decode (.command ⟨0x06, []⟩) = .error (.unknownCommandCode 0x06) ∧
  decode (.command ⟨0x52, []⟩) = .error (.operandsNotOfTheRow 0x52)

/-- Decoding and encoding agree in both directions, with every operand at every value: no bit of a code is dropped and
no two codes mean the same instruction (R81, R82, R85, R95). At the command port the second direction is the model's
choice: it holds only because an offer is a code with typed operands and one with an operand too many or of the wrong type
decodes to no command, which R95 does not say (notes/assumptions/4.md). -/
def Obligations.DecodeAndEncodeAgree : Prop :=
  (∀ i, decode (encode i) = .ok i) ∧ (∀ c i, decode c = .ok i → encode i = c)

/-! ### Integers -/

/-- R132: the round trip of the integer unit, with any octets before and after the encoding. -/
def Obligations.IntDecodeOfIntEncode : Prop :=
  ∀ (n flags v : Nat) (before after : OctetString), 1 ≤ n → n ≤ 8 → flags < 256 → flags &&& (2 ^ n - 1) = 0 →
    v ≤ Config.intMax →
    intDecode n (before ++ intEncode n flags v ++ after) before.length =
      .ok (v, before.length + (intEncode n flags v).length)

/-- R126: exactly which octets IntDecode accepts, with which value, and how many it consumes. -/
def Obligations.IntDecodeAcceptsExactly : Prop :=
  ∀ (n : Nat) (inp : OctetString) (pos v p : Nat), 1 ≤ n → n ≤ 8 →
    (intDecode n inp pos = .ok (v, p) ↔
      ∃ b, inp[pos]? = some b ∧
        ((b.toNat % 2 ^ n < 2 ^ n - 1 ∧ v = b.toNat % 2 ^ n ∧ p = pos + 1) ∨
         (b.toNat % 2 ^ n = 2 ^ n - 1 ∧
          ∃ cs : OctetString, (inp.drop (pos + 1)).take cs.length = cs ∧ 1 ≤ cs.length ∧ cs.length ≤ 5 ∧
            (∀ k, k + 1 < cs.length → (cs.getD k 0).getLsbD 7 = true) ∧
            (cs.getD (cs.length - 1) 0).getLsbD 7 = false ∧
            v = 2 ^ n - 1 + ((List.range cs.length).map fun k => (cs.getD k 0).toNat % 128 * 2 ^ (7 * k)).sum ∧
            v ≤ 2 ^ 31 - 1 ∧ p = pos + 1 + cs.length)))

/-- The errors of IntDecode and their order (R120, R124, R125): the input ends before the first octet or in the middle of
the sequence; a 6th continuation octet would be needed, whether or not there is one; the value exceeds INT_MAX. -/
def Obligations.IntDecodeRaises : Prop :=
  (∀ n inp pos, inp.length ≤ pos → intDecode n inp pos = .error .unexpectedEndOfStream) ∧
  (∀ (n : Nat) (before cs : OctetString) (b : Octet), b.toNat % 2 ^ n = 2 ^ n - 1 → cs.length < 5 →
    (∀ c ∈ cs, c.getLsbD 7 = true) →
    intDecode n (before ++ b :: cs) before.length = .error .unexpectedEndOfStream) ∧
  (∀ (n : Nat) (before cs after : OctetString) (b : Octet), b.toNat % 2 ^ n = 2 ^ n - 1 → cs.length = 5 →
    (∀ c ∈ cs, c.getLsbD 7 = true) →
    intDecode n (before ++ b :: cs ++ after) before.length = .error .integerLimitExceeded) ∧
  (∀ (n : Nat) (before cs after : OctetString) (b c : Octet), b.toNat % 2 ^ n = 2 ^ n - 1 → cs.length ≤ 4 →
    (∀ c ∈ cs, c.getLsbD 7 = true) → c.getLsbD 7 = false →
    2 ^ n - 1 + ((List.range (cs.length + 1)).map fun k =>
      ((cs ++ [c]).getD k 0).toNat % 128 * 2 ^ (7 * k)).sum > Config.intMax →
    intDecode n (before ++ b :: cs ++ c :: after) before.length = .error .integerLimitExceeded)

/-- R122: a first octet part below 2^N − 1 is the value and one octet is consumed; the all-ones one always needs a
continuation octet, even for its own value. -/
def Obligations.OneOctetIntegers : Prop :=
  (∀ (n : Nat) (inp : OctetString) (pos : Nat) (b : Octet), 1 ≤ n → n ≤ 8 → inp[pos]? = some b →
    (b.toNat % 2 ^ n < 2 ^ n - 1 → intDecode n inp pos = .ok (b.toNat % 2 ^ n, pos + 1)) ∧
    (b.toNat % 2 ^ n = 2 ^ n - 1 → ∀ v p, intDecode n inp pos = .ok (v, p) → pos + 2 ≤ p)) ∧
  (∀ n v : Nat, 1 ≤ n → n ≤ 8 → v ≤ 2 ^ n - 2 → (intEncode n 0 v).length = 1) ∧
  intEncode 7 0 127 = [0x7f, 0x00] ∧ intDecode 7 [0x7f, 0x00] 0 = .ok (127, 2)

/-- What IntEncode gives (R130): one octet below 2^N − 1; else the all-ones part and the rest as base-128 groups, least
significant first, every octet but the last with bit 7 set, and no group more than needed. -/
def Obligations.IntEncodeIsMinimal : Prop :=
  ∀ n flags v : Nat, 1 ≤ n → n ≤ 8 → flags < 256 → v ≤ Config.intMax →
    (v < 2 ^ n - 1 → intEncode n flags v = [BitVec.ofNat 8 (flags ||| v)]) ∧
    (2 ^ n - 1 ≤ v → ∃ gs : OctetString, ∃ last : Octet,
      intEncode n flags v = BitVec.ofNat 8 (flags ||| (2 ^ n - 1)) :: (gs ++ [last]) ∧ gs.length ≤ 4 ∧
      (∀ g ∈ gs, g.getLsbD 7 = true) ∧ last.getLsbD 7 = false ∧ (gs ≠ [] → last ≠ 0) ∧
      v - (2 ^ n - 1) =
        ((List.range (gs.length + 1)).map fun k => ((gs ++ [last]).getD k 0).toNat % 128 * 2 ^ (7 * k)).sum)

/-- INT_DECODE and INT_ENCODE complete (R127, R131, R132): the encoder answers its octets, the decoder gives the value
back, from every state, with the octets after the integer not consumed; from every operand that decodes, the non-minimal
forms of R91 and R126 among them, the decoder answers the value and how many octets it took; and where the operand does
not decode, the decoder's command ends with that error. -/
def Obligations.IntegerCommandsComplete : Prop :=
  (∀ n flags v s, 1 ≤ n → n ≤ 8 → flags < 256 → v ≤ Config.intMax →
    exec (.intEncode n flags v) s = .next (s.respond (.octets (intEncode n flags v)))) ∧
  (∀ n flags v after s, 1 ≤ n → n ≤ 8 → flags < 256 → flags &&& (2 ^ n - 1) = 0 → v ≤ Config.intMax →
    exec (.intDecode n (intEncode n flags v ++ after)) s =
      .next (s.respond (.int v (intEncode n flags v).length))) ∧
  (∀ n inp v p s, 1 ≤ n → n ≤ 8 → intDecode n inp 0 = .ok (v, p) →
    exec (.intDecode n inp) s = .next (s.respond (.int v p))) ∧
  (∀ n inp e s, 1 ≤ n → n ≤ 8 → intDecode n inp 0 = .error e → exec (.intDecode n inp) s = .next (s.raise e))

/-! ### Huffman -/

/-- The structure of the code table (R86, R87, R88): 257 codes, prefix-free, complete (the Kraft sum is 1), lengths from
5 to 30, and EOS 30 one-bits. -/
def Obligations.HuffmanCodeIsPrefixFreeAndComplete : Prop :=
  hufCode.length = Config.hufNsym ∧
  (∀ c ∈ hufCode, 5 ≤ c.len ∧ c.len ≤ 30 ∧ c.code < 2 ^ c.len) ∧
  (hufCode.map fun c => 2 ^ (30 - c.len)).sum = 2 ^ 30 ∧
  hufCode.Pairwise (fun c d => c.len ≤ d.len → d.code >>> (d.len - c.len) ≠ c.code) ∧
  hufCode.Pairwise (fun c d => d.len ≤ c.len → c.code >>> (c.len - d.len) ≠ d.code) ∧
  hufCode[256]? = some ⟨2 ^ 30 - 1, 30⟩

/-- HUF_TREE (R150–R154): the build does not fail, and following the 8-bit levels of a symbol's code from ROOT leads, for
every continuation of the code, to the terminal with that symbol and the bits of its last level. -/
def Obligations.HuffmanTreeHoldsEveryCode : Prop :=
  buildTree hufCode = some hufTree ∧
  ∀ symbol c, hufCode[symbol]? = some c → ∀ pad, pad < 2 ^ (8 * ((c.len + 7) / 8) - c.len) →
    ((List.range ((c.len + 7) / 8)).foldl
      (fun node k => node.slot
        (((c.code <<< (8 * ((c.len + 7) / 8) - c.len) ||| pad) >>> (8 * ((c.len + 7) / 8 - 1 - k))) % 256)) hufTree)
      = .terminal symbol (c.len - 8 * ((c.len + 7) / 8 - 1))

/-- R166: every bit string splits as code words (EOS among them) and a proper part `t` of one more, in one way only; and
HufDecode of an octet string with that split raises EosDecodedLiterally where EOS is one of the code words, else
InvalidHuffmanPadding where the last |t| mod 8 bits are not all ones, or under HUF_STRICT_END where |t| is 8 or more,
and else gives the octets of the code words. Under HUF_STRICT_END success means exactly: no EOS, and `t` at most seven
ones. -/
def Obligations.HufDecodeSplitsIntoCodeWords : Prop :=
  (∀ bits : List Bool, ∃ ws t, HufSplit bits ws t) ∧
  (∀ (bits : List Bool) (ws vs : List Nat) (t t' : List Bool), HufSplit bits ws t → HufSplit bits vs t' →
    ws = vs ∧ t = t') ∧
  (∀ (strict : Bool) (data : OctetString) (ws : List Nat) (t : List Bool), HufSplit (octetBits data) ws t →
    hufDecode strict data =
      if Config.eosSymbol ∈ ws then .error .eosDecodedLiterally
      else if (t.drop (8 * (t.length / 8))).any (fun b => !b) then .error .invalidHuffmanPadding
      else if strict && decide (8 ≤ t.length) then .error .invalidHuffmanPadding
      else .ok (ws.map (BitVec.ofNat 8))) ∧
  (∀ data octets : OctetString, hufDecode true data = .ok octets ↔
    ∃ k, k ≤ 7 ∧ HufSplit (octetBits data) (octets.map BitVec.toNat) (List.replicate k true))

/-- R172: the round trip of the Huffman unit, under either value of HUF_STRICT_END. -/
def Obligations.HufDecodeOfHufEncode : Prop :=
  ∀ (strict : Bool) (x : OctetString), hufDecode strict (hufEncode x) = .ok x

/-- HUF_DECODE and HUF_ENCODE complete (R167, R171, R172): HUF_DECODE answers what HufDecode gives for the whole operand
under the machine's HUF_STRICT_END, or ends with the error HufDecode raises; it gives back every encoded text; and its
only errors are EosDecodedLiterally and InvalidHuffmanPadding: running out of input is the normal end. -/
def Obligations.HuffmanCommandsComplete : Prop :=
  (∀ x s, exec (.hufEncode x) s = .next (s.respond (.octets (hufEncode x)))) ∧
  (∀ x s, exec (.hufDecode (hufEncode x)) s = .next (s.respond (.octets x))) ∧
  (∀ inp x s, hufDecode s.hufStrictEnd inp = .ok x → exec (.hufDecode inp) s = .next (s.respond (.octets x))) ∧
  (∀ inp e s, hufDecode s.hufStrictEnd inp = .error e → exec (.hufDecode inp) s = .next (s.raise e)) ∧
  (∀ inp s, (∃ octets, exec (.hufDecode inp) s = .next (s.respond (.octets octets))) ∨
    exec (.hufDecode inp) s = .next (s.raise .eosDecodedLiterally) ∨
    exec (.hufDecode inp) s = .next (s.raise .invalidHuffmanPadding))

/-! ### Strings -/

/-- R193: a plain string of length strLen yields exactly strLen octets, a Huffman string at most ⌊8·strLen / 5⌋. -/
def Obligations.StringResultLength : Prop :=
  ∀ (strict : Bool) (strLen : Nat) (inp : OctetString) (pos : Nat) (octets : OctetString) (p : Nat),
    (strContent strict false strLen inp pos = .ok (octets, p) → octets.length = strLen) ∧
    (strContent strict true strLen inp pos = .ok (octets, p) → octets.length ≤ 8 * strLen / 5)

/-- R192: the length test comes before any content is read, whatever the Huffman flag, and a length above INT_MAX does
not occur. -/
def Obligations.StringLengthTestComesFirst : Prop :=
  ∀ (strict : Bool) (inp : OctetString) (pos strLen p : Nat), intDecode 7 inp pos = .ok (strLen, p) →
    strLen ≤ Config.intMax ∧
    (inp.length - p < strLen → strDecode strict inp pos = .error .unexpectedEndOfStream)

/-- STR_RAW and STR_HUF complete (R85, R190, R191, R196): where the octets at the cursor are the encoding of a string, the
form its first octet selects answers the text and the cursor after it; where the octets after the first one read as a
string in any other way (a length that is not minimal, Huffman padding that is not the encoder's) each answers that string
and cursor; and where they raise (the length integer, content cut short, the Huffman string under the machine's
HUF_STRICT_END) each ends with that error. -/
def Obligations.StringLiteralsComplete : Prop :=
  (∀ (s : State) (l : BitVec 7) (x : OctetString) (p : Nat),
    (strRest s.hufStrictEnd false l.toNat s.scratch.input (s.scratch.pos + 1) = .ok (x, p) →
      exec (.strRaw l) s = .next (s.respond (.string x p))) ∧
    (strRest s.hufStrictEnd true l.toNat s.scratch.input (s.scratch.pos + 1) = .ok (x, p) →
      exec (.strHuf l) s = .next (s.respond (.string x p)))) ∧
  (∀ (s : State) (l : BitVec 7) (e : Err),
    (strRest s.hufStrictEnd false l.toNat s.scratch.input (s.scratch.pos + 1) = .error e →
      exec (.strRaw l) s = .next (s.raise e)) ∧
    (strRest s.hufStrictEnd true l.toNat s.scratch.input (s.scratch.pos + 1) = .error e →
      exec (.strHuf l) s = .next (s.raise e))) ∧
  (∀ (s : State) (before after text : OctetString), s.scratch.pos = before.length →
    (text.length ≤ Config.intMax → s.scratch.input = before ++ strEncode (.raw text) ++ after →
      ∃ l : BitVec 7, s.octetAtCursor = some (0#1 ++ l) ∧
        exec (.strRaw l) s =
          .next (s.respond (.string text (before.length + (strEncode (.raw text)).length)))) ∧
    ((hufEncode text).length ≤ Config.intMax → s.scratch.input = before ++ strEncode (.huf text) ++ after →
      ∃ l : BitVec 7, s.octetAtCursor = some (1#1 ++ l) ∧
        exec (.strHuf l) s =
          .next (s.respond (.string text (before.length + (strEncode (.huf text)).length)))))

/-- STR_DECODE from acceptance to its response (R190, R196): it latches its operand with the cursor at 0 and completes, and
the next step gives the string that StrDecode reads there and how many octets it took, or ends with the error StrDecode
raises; the encoding of a string gives the text, and octets after the string are not consumed. That it takes two steps is
the model's choice (notes/assumptions/7.md). -/
def Obligations.StrDecodeCompletes : Prop :=
  (∀ inp s, exec (.strDecode inp) s =
    .next { s with scratch := { activity := .string, input := inp, pos := 0, out := [], total := 0 } }) ∧
  (∀ (s : State) (rest : List Offer) (str : Str) (after : OctetString), s.busy = false → strFits str →
    s.offers = ⟨0x30, [.octets (strEncode str ++ after)]⟩ :: rest →
    core.run 2 s = .next ((s.accept rest).respond (.string (strText str) (strEncode str).length))) ∧
  (∀ (s : State) (rest : List Offer) (inp : OctetString), s.busy = false → s.offers = ⟨0x30, [.octets inp]⟩ :: rest →
    (∀ x p, strDecode s.hufStrictEnd inp 0 = .ok (x, p) →
      core.run 2 s = .next ((s.accept rest).respond (.string x p))) ∧
    (∀ e, strDecode s.hufStrictEnd inp 0 = .error e → core.run 2 s = .next ((s.accept rest).raise e)))

/-! ### The static table -/

/-- The static table (R210, R211): 61 entries; the first, the sixteenth and the last; the sizes of rows 2, 4, 6 and 8. -/
def Obligations.StaticTableContents : Prop :=
  stEntries.length = Config.staticLen ∧
  stEntry 0 = none ∧ stEntry 62 = none ∧
  stEntry 1 = some (ascii ":authority", []) ∧ stEntry 2 = some (ascii ":method", ascii "GET") ∧
  stEntry 16 = some (ascii "accept-encoding", ascii "gzip, deflate") ∧
  stEntry 61 = some (ascii "www-authenticate", []) ∧
  ([2, 4, 6, 8].map fun i => (stEntry i).map fun e => entrySize e.1 e.2) = [some 42, some 38, some 43, some 42]

/-- ST_GET (R213): the entry at 1..61; InvalidTableIndex at every other index up to INT_MAX, and InvalidCommand above.
ST_FIND_NAME (R212, R214): exactly the entries of that name, in increasing index order. -/
def Obligations.StaticTableCommandsComplete : Prop :=
  (∀ (i : Nat) (s : State),
    (1 ≤ i → i ≤ 61 → ∃ name value, stEntries[i - 1]? = some (name, value) ∧
      exec (.stGet i) s = .next (s.respond (.entry name value))) ∧
    (i = 0 ∨ 61 < i → i ≤ Config.intMax → exec (.stGet i) s = .next (s.raise .invalidTableIndex)) ∧
    (Config.intMax < i → exec (.stGet i) s = .next (s.raise .invalidCommand))) ∧
  (∀ (name : OctetString) (s : State), ∃ ms : List (Nat × OctetString),
    exec (.stFindName name) s = .next (s.respond (.staticMatches ms)) ∧
    (∀ i value, (i, value) ∈ ms ↔ stEntry i = some (name, value)) ∧ (ms.map fun m => m.1).Pairwise (· < ·))

/-! ### The dynamic table -/

/-- DT_GET (R244, R245, R66): 1..61 address the static table, 62 .. 61 + DT_LENGTH the dynamic one, newest first; every
other index is InvalidTableIndex, and an operand above INT_MAX InvalidCommand. -/
def Obligations.DtGetCompletes : Prop :=
  ∀ i (s : State),
    (1 ≤ i → i ≤ 61 → i ≤ Config.intMax → ∃ name value, stEntries[i - 1]? = some (name, value) ∧
      exec (.dtGet i) s = .next (s.respond (.entry name value))) ∧
    (∀ e, 62 ≤ i → i ≤ Config.intMax → s.dt.entries[i - 62]? = some e →
      exec (.dtGet i) s = .next (s.respond (.entry e.name e.value))) ∧
    (i = 0 ∨ 61 + s.dt.entries.length < i → i ≤ Config.intMax →
      exec (.dtGet i) s = .next (s.raise .invalidTableIndex)) ∧
    (Config.intMax < i → exec (.dtGet i) s = .next (s.raise .invalidCommand))

/-- DT_ADD (R233, R241): where the entry fits, it completes with the new entry first, numbered DT_SEQ_NEXT, before the
newest of the old entries that fit beside it, and DT_SEQ_NEXT one higher. -/
def Obligations.DtAddInserts : Prop :=
  ∀ (s : State) (name value : OctetString), s.dt.Inv → entrySize name value ≤ s.dt.maxSize.toNat →
    ∃ t' : DynTable, exec (.dtAdd name value) s = .next ({ s with dt := t' }.respond .none) ∧ t'.Inv ∧
      t'.entries = survivors (s.dt.entries.length + 1) s.dt.maxSize.toNat (⟨name, value, s.dt.seqNext⟩ :: s.dt.entries) ∧
      t'.entries.head? = some ⟨name, value, s.dt.seqNext⟩ ∧
      t'.seqNext = s.dt.seqNext + 1 ∧ t'.maxSize = s.dt.maxSize

/-- R242: an entry larger than DT_MAX_SIZE leaves the table empty, and DT_MAX_SIZE and DT_SEQ_NEXT as they were. -/
def Obligations.OversizedEntryClearsTheTable : Prop :=
  ∀ (s : State) (name value : OctetString), s.dt.Inv → entrySize name value > s.dt.maxSize.toNat →
    ∃ t' : DynTable, s.dt.insert name value = .ok t' ∧
      exec (.dtAdd name value) s = .next ({ s with dt := t' }.respond .none) ∧
      t'.entries = [] ∧ t'.curSize = 0 ∧ t'.nameIdx = [] ∧ t'.maxSize = s.dt.maxSize ∧ t'.seqNext = s.dt.seqNext

/-- SetMax (R232, R234): the eviction order is oldest first and no more is evicted than needed. What is left is the
newest entries, they fit, and one more would not. -/
def Obligations.EvictionKeepsTheNewestThatFit : Prop :=
  ∀ (t : DynTable) (n : Nat), t.Inv → n ≤ Config.intMax →
    ∃ t' k, t.setMax n = .ok t' ∧ k ≤ t.entries.length ∧ t'.entries = t.entries.take k ∧ entriesSize t'.entries ≤ n ∧
      (k < t.entries.length → entriesSize (t.entries.take (k + 1)) > n) ∧
      t'.maxSize.toNat = n ∧ t'.seqNext = t.seqNext ∧ t'.curSize = entriesSize t'.entries

/-- DT_SET_MAX and SET_MAX_TABLE_SIZE complete (R234, R243, R300): both set the cap at once, the second also
CFG_MAX_TABLE_SIZE; an operand above INT_MAX is InvalidCommand. -/
def Obligations.CapCommandsComplete : Prop :=
  ∀ (s : State) (n : Nat), s.dt.Inv →
    (n ≤ Config.intMax → ∃ t' : DynTable, s.dt.setMax n = .ok t' ∧
      exec (.dtSetMax n) s = .next ({ s with dt := t' }.respond .none) ∧
      exec (.setMaxTableSize n) s =
        .next ({ s with dt := t', cfgMaxTableSize := BitVec.ofNat 31 n }.respond .none)) ∧
    (Config.intMax < n → exec (.dtSetMax n) s = .next (s.raise .invalidCommand) ∧
      exec (.setMaxTableSize n) s = .next (s.raise .invalidCommand))

/-- DT_INDEX_OF (R248): a held entry's number gives its position, 0 for the newest, every other number −1. -/
def Obligations.DtIndexOfCompletes : Prop :=
  ∀ (s : State) (seq : Nat), s.dt.Inv →
    (∀ (k : Nat) (e : DynEntry), s.dt.entries[k]? = some e → e.seq = seq →
      exec (.dtIndexOf seq) s = .next (s.respond (.position k))) ∧
    ((∀ e ∈ s.dt.entries, e.seq ≠ seq) → exec (.dtIndexOf seq) s = .next (s.respond (.position (-1))))

/-- DT_FIND_NAME (R247): it completes with the held entries of that name, newest first, each with its combined index,
number and value. -/
def Obligations.DtFindNameCompletes : Prop :=
  ∀ (s : State) (name : OctetString), s.dt.Inv →
    exec (.dtFindName name) s = .next (s.respond (.dynMatches
      ((s.dt.entries.zipIdx.filter fun p => p.1.name == name).map fun p =>
        ((62 : Int) + (p.2 : Int), p.1.seq, p.1.value))))

/-- DT_READ_SIZE (R249) completes with `(DT_CUR_SIZE, DT_MAX_SIZE, DT_LENGTH)`, which on a table with the invariants is
the sum of the sizes, the cap it stays within, and the number of entries. -/
def Obligations.DtReadSizeCompletes : Prop :=
  ∀ s : State, exec .dtReadSize s =
      .next (s.respond (.sizes s.dt.curSize s.dt.maxSize.toNat s.dt.entries.length)) ∧
    (s.dt.Inv → s.dt.curSize = entriesSize s.dt.entries ∧ s.dt.curSize ≤ s.dt.maxSize.toNat)

/-- R32: the entries hold consecutive numbers, so the length is the difference of the newest and the oldest plus 1. -/
def Obligations.LengthFromSequenceNumbers : Prop :=
  ∀ (t : DynTable) (newest oldest : DynEntry), t.Inv → t.entries.head? = some newest → t.entries.getLast? = some oldest →
    oldest.seq ≤ newest.seq ∧ t.entries.length = newest.seq - oldest.seq + 1 ∧
    ∀ (k : Nat) (e : DynEntry), t.entries[k]? = some e → e.seq = newest.seq - k

/-- Sequence numbers are free-running (R250): no step but RESET lowers DT_SEQ_NEXT, and none raises it by more than 1. -/
def Obligations.SequenceNumbersAreFreeRunning : Prop :=
  ∀ s t : State, step s = .next t → s.nextInstr ≠ some .reset →
    s.dt.seqNext ≤ t.dt.seqNext ∧ t.dt.seqNext ≤ s.dt.seqNext + 1

/-- A number that was issued and whose entry is gone resolves to −1 after every step but RESET (R250). -/
def Obligations.StaleHandleStaysNotFound : Prop :=
  ∀ (s t : State) (seq : Nat), s.Inv → seq < s.dt.seqNext → s.dt.indexOf seq = -1 → step s = .next t →
    s.nextInstr ≠ some .reset → t.dt.indexOf seq = -1 ∧ seq < t.dt.seqNext

/-! ### Representations -/

/-- IDX (R282): where its index decodes and is in the combined table, and the triple stays below a list cap, it
completes: the triple is emitted, never sensitive, and the table is as it was. -/
def Obligations.IdxCompletes : Prop :=
  ∀ (i : BitVec 7) (s : State) (index p : Nat) (name value : OctetString),
    intRest 7 i.toNat s.scratch.input (s.scratch.pos + 1) = .ok (index, p) → s.dt.get index = .ok (name, value) →
    s.belowCap ⟨name, value, false⟩ → exec (.idx i) s = .next (s.emitted p ⟨name, value, false⟩)

/-- The three literals (R284–R286, R288): where the operands decode and the triple stays below a list cap, each
completes: LIT_INC inserts the entry, the other two leave the table, and only LIT_NEVER's triple is sensitive. -/
def Obligations.LiteralsComplete : Prop :=
  ∀ (s : State) (name value : OctetString) (p : Nat),
    (∀ n : BitVec 6, s.dt.Inv →
      literalOperands s.hufStrictEnd s.dt 6 n.toNat s.scratch.input (s.scratch.pos + 1) = .ok (name, value, p) →
      s.belowCap ⟨name, value, false⟩ →
      ∃ t' : DynTable, s.dt.insert name value = .ok t' ∧
        exec (.litInc n) s = .next ({ s with dt := t' }.emitted p ⟨name, value, false⟩)) ∧
    (∀ n : BitVec 4,
      literalOperands s.hufStrictEnd s.dt 4 n.toNat s.scratch.input (s.scratch.pos + 1) = .ok (name, value, p) →
      (s.belowCap ⟨name, value, true⟩ →
        exec (.litNever n) s = .next (s.emitted p ⟨name, value, true⟩)) ∧
      (s.belowCap ⟨name, value, false⟩ →
        exec (.litNoidx n) s = .next (s.emitted p ⟨name, value, false⟩)))

/-- SIZE_UPD (R287): where its value decodes it completes: SetMax of the value clamped to CFG_MAX_TABLE_SIZE, no triple,
and nothing added to the header-list size. -/
def Obligations.SizeUpdCompletes : Prop :=
  ∀ (n : BitVec 5) (s : State) (cap p : Nat), s.dt.Inv →
    intRest 5 n.toNat s.scratch.input (s.scratch.pos + 1) = .ok (cap, p) →
    ∃ t' : DynTable, s.dt.setMax (min cap s.cfgMaxTableSize.toNat) = .ok t' ∧
      t'.maxSize.toNat = min cap s.cfgMaxTableSize.toNat ∧
      exec (.sizeUpd n) s = .next { s with dt := t', scratch := { s.scratch with pos := p } }

/-- Where a representation raises, in the order of its steps (R282, R284, R326, R331): its integer, then an index outside
the combined table, then its strings. A name error comes before anything of the value is read. -/
def Obligations.RepresentationsRaise : Prop :=
  ∀ (s : State) (e : Err),
    (∀ i : BitVec 7, intRest 7 i.toNat s.scratch.input (s.scratch.pos + 1) = .error e →
      exec (.idx i) s = .next (s.raise e)) ∧
    (∀ (i : BitVec 7) (index p : Nat), intRest 7 i.toNat s.scratch.input (s.scratch.pos + 1) = .ok (index, p) →
      (index = 0 ∨ 61 + s.dt.entries.length < index) → exec (.idx i) s = .next (s.raise .invalidTableIndex)) ∧
    (∀ n : BitVec 5, intRest 5 n.toNat s.scratch.input (s.scratch.pos + 1) = .error e →
      exec (.sizeUpd n) s = .next (s.raise e)) ∧
    (∀ n : BitVec 6,
      literalOperands s.hufStrictEnd s.dt 6 n.toNat s.scratch.input (s.scratch.pos + 1) = .error e →
      exec (.litInc n) s = .next (s.raise e)) ∧
    (∀ n : BitVec 4,
      literalOperands s.hufStrictEnd s.dt 4 n.toNat s.scratch.input (s.scratch.pos + 1) = .error e →
      exec (.litNever n) s = .next (s.raise e) ∧ exec (.litNoidx n) s = .next (s.raise e)) ∧
    (∀ (n low ni p : Nat), intRest n low s.scratch.input (s.scratch.pos + 1) = .ok (ni, p) →
      61 + s.dt.entries.length < ni →
      literalOperands s.hufStrictEnd s.dt n low s.scratch.input (s.scratch.pos + 1) = .error .invalidTableIndex)

/-- R283: where a list cap is configured and the triple's size brings the running total to the cap or above, the command
ends with HeaderListSizeExceeded and the triple is not emitted; an insertion of LIT_INC stands. -/
def Obligations.ListCapReached : Prop :=
  ∀ (s : State) (name value : OctetString) (p : Nat), s.listCapEn = true →
    s.listCap.toNat ≤ s.scratch.total + entrySize name value →
    (∀ (i : BitVec 7) (index : Nat), intRest 7 i.toNat s.scratch.input (s.scratch.pos + 1) = .ok (index, p) →
      s.dt.get index = .ok (name, value) → exec (.idx i) s = .next (s.raise .headerListSizeExceeded)) ∧
    (∀ n : BitVec 6, s.dt.Inv →
      literalOperands s.hufStrictEnd s.dt 6 n.toNat s.scratch.input (s.scratch.pos + 1) = .ok (name, value, p) →
      ∃ t' : DynTable, s.dt.insert name value = .ok t' ∧
        exec (.litInc n) s = .next ({ s with dt := t' }.raise .headerListSizeExceeded)) ∧
    (∀ n : BitVec 4,
      literalOperands s.hufStrictEnd s.dt 4 n.toNat s.scratch.input (s.scratch.pos + 1) = .ok (name, value, p) →
      exec (.litNever n) s = .next (s.raise .headerListSizeExceeded) ∧
      exec (.litNoidx n) s = .next (s.raise .headerListSizeExceeded))

/-- R289: a representation that fails leaves the table exactly as it found it; the one exception is the list-size check,
which comes after the insertion. -/
def Obligations.FailedFieldLeavesTheTable : Prop :=
  ∀ (i : Instr) (s t : State) (e : Err), i.isField = true → exec i s = .next t →
    t.responses = s.responses ++ [.error e] → e ≠ .headerListSizeExceeded → t.dt = s.dt

/-- The cursor never moves backwards and is bounded by len(In) (R22), and every representation consumes at least one
octet (R291): a step inside a command leaves its operand and moves the cursor forward. That a representation is a step of
its own is the model's choice (notes/assumptions/7.md). -/
def Obligations.CursorMovesForward : Prop :=
  ∀ s t : State, s.busy = true → s.scratch.activity ≠ .idle → step s = .next t → t.busy = true →
    t.scratch.input = s.scratch.input ∧ t.scratch.activity = s.scratch.activity ∧
    s.scratch.pos < t.scratch.pos ∧ t.scratch.pos ≤ t.scratch.input.length

/-! ### DECODE_BLOCK -/

/-- DECODE_BLOCK completes its acceptance (R280): the operand is latched, `pos <- 0; out <- []; total <- 0`; and from
there the machine's steps are R280's loop: from every state with the invariants that is not busy and whose first offer
is DECODE_BLOCK(In), at most len(In) + 2 steps lead to the response and the table that the loop gives. The number of
steps is the model's (notes/assumptions/7.md). -/
def Obligations.DecodeBlockIsTheLoop : Prop :=
  (∀ inp s, exec (.decodeBlock inp) s =
    .next { s with scratch := { activity := .block, input := inp, pos := 0, out := [], total := 0 } }) ∧
  (∀ (s : State) (inp : OctetString) (rest : List Offer), s.Inv → s.busy = false →
    s.offers = ⟨0x01, [.octets inp]⟩ :: rest →
    ∃ r t' k t, decodeBlock s.blockConfig s.dt inp = .ok (r, t') ∧ k ≤ inp.length + 2 ∧ core.run k s = .next t ∧
      t = { s with
        dt := t', offers := rest, lastErr := r.status, errSticky := s.errSticky || r.status != 0
        scratch := Scratch.empty, responses := s.responses ++ [r] })

/-- R293: a block assembled from lines (R98) whose references name entries in the table as it stands when each is decoded
decodes to the triples it was built from and leaves the table the lines make, where no list cap is reached. -/
def Obligations.AssembledBlockDecodes : Prop :=
  ∀ (s : State) (lines : List Line) (hs : List Header) (t' : DynTable), s.dt.Inv → s.busy = false →
    (∀ l ∈ lines, lineFits l) → linesMeaning s.cfgMaxTableSize.toNat s.dt lines = some (hs, t') →
    (s.listCapEn = true → hs = [] ∨ headersSize hs < s.listCap.toNat) →
    decodeBlock s.blockConfig s.dt (assemble lines) = .ok (.ok (.headers hs), t')

/-! ### Control and status -/

/-- SET_MAX_LIST_SIZE (R301): `LIST_CAP_EN <- 1; LIST_CAP <- n`; InvalidCommand above INT_MAX. -/
def Obligations.SetMaxListSizeCompletes : Prop :=
  ∀ (n : Nat) (s : State),
    (n ≤ Config.intMax → ∃ cap : BitVec 31, cap.toNat = n ∧
      exec (.setMaxListSize n) s = .next ({ s with listCapEn := true, listCap := cap }.respond .none)) ∧
    (Config.intMax < n → exec (.setMaxListSize n) s = .next (s.raise .invalidCommand))

/-- READ_STATUS (R302): it answers LAST_ERR and ERR_STICKY and writes neither, so a second one answers the same. -/
def Obligations.ReadStatusCompletes : Prop :=
  ∀ s : State, ∃ t, exec .readStatus s = .next t ∧
    t = { s with busy := false, scratch := Scratch.empty
                 responses := s.responses ++ [.ok (.status s.lastErr s.errSticky)] } ∧
    ∃ u, exec .readStatus t = .next u ∧
      u.responses = t.responses ++ [.ok (.status s.lastErr s.errSticky)] ∧ u.lastErr = s.lastErr

/-- RESET (R303, R350): every mutable element has its reset value, the ring RING_INIT_CAP empty slots; the response is
OK. That what stands at the command port and the parameters stay is the model's choice (notes/assumptions/1.md, 2.md and
9.md). -/
def Obligations.ResetCompletes : Prop :=
  ∀ s : State, ∃ t, exec .reset s = .next t ∧
    t.cfgMaxTableSize.toNat = 2 ^ 31 - 1 ∧ t.listCapEn = false ∧ t.listCap = 0 ∧ t.lastErr = 0 ∧ t.errSticky = false ∧
    t.busy = false ∧ t.dt.entries = [] ∧ t.dt.curSize = 0 ∧ t.dt.maxSize.toNat = 2 ^ 31 - 1 ∧ t.dt.seqNext = 1 ∧
    t.dt.nameIdx = [] ∧ t.dt.ring = ⟨s.ringInitCap, 0, 0, List.replicate s.ringInitCap none⟩ ∧
    t.scratch = Scratch.empty ∧ t.offers = s.offers ∧ t.responses = s.responses ++ [.ok .none] ∧
    t.hufStrictEnd = s.hufStrictEnd ∧ t.ringInitCap = s.ringInitCap

/-- The state after power-on reset (R350), but for the ring's capacity, which is the parameter's value. -/
def Obligations.PowerOnResetValues : Prop :=
  State.reset.cfgMaxTableSize.toNat = 2 ^ 31 - 1 ∧ State.reset.listCapEn = false ∧ State.reset.listCap = 0 ∧
  State.reset.lastErr = 0 ∧ State.reset.errSticky = false ∧ State.reset.busy = false ∧ State.reset.dt.entries = [] ∧
  State.reset.dt.curSize = 0 ∧ State.reset.dt.maxSize.toNat = 2 ^ 31 - 1 ∧ State.reset.dt.seqNext = 1 ∧
  State.reset.dt.nameIdx = [] ∧ State.reset.dt.ring.cap = State.reset.ringInitCap ∧ State.reset.dt.ring.head = 0 ∧
  State.reset.dt.ring.tail = 0 ∧ (∀ x ∈ State.reset.dt.ring.slots, x = none) ∧ State.reset.scratch = Scratch.empty

/-- R96 and R26: at the end of every command but READ_STATUS, LAST_ERR is the response's status, and an error sets
ERR_STICKY; READ_STATUS and a step that ends no command leave both; and no step but RESET clears ERR_STICKY. -/
def Obligations.StatusFollowsTheResponse : Prop :=
  ∀ s t : State, step s = .next t →
    (∀ r, t.responses = s.responses ++ [r] → s.nextInstr ≠ some .readStatus →
      t.lastErr = r.status ∧ (s.nextInstr ≠ some .reset → t.errSticky = (s.errSticky || r.status != 0))) ∧
    ((t.responses = s.responses ∨ s.nextInstr = some .readStatus) →
      t.lastErr = s.lastErr ∧ t.errSticky = s.errSticky) ∧
    (s.errSticky = true → s.nextInstr ≠ some .reset → t.errSticky = true)

/-- R328: CharacterCodingError is reserved; no step gives a response with it. -/
def Obligations.CharacterCodingErrorIsNeverRaised : Prop :=
  ∀ s t : State, step s = .next t → t.responses ≠ s.responses ++ [.error .characterCodingError]

/-- R97 and R329: an offer whose code is unknown, whose operands are not its row's, or whose operand is out of range is
refused before any step of the command: only LAST_ERR and ERR_STICKY change, beside the offer and the response. That an
operand too many or of the wrong type, and flags above 255, are refused too is the model's choice
(notes/assumptions/4.md). -/
def Obligations.RefusedOffersChangeOnlyTheStatus : Prop :=
  ∀ (s : State) (o : Offer) (rest : List Offer), s.Inv → s.busy = false → s.offers = o :: rest →
    ((∃ e, decodeCommand o = .error e) ∨ (∃ i, decodeCommand o = .ok i ∧ WellFormed i = false)) →
    step s = .next { s with
      offers := rest, lastErr := 8, errSticky := true, responses := s.responses ++ [.error .invalidCommand] }

/-- R23 and R360: while BUSY = 1 no command is accepted; while it is 0 the host's first offer is. R350: with none offered
the block waits. That the offers are a list taken in order (notes/assumptions/9.md) and that waiting is a step that
answers the same state (notes/assumptions/12.md) are the model's choices. -/
def Obligations.OffersWaitWhileBusy : Prop :=
  ∀ s t : State, step s = .next t →
    (s.busy = true → t.offers = s.offers) ∧
    (∀ o rest, s.busy = false → s.offers = o :: rest → t.offers = rest) ∧
    (s.busy = false → s.offers = [] → t = s)

/-- Every response stays (R69), and a step gives at most one (R96): exactly the steps that end a command, after which
BUSY = 0. That the responses are a list in State is the model's choice (notes/assumptions/9.md). -/
def Obligations.ResponsesOnlyGrow : Prop :=
  ∀ s t : State, step s = .next t →
    t.responses = s.responses ∨ (∃ r, t.responses = s.responses ++ [r] ∧ t.busy = false ∧ t.scratch = Scratch.empty)

/-! ### What each instruction leaves unchanged -/

/-- The instructions that read: each ends its command, and changes nothing but the status, BUSY, the scratch state and
the response (R127, R131, R167, R171, R190, R213, R214, R245, R247, R248, R249, R302). The block has no memory a host
can address (R61). -/
def Obligations.QueriesFrame : Prop :=
  ∀ (i : Instr) (s t : State), i.isQuery = true → exec i s = .next t →
    ∃ le st r, t = { s with
      lastErr := le, errSticky := st, busy := false, scratch := Scratch.empty, responses := s.responses ++ [r] }

/-- IDX, LIT_NEVER and LIT_NOIDX write no table state (R282, R286, R288): each either emits one triple, moving only the
cursor, the response list and the running total, or ends the command with an error. -/
def Obligations.ReadingFieldsFrame : Prop :=
  ∀ (i : Instr) (s t : State), (∃ k, i = .idx k) ∨ (∃ n, i = .litNever n) ∨ (∃ n, i = .litNoidx n) →
    exec i s = .next t →
    (∃ p h total, t = { s with scratch := { s.scratch with pos := p, out := s.scratch.out ++ [h], total := total } }) ∨
    (∃ e, t = s.raise e)

/-- LIT_INC and SIZE_UPD write the table and nothing else of the state that outlives the command (R285, R287): LIT_INC
leaves DT_MAX_SIZE, SIZE_UPD leaves DT_SEQ_NEXT and emits nothing. -/
def Obligations.WritingFieldsFrame : Prop :=
  ∀ s t : State,
    (∀ n, exec (.litInc n) s = .next t →
      t.dt.maxSize = s.dt.maxSize ∧
      ((∃ p h total, t = { s with
          dt := t.dt, scratch := { s.scratch with pos := p, out := s.scratch.out ++ [h], total := total } }) ∨
       (∃ e, t = { s with dt := t.dt }.raise e))) ∧
    (∀ n, exec (.sizeUpd n) s = .next t →
      t.dt.seqNext = s.dt.seqNext ∧
      ((∃ p, t = { s with dt := t.dt, scratch := { s.scratch with pos := p } }) ∨
       (∃ e, t = { s with dt := t.dt }.raise e)))

/-- The commands that write configuration or the table (R241, R243, R300, R301): each ends with a response, and changes
beside the status only what its rule names. The last clause is the model's choice (notes/assumptions/7.md): DECODE_BLOCK
and STR_DECODE give no response when they are executed, because their acceptance is a step of its own that changes only
the scratch state; what a whole DECODE_BLOCK writes, its representations' steps write (WritingFieldsFrame,
DecodeBlockIsTheLoop). -/
def Obligations.WritingCommandsFrame : Prop :=
  ∀ s t : State,
    (∀ name value, exec (.dtAdd name value) s = .next t →
      t = { s with dt := t.dt }.respond .none ∧ t.dt.maxSize = s.dt.maxSize) ∧
    (∀ n, exec (.dtSetMax n) s = .next t →
      (t = { s with dt := t.dt }.respond .none ∧ t.dt.seqNext = s.dt.seqNext) ∨ t = s.raise .invalidCommand) ∧
    (∀ n, exec (.setMaxTableSize n) s = .next t →
      (t = { s with dt := t.dt, cfgMaxTableSize := t.cfgMaxTableSize }.respond .none ∧ t.dt.seqNext = s.dt.seqNext) ∨
      t = s.raise .invalidCommand) ∧
    (∀ n, exec (.setMaxListSize n) s = .next t →
      t = { s with listCapEn := true, listCap := t.listCap }.respond .none ∨ t = s.raise .invalidCommand) ∧
    (∀ inp, exec (.decodeBlock inp) s = .next t ∨ exec (.strDecode inp) s = .next t →
      t = { s with scratch := t.scratch })

/-- Who writes the table and the configuration (R24, R25, R363): a step that changes the dynamic table, CFG_MAX_TABLE_SIZE,
or LIST_CAP_EN or LIST_CAP runs an instruction of the ones the rules name. That HUF_STRICT_END and RING_INIT_CAP, which R5
leaves open, are fields of State that no step changes is the model's choice (notes/assumptions/1.md and 2.md). -/
def Obligations.OnlyNamedInstructionsWrite : Prop :=
  ∀ s t : State, step s = .next t →
    (t.dt ≠ s.dt → ∃ i, s.nextInstr = some i ∧ i.writesTable = true) ∧
    (t.cfgMaxTableSize ≠ s.cfgMaxTableSize → ∃ i, s.nextInstr = some i ∧ i.writesConfig = true) ∧
    (t.listCapEn ≠ s.listCapEn ∨ t.listCap ≠ s.listCap → ∃ i, s.nextInstr = some i ∧ i.writesListCap = true) ∧
    t.hufStrictEnd = s.hufStrictEnd ∧ t.ringInitCap = s.ringInitCap

/-! ### Whole-machine statements -/

/-- The invariant holds after power-on reset. -/
def Obligations.InvariantHoldsAtReset : Prop := State.reset.Inv

/-- R252, R31, R33: every step keeps (I1), (I2), (I3), (I4), the name index, the ring's abstraction, and the invariants of
the scratch and status fields. Beside what R31, R33 and R43 name, the invariant holds what notes/assumptions/8.md
deduces. -/
def Obligations.StepKeepsTheInvariant : Prop :=
  ∀ s t : State, s.Inv → step s = .next t → t.Inv

/-- From a state with the invariant every step gives a next state: neither fault is reached (93_implementation_defined.md
U7, notes/assumptions/13.md), and no instruction is refused. -/
def Obligations.InvariantStatesStep : Prop :=
  ∀ s : State, s.Inv → ∃ t, step s = .next t

/-- R364: every command ends. From a busy state with the invariant, at most one step per octet left and one more lead to a
state that is not busy, with exactly one more response. The steps are the model's choice (notes/assumptions/7.md). -/
def Obligations.EveryCommandEnds : Prop :=
  ∀ s : State, s.Inv → s.busy = true →
    ∃ k t r, k ≤ s.scratch.input.length - s.scratch.pos + 1 ∧ core.run k s = .next t ∧ t.busy = false ∧
      t.responses = s.responses ++ [r] ∧ t.offers = s.offers

/-- R43: no outcome depends on RING_CAP, RING_HEAD, RING_TAIL or the slots, and the ring is read as DT_ENTRIES; and the
entries are at most as many as DT_MAX_SIZE holds of size 32. -/
def Obligations.RingIsUnobservable : Prop :=
  (∀ s t : State, s.SameButRing t → Out.SameButRing (step s) (step t)) ∧
  (∀ s : State, s.Inv → (∀ i, i < s.dt.entries.length → s.dt.ring.get i = s.dt.entries[i]?) ∧
    s.dt.entries.length ≤ s.dt.maxSize.toNat / Config.entryOverhead)
end

