-- ==== Sys2Proof/Laws/State.lean ====
section
/-!
SUPPORT. One lemma per field and per update of the state and of the dynamic table: what the update leaves in the field.
They are tagged simp, so that no later proof unfolds a record update.
-/

namespace Sys2Proof.Machine

/-- No error has the status OK (R321). -/
@[simp] theorem Err.code_ne_zero (e : Err) : e.code ≠ 0 := by cases e <;> decide

@[simp] theorem Err.code_bne_zero (e : Err) : (e.code != 0) = true := by cases e <;> decide

/-! ### State.setStatus -/

@[simp] theorem State.setStatus_cfgMaxTableSize (s : State) (status : BitVec 4) :
    (s.setStatus status).cfgMaxTableSize = s.cfgMaxTableSize :=
  rfl
@[simp] theorem State.setStatus_listCapEn (s : State) (status : BitVec 4) :
    (s.setStatus status).listCapEn = s.listCapEn :=
  rfl
@[simp] theorem State.setStatus_listCap (s : State) (status : BitVec 4) : (s.setStatus status).listCap = s.listCap :=
  rfl
@[simp] theorem State.setStatus_lastErr (s : State) (status : BitVec 4) : (s.setStatus status).lastErr = status := rfl
@[simp] theorem State.setStatus_errSticky (s : State) (status : BitVec 4) :
    (s.setStatus status).errSticky = (s.errSticky || status != 0) :=
  rfl
@[simp] theorem State.setStatus_busy (s : State) (status : BitVec 4) : (s.setStatus status).busy = s.busy := rfl
@[simp] theorem State.setStatus_dt (s : State) (status : BitVec 4) : (s.setStatus status).dt = s.dt := rfl
@[simp] theorem State.setStatus_scratch (s : State) (status : BitVec 4) : (s.setStatus status).scratch = s.scratch :=
  rfl
@[simp] theorem State.setStatus_offers (s : State) (status : BitVec 4) : (s.setStatus status).offers = s.offers := rfl
@[simp] theorem State.setStatus_responses (s : State) (status : BitVec 4) :
    (s.setStatus status).responses = s.responses :=
  rfl
@[simp] theorem State.setStatus_hufStrictEnd (s : State) (status : BitVec 4) :
    (s.setStatus status).hufStrictEnd = s.hufStrictEnd :=
  rfl
@[simp] theorem State.setStatus_ringInitCap (s : State) (status : BitVec 4) :
    (s.setStatus status).ringInitCap = s.ringInitCap :=
  rfl

/-! ### State.accept -/

@[simp] theorem State.accept_cfgMaxTableSize (s : State) (rest : List Offer) :
    (s.accept rest).cfgMaxTableSize = s.cfgMaxTableSize :=
  rfl
@[simp] theorem State.accept_listCapEn (s : State) (rest : List Offer) : (s.accept rest).listCapEn = s.listCapEn :=
  rfl
@[simp] theorem State.accept_listCap (s : State) (rest : List Offer) : (s.accept rest).listCap = s.listCap := rfl
@[simp] theorem State.accept_lastErr (s : State) (rest : List Offer) : (s.accept rest).lastErr = s.lastErr := rfl
@[simp] theorem State.accept_errSticky (s : State) (rest : List Offer) : (s.accept rest).errSticky = s.errSticky :=
  rfl
@[simp] theorem State.accept_busy (s : State) (rest : List Offer) : (s.accept rest).busy = true := rfl
@[simp] theorem State.accept_dt (s : State) (rest : List Offer) : (s.accept rest).dt = s.dt := rfl
@[simp] theorem State.accept_scratch (s : State) (rest : List Offer) : (s.accept rest).scratch = s.scratch := rfl
@[simp] theorem State.accept_offers (s : State) (rest : List Offer) : (s.accept rest).offers = rest := rfl
@[simp] theorem State.accept_responses (s : State) (rest : List Offer) : (s.accept rest).responses = s.responses :=
  rfl
@[simp] theorem State.accept_hufStrictEnd (s : State) (rest : List Offer) :
    (s.accept rest).hufStrictEnd = s.hufStrictEnd :=
  rfl
@[simp] theorem State.accept_ringInitCap (s : State) (rest : List Offer) :
    (s.accept rest).ringInitCap = s.ringInitCap :=
  rfl

/-! ### State.finish -/

@[simp] theorem State.finish_cfgMaxTableSize (s : State) (r : Response) :
    (s.finish r).cfgMaxTableSize = s.cfgMaxTableSize :=
  rfl
@[simp] theorem State.finish_listCapEn (s : State) (r : Response) : (s.finish r).listCapEn = s.listCapEn := rfl
@[simp] theorem State.finish_listCap (s : State) (r : Response) : (s.finish r).listCap = s.listCap := rfl
@[simp] theorem State.finish_lastErr (s : State) (r : Response) : (s.finish r).lastErr = s.lastErr := rfl
@[simp] theorem State.finish_errSticky (s : State) (r : Response) : (s.finish r).errSticky = s.errSticky := rfl
@[simp] theorem State.finish_busy (s : State) (r : Response) : (s.finish r).busy = false := rfl
@[simp] theorem State.finish_dt (s : State) (r : Response) : (s.finish r).dt = s.dt := rfl
@[simp] theorem State.finish_scratch (s : State) (r : Response) : (s.finish r).scratch = Scratch.empty := rfl
@[simp] theorem State.finish_offers (s : State) (r : Response) : (s.finish r).offers = s.offers := rfl
@[simp] theorem State.finish_responses (s : State) (r : Response) : (s.finish r).responses = s.responses ++ [r] := rfl
@[simp] theorem State.finish_hufStrictEnd (s : State) (r : Response) : (s.finish r).hufStrictEnd = s.hufStrictEnd :=
  rfl
@[simp] theorem State.finish_ringInitCap (s : State) (r : Response) : (s.finish r).ringInitCap = s.ringInitCap := rfl

/-! ### State.respond -/

@[simp] theorem State.respond_cfgMaxTableSize (s : State) (r : Result) :
    (s.respond r).cfgMaxTableSize = s.cfgMaxTableSize :=
  rfl
@[simp] theorem State.respond_listCapEn (s : State) (r : Result) : (s.respond r).listCapEn = s.listCapEn := rfl
@[simp] theorem State.respond_listCap (s : State) (r : Result) : (s.respond r).listCap = s.listCap := rfl
@[simp] theorem State.respond_lastErr (s : State) (r : Result) : (s.respond r).lastErr = 0 := rfl
@[simp] theorem State.respond_errSticky (s : State) (r : Result) : (s.respond r).errSticky = s.errSticky :=
  by simp [State.respond, State.setStatus, State.finish]
@[simp] theorem State.respond_busy (s : State) (r : Result) : (s.respond r).busy = false := rfl
@[simp] theorem State.respond_dt (s : State) (r : Result) : (s.respond r).dt = s.dt := rfl
@[simp] theorem State.respond_scratch (s : State) (r : Result) : (s.respond r).scratch = Scratch.empty := rfl
@[simp] theorem State.respond_offers (s : State) (r : Result) : (s.respond r).offers = s.offers := rfl
@[simp] theorem State.respond_responses (s : State) (r : Result) : (s.respond r).responses = s.responses ++ [.ok r] :=
  rfl
@[simp] theorem State.respond_hufStrictEnd (s : State) (r : Result) : (s.respond r).hufStrictEnd = s.hufStrictEnd :=
  rfl
@[simp] theorem State.respond_ringInitCap (s : State) (r : Result) : (s.respond r).ringInitCap = s.ringInitCap := rfl

/-! ### State.raise -/

@[simp] theorem State.raise_cfgMaxTableSize (s : State) (e : Err) : (s.raise e).cfgMaxTableSize = s.cfgMaxTableSize :=
  rfl
@[simp] theorem State.raise_listCapEn (s : State) (e : Err) : (s.raise e).listCapEn = s.listCapEn := rfl
@[simp] theorem State.raise_listCap (s : State) (e : Err) : (s.raise e).listCap = s.listCap := rfl
@[simp] theorem State.raise_lastErr (s : State) (e : Err) : (s.raise e).lastErr = e.code := rfl
@[simp] theorem State.raise_errSticky (s : State) (e : Err) : (s.raise e).errSticky = true :=
  by simp only [State.raise, State.finish, State.setStatus, Err.code_bne_zero, Bool.or_true]
@[simp] theorem State.raise_busy (s : State) (e : Err) : (s.raise e).busy = false := rfl
@[simp] theorem State.raise_dt (s : State) (e : Err) : (s.raise e).dt = s.dt := rfl
@[simp] theorem State.raise_scratch (s : State) (e : Err) : (s.raise e).scratch = Scratch.empty := rfl
@[simp] theorem State.raise_offers (s : State) (e : Err) : (s.raise e).offers = s.offers := rfl
@[simp] theorem State.raise_responses (s : State) (e : Err) : (s.raise e).responses = s.responses ++ [.error e] := rfl
@[simp] theorem State.raise_hufStrictEnd (s : State) (e : Err) : (s.raise e).hufStrictEnd = s.hufStrictEnd := rfl
@[simp] theorem State.raise_ringInitCap (s : State) (e : Err) : (s.raise e).ringInitCap = s.ringInitCap := rfl

/-! ### State.start -/

@[simp] theorem State.start_cfgMaxTableSize (s : State) (a : Activity) (inp : OctetString) :
    (s.start a inp).cfgMaxTableSize = s.cfgMaxTableSize :=
  rfl
@[simp] theorem State.start_listCapEn (s : State) (a : Activity) (inp : OctetString) :
    (s.start a inp).listCapEn = s.listCapEn :=
  rfl
@[simp] theorem State.start_listCap (s : State) (a : Activity) (inp : OctetString) :
    (s.start a inp).listCap = s.listCap :=
  rfl
@[simp] theorem State.start_lastErr (s : State) (a : Activity) (inp : OctetString) :
    (s.start a inp).lastErr = s.lastErr :=
  rfl
@[simp] theorem State.start_errSticky (s : State) (a : Activity) (inp : OctetString) :
    (s.start a inp).errSticky = s.errSticky :=
  rfl
@[simp] theorem State.start_busy (s : State) (a : Activity) (inp : OctetString) : (s.start a inp).busy = s.busy := rfl
@[simp] theorem State.start_dt (s : State) (a : Activity) (inp : OctetString) : (s.start a inp).dt = s.dt := rfl
@[simp] theorem State.start_scratch (s : State) (a : Activity) (inp : OctetString) :
    (s.start a inp).scratch = { activity := a, input := inp, pos := 0, out := [], total := 0 } :=
  rfl
@[simp] theorem State.start_offers (s : State) (a : Activity) (inp : OctetString) :
    (s.start a inp).offers = s.offers :=
  rfl
@[simp] theorem State.start_responses (s : State) (a : Activity) (inp : OctetString) :
    (s.start a inp).responses = s.responses :=
  rfl
@[simp] theorem State.start_hufStrictEnd (s : State) (a : Activity) (inp : OctetString) :
    (s.start a inp).hufStrictEnd = s.hufStrictEnd :=
  rfl
@[simp] theorem State.start_ringInitCap (s : State) (a : Activity) (inp : OctetString) :
    (s.start a inp).ringInitCap = s.ringInitCap :=
  rfl

/-! ### State.advance -/

@[simp] theorem State.advance_cfgMaxTableSize (s : State) (pos : Nat) :
    (s.advance pos).cfgMaxTableSize = s.cfgMaxTableSize :=
  rfl
@[simp] theorem State.advance_listCapEn (s : State) (pos : Nat) : (s.advance pos).listCapEn = s.listCapEn := rfl
@[simp] theorem State.advance_listCap (s : State) (pos : Nat) : (s.advance pos).listCap = s.listCap := rfl
@[simp] theorem State.advance_lastErr (s : State) (pos : Nat) : (s.advance pos).lastErr = s.lastErr := rfl
@[simp] theorem State.advance_errSticky (s : State) (pos : Nat) : (s.advance pos).errSticky = s.errSticky := rfl
@[simp] theorem State.advance_busy (s : State) (pos : Nat) : (s.advance pos).busy = s.busy := rfl
@[simp] theorem State.advance_dt (s : State) (pos : Nat) : (s.advance pos).dt = s.dt := rfl
@[simp] theorem State.advance_scratch (s : State) (pos : Nat) :
    (s.advance pos).scratch = { s.scratch with pos := pos } :=
  rfl
@[simp] theorem State.advance_offers (s : State) (pos : Nat) : (s.advance pos).offers = s.offers := rfl
@[simp] theorem State.advance_responses (s : State) (pos : Nat) : (s.advance pos).responses = s.responses := rfl
@[simp] theorem State.advance_hufStrictEnd (s : State) (pos : Nat) : (s.advance pos).hufStrictEnd = s.hufStrictEnd :=
  rfl
@[simp] theorem State.advance_ringInitCap (s : State) (pos : Nat) : (s.advance pos).ringInitCap = s.ringInitCap := rfl

/-! ### State.resetElements -/

@[simp] theorem State.resetElements_cfgMaxTableSize (s : State) :
    (s.resetElements).cfgMaxTableSize = BitVec.ofNat 31 Config.resetMaxSize :=
  rfl
@[simp] theorem State.resetElements_listCapEn (s : State) : (s.resetElements).listCapEn = false := rfl
@[simp] theorem State.resetElements_listCap (s : State) : (s.resetElements).listCap = 0 := rfl
@[simp] theorem State.resetElements_lastErr (s : State) : (s.resetElements).lastErr = 0 := rfl
@[simp] theorem State.resetElements_errSticky (s : State) : (s.resetElements).errSticky = false := rfl
@[simp] theorem State.resetElements_busy (s : State) : (s.resetElements).busy = false := rfl
@[simp] theorem State.resetElements_dt (s : State) : (s.resetElements).dt = DynTable.reset s.ringInitCap := rfl
@[simp] theorem State.resetElements_scratch (s : State) : (s.resetElements).scratch = Scratch.empty := rfl
@[simp] theorem State.resetElements_offers (s : State) : (s.resetElements).offers = s.offers := rfl
@[simp] theorem State.resetElements_responses (s : State) : (s.resetElements).responses = s.responses := rfl
@[simp] theorem State.resetElements_hufStrictEnd (s : State) : (s.resetElements).hufStrictEnd = s.hufStrictEnd := rfl
@[simp] theorem State.resetElements_ringInitCap (s : State) : (s.resetElements).ringInitCap = s.ringInitCap := rfl

/-! ### DynTable.dropOldest -/

@[simp] theorem DynTable.dropOldest_entries (t : DynTable) (e : DynEntry) :
    (t.dropOldest e).entries = t.entries.dropLast :=
  rfl
@[simp] theorem DynTable.dropOldest_curSize (t : DynTable) (e : DynEntry) :
    (t.dropOldest e).curSize = t.curSize - e.size :=
  rfl
@[simp] theorem DynTable.dropOldest_maxSize (t : DynTable) (e : DynEntry) : (t.dropOldest e).maxSize = t.maxSize :=
  rfl
@[simp] theorem DynTable.dropOldest_seqNext (t : DynTable) (e : DynEntry) : (t.dropOldest e).seqNext = t.seqNext :=
  rfl
@[simp] theorem DynTable.dropOldest_nameIdx (t : DynTable) (e : DynEntry) :
    (t.dropOldest e).nameIdx = t.nameIdx.removeOldest e.name :=
  rfl
@[simp] theorem DynTable.dropOldest_ring (t : DynTable) (e : DynEntry) : (t.dropOldest e).ring = t.ring.removeLast :=
  rfl

/-! ### DynTable.push -/

@[simp] theorem DynTable.push_entries (t : DynTable) (name value : OctetString) :
    (t.push name value).entries = ⟨name, value, t.seqNext⟩ :: t.entries :=
  rfl
@[simp] theorem DynTable.push_curSize (t : DynTable) (name value : OctetString) :
    (t.push name value).curSize = t.curSize + entrySize name value :=
  rfl
@[simp] theorem DynTable.push_maxSize (t : DynTable) (name value : OctetString) :
    (t.push name value).maxSize = t.maxSize :=
  rfl
@[simp] theorem DynTable.push_seqNext (t : DynTable) (name value : OctetString) :
    (t.push name value).seqNext = t.seqNext + 1 :=
  rfl
@[simp] theorem DynTable.push_nameIdx (t : DynTable) (name value : OctetString) :
    (t.push name value).nameIdx = t.nameIdx.insert name t.seqNext :=
  rfl
@[simp] theorem DynTable.push_ring (t : DynTable) (name value : OctetString) :
    (t.push name value).ring = t.ring.addFirst ⟨name, value, t.seqNext⟩ :=
  rfl

end Sys2Proof.Machine
end

