-- ==== Sys2Proof/Laws/Operands.lean ====
section
/-!
SUPPORT. What each operand reader can do (41_integer.md R120–R125; 43_string.md R190; 46_field_decoder.md R284), said once: where
it answers, the cursor has moved forward within the operand and the value is in its range; and which errors it raises.
-/

namespace Sys2Proof.Machine

/-- The loop of IntDecode: the value is at most INT_MAX, and the cursor moved over at least one octet and stays within the
operand (R120, R124). -/
theorem intGroups_ok {inp : OctetString} {left pos m v w p : Nat} (h : intGroups inp left pos m v = .ok (w, p)) :
    w ≤ Config.intMax ∧ v ≤ w ∧ pos < p ∧ p ≤ inp.length ∧ p ≤ pos + left := by
  induction left generalizing pos m v with
  | zero => cases h
  | succ left ih =>
    unfold intGroups at h
    split at h
    · cases h
    · rename_i c hc
      have hlen : pos < inp.length := by
        rw [List.getElem?_eq_some_iff] at hc
        exact hc.1
      simp only at h
      split at h
      · obtain ⟨h1, h2, h3, h4, h5⟩ := ih h
        exact ⟨h1, by omega, by omega, h4, by omega⟩
      · split at h
        · cases h
        · cases h
          exact ⟨by omega, by omega, by omega, hlen, by omega⟩

theorem intGroups_error {inp : OctetString} {left pos m v : Nat} {e : Err} (h : intGroups inp left pos m v = .error e) :
    e = .unexpectedEndOfStream ∨ e = .integerLimitExceeded := by
  induction left generalizing pos m v with
  | zero => cases h; exact .inr rfl
  | succ left ih =>
    unfold intGroups at h
    split at h
    · cases h; exact .inl rfl
    · simp only at h
      split at h
      · exact ih h
      · split at h
        · cases h; exact .inr rfl
        · cases h

/-- IntDecode after its first octet: the cursor does not move backwards and stays within the operand (R22, R124). -/
theorem intRest_ok {n low : Nat} {inp : OctetString} {pos v p : Nat} (h : intRest n low inp pos = .ok (v, p)) :
    pos ≤ p ∧ (p = pos ∧ v = low ∧ low < 2 ^ n - 1 ∨ pos < p ∧ p ≤ inp.length ∧ v ≤ Config.intMax) := by
  unfold intRest at h
  split at h
  · cases h
    exact ⟨Nat.le_refl _, .inl ⟨rfl, rfl, by assumption⟩⟩
  · obtain ⟨h1, -, h3, h4, -⟩ := intGroups_ok h
    exact ⟨by omega, .inr ⟨h3, h4, h1⟩⟩

theorem intRest_pos_le {n low : Nat} {inp : OctetString} {pos v p : Nat} (h : intRest n low inp pos = .ok (v, p))
    (hpos : pos ≤ inp.length) : p ≤ inp.length := by
  obtain ⟨-, ⟨rfl, -⟩ | ⟨-, h, -⟩⟩ := intRest_ok h <;> assumption

theorem intRest_error {n low : Nat} {inp : OctetString} {pos : Nat} {e : Err} (h : intRest n low inp pos = .error e) :
    e = .unexpectedEndOfStream ∨ e = .integerLimitExceeded := by
  unfold intRest at h
  split at h
  · cases h
  · exact intGroups_error h

theorem intDecode_ok {n : Nat} {inp : OctetString} {pos v p : Nat} (h : intDecode n inp pos = .ok (v, p)) :
    ∃ b, inp[pos]? = some b ∧ intRest n (b.toNat % 2 ^ n) inp (pos + 1) = .ok (v, p) := by
  unfold intDecode at h
  split at h
  · cases h
  · exact ⟨_, by assumption, h⟩

theorem intDecode_error {n : Nat} {inp : OctetString} {pos : Nat} {e : Err} (h : intDecode n inp pos = .error e) :
    e = .unexpectedEndOfStream ∨ e = .integerLimitExceeded := by
  unfold intDecode at h
  split at h
  · cases h; exact .inl rfl
  · exact intRest_error h

/-- The walk raises only EosDecodedLiterally, but for an empty slot, which is a malformed bit stream (R160). -/
theorem HufWalk.lookups_error {fuel : Nat} {w : HufWalk} {e : Err} (h : w.lookups fuel = .error e) :
    e = .eosDecodedLiterally ∨ e = .invalidHuffmanPadding := by
  induction fuel generalizing w with
  | zero => cases h
  | succ fuel ih =>
    unfold HufWalk.lookups at h
    split at h
    · split at h
      · split at h
        · rename_i he
          cases h
          unfold HufWalk.emit at he
          split at he
          · cases he; exact .inl rfl
          · cases he
        · exact ih h
      · exact ih h
      · cases h; exact .inr rfl
    · cases h

theorem HufWalk.feed_error {w : HufWalk} {data : OctetString} {e : Err} (h : w.feed data = .error e) :
    e = .eosDecodedLiterally ∨ e = .invalidHuffmanPadding := by
  induction data generalizing w with
  | nil => cases h
  | cons b data ih =>
    unfold HufWalk.feed at h
    split at h
    · rename_i he
      cases h
      exact HufWalk.lookups_error he
    · exact ih h

theorem HufWalk.drain_error {fuel : Nat} {w : HufWalk} {e : Err} (h : w.drain fuel = .error e) :
    e = .eosDecodedLiterally := by
  induction fuel generalizing w with
  | zero => cases h
  | succ fuel ih =>
    unfold HufWalk.drain at h
    split at h
    · split at h
      · split at h
        · split at h
          · rename_i he
            cases h
            unfold HufWalk.emit at he
            split at he
            · cases he; rfl
            · cases he
          · exact ih h
        · cases h
      · cases h
      · cases h
    · cases h

/-- HufDecode raises EosDecodedLiterally or InvalidHuffmanPadding and nothing else (R167). -/
theorem hufDecode_error {strict : Bool} {data : OctetString} {e : Err} (h : hufDecode strict data = .error e) :
    e = .eosDecodedLiterally ∨ e = .invalidHuffmanPadding := by
  unfold hufDecode at h
  split at h
  · rename_i he
    cases h
    exact HufWalk.feed_error he
  · split at h
    · rename_i he
      cases h
      exact .inl (HufWalk.drain_error he)
    · unfold HufWalk.finish at h
      split at h
      · cases h; exact .inr rfl
      · split at h
        · cases h; exact .inr rfl
        · cases h

/-- The content of a string: the cursor stands after its strLen octets, within the operand (R190). -/
theorem strContent_ok {strict h : Bool} {strLen : Nat} {inp : OctetString} {pos p : Nat} {s : OctetString}
    (hs : strContent strict h strLen inp pos = .ok (s, p)) : p = pos + strLen ∧ strLen ≤ inp.length - pos := by
  unfold strContent at hs
  split at hs
  · cases hs
  · simp only at hs
    split at hs
    · split at hs
      · cases hs
      · cases hs
        exact ⟨rfl, by omega⟩
    · cases hs
      exact ⟨rfl, by omega⟩

theorem strRest_pos_le {strict h : Bool} {low : Nat} {inp : OctetString} {pos p : Nat} {s : OctetString}
    (hs : strRest strict h low inp pos = .ok (s, p)) (hpos : pos ≤ inp.length) : pos ≤ p ∧ p ≤ inp.length := by
  unfold strRest at hs
  split at hs
  · cases hs
  · rename_i strLen q hint
    have h1 := intRest_ok hint
    have h2 := intRest_pos_le hint hpos
    have h3 := strContent_ok hs
    omega

/-- A string literal takes at least one octet and ends within the operand (R190). -/
theorem strDecode_pos {strict : Bool} {inp : OctetString} {pos p : Nat} {s : OctetString}
    (hs : strDecode strict inp pos = .ok (s, p)) : pos < p ∧ p ≤ inp.length := by
  unfold strDecode at hs
  split at hs
  · cases hs
  · rename_i b hb
    have : pos < inp.length := by
      rw [List.getElem?_eq_some_iff] at hb
      exact hb.1
    have := strRest_pos_le hs (by omega)
    omega

theorem nameOperand_pos {strict : Bool} {t : DynTable} {ni : Nat} {inp : OctetString} {pos p : Nat} {s : OctetString}
    (hs : nameOperand strict t ni inp pos = .ok (s, p)) (hpos : pos ≤ inp.length) : pos ≤ p ∧ p ≤ inp.length := by
  unfold nameOperand at hs
  split at hs
  · split at hs
    · cases hs
    · cases hs
      exact ⟨Nat.le_refl _, hpos⟩
  · have := strDecode_pos hs
    omega

/-- The operands of a literal end within the operand, after the name and the value (R284). -/
theorem literalOperands_pos {strict : Bool} {t : DynTable} {n low : Nat} {inp : OctetString} {pos p : Nat}
    {name value : OctetString} (h : literalOperands strict t n low inp pos = .ok (name, value, p))
    (hpos : pos ≤ inp.length) : pos < p ∧ p ≤ inp.length := by
  unfold literalOperands at h
  split at h
  · cases h
  · rename_i ni q hint
    have h1 := intRest_ok hint
    have h2 := intRest_pos_le hint hpos
    split at h
    · cases h
    · rename_i hname
      have h3 := nameOperand_pos hname h2
      split at h
      · cases h
      · rename_i hvalue
        have h4 := strDecode_pos hvalue
        cases h
        omega

theorem DynTable.get_error {t : DynTable} {i : Nat} {e : Err} (h : t.get i = .error e) : e = .invalidTableIndex := by
  unfold DynTable.get at h
  split at h
  · cases h; rfl
  · split at h
    · split at h
      · cases h
      · cases h; rfl
    · split at h
      · cases h
      · cases h; rfl

/-- What a string literal raises (R322–R325). -/
theorem strRest_error {strict h : Bool} {low : Nat} {inp : OctetString} {pos : Nat} {e : Err}
    (hs : strRest strict h low inp pos = .error e) :
    e = .unexpectedEndOfStream ∨ e = .integerLimitExceeded ∨ e = .eosDecodedLiterally ∨
      e = .invalidHuffmanPadding := by
  unfold strRest at hs
  split at hs
  · rename_i he
    cases hs
    rcases intRest_error he with h | h <;> simp [h]
  · unfold strContent at hs
    split at hs
    · cases hs; simp
    · simp only at hs
      split at hs
      · split at hs
        · rename_i he
          cases hs
          rcases hufDecode_error he with h | h <;> simp [h]
        · cases hs
      · cases hs

theorem strDecode_error {strict : Bool} {inp : OctetString} {pos : Nat} {e : Err}
    (hs : strDecode strict inp pos = .error e) :
    e = .unexpectedEndOfStream ∨ e = .integerLimitExceeded ∨ e = .eosDecodedLiterally ∨
      e = .invalidHuffmanPadding := by
  unfold strDecode at hs
  split at hs
  · cases hs; simp
  · exact strRest_error hs

/-- What the operands of a literal raise (R284, R331). -/
theorem literalOperands_error {strict : Bool} {t : DynTable} {n low : Nat} {inp : OctetString} {pos : Nat} {e : Err}
    (h : literalOperands strict t n low inp pos = .error e) :
    e = .unexpectedEndOfStream ∨ e = .integerLimitExceeded ∨ e = .eosDecodedLiterally ∨
      e = .invalidHuffmanPadding ∨ e = .invalidTableIndex := by
  unfold literalOperands at h
  split at h
  · rename_i he
    cases h
    rcases intRest_error he with h | h <;> simp [h]
  · split at h
    · rename_i he
      cases h
      unfold nameOperand at he
      split at he
      · split at he
        · rename_i hget
          cases he
          simp [DynTable.get_error hget]
        · cases he
      · rcases strDecode_error he with h | h | h | h <;> simp [h]
    · split at h
      · rename_i he
        cases h
        rcases strDecode_error he with h | h | h | h <;> simp [h]
      · cases h

end Sys2Proof.Machine
end

