-- ==== Sys2Proof/Laws/NameIndex.lean ====
section
/-!
SUPPORT. The name index reads as a map (10_state.md R33; 45_dynamic_table.md R246): what NameIdxInsert and NameIdxRemove
leave at every name, and that they keep the keys distinct and no list empty.
-/

namespace Sys2Proof.Machine

@[simp] theorem NameIndex.find_nil (n : OctetString) : NameIndex.find [] n = [] := rfl

theorem NameIndex.find_cons (k : OctetString × List Nat) (ix : NameIndex) (n : OctetString) :
    NameIndex.find (k :: ix) n = if n = k.1 then k.2 else ix.find n := by
  obtain ⟨k, v⟩ := k
  by_cases h : n = k
  · subst h
    simp [NameIndex.find]
  · have : (n == k) = false := by simpa using h
    simp [NameIndex.find, List.lookup, this, h]

theorem NameIndex.find_eq_nil_of_not_mem {ix : NameIndex} {n : OctetString} (h : n ∉ ix.map fun k => k.1) :
    ix.find n = [] := by
  induction ix with
  | nil => rfl
  | cons k ix ih =>
    simp only [List.map_cons, List.mem_cons, not_or] at h
    rw [NameIndex.find_cons, if_neg h.1, ih h.2]

theorem NameIndex.find_erase_of_ne {ix : NameIndex} {n m : OctetString} (h : m ≠ n) :
    (ix.erase n).find m = ix.find m := by
  induction ix with
  | nil => rfl
  | cons k ix ih =>
    unfold NameIndex.erase at ih ⊢
    rw [List.filter_cons, NameIndex.find_cons]
    by_cases hk : k.1 = n
    · simp only [hk, bne_self_eq_false, Bool.false_eq_true, if_false, ih, if_neg h]
    · simp only [bne_iff_ne, ne_eq, hk, not_false_eq_true, if_true, NameIndex.find_cons, ih]

/-- NameIdxInsert puts the number first in its name's list and leaves every other name (R246). -/
theorem NameIndex.find_insert (ix : NameIndex) (n : OctetString) (s : Nat) (m : OctetString) :
    (ix.insert n s).find m = if m = n then s :: ix.find n else ix.find m := by
  unfold NameIndex.insert
  rw [NameIndex.find_cons]
  by_cases h : m = n
  · simp [h]
  · simp only [if_neg h, NameIndex.find_erase_of_ne h]

theorem NameIndex.insert_keys {ix : NameIndex} (h : ∀ k ∈ ix, k.2 ≠ []) (n : OctetString) (s : Nat) :
    ∀ k ∈ ix.insert n s, k.2 ≠ [] := by
  intro k hk
  simp only [NameIndex.insert, NameIndex.erase, List.mem_cons, List.mem_filter] at hk
  rcases hk with rfl | ⟨hk, -⟩
  · simp
  · exact h k hk

theorem NameIndex.insert_nodup {ix : NameIndex} (h : (ix.map fun k => k.1).Nodup) (n : OctetString) (s : Nat) :
    ((ix.insert n s).map fun k => k.1).Nodup := by
  simp only [NameIndex.insert, List.map_cons, List.nodup_cons]
  constructor
  · simp [NameIndex.erase]
  · exact List.Nodup.sublist (List.Sublist.map _ List.filter_sublist) h

/-- NameIdxRemove drops the last number of its name's list and leaves every other name (R246). -/
theorem NameIndex.find_removeOldest {ix : NameIndex} (h : (ix.map fun k => k.1).Nodup) (n m : OctetString) :
    (ix.removeOldest n).find m = if m = n then (ix.find n).dropLast else ix.find m := by
  induction ix with
  | nil => simp [NameIndex.removeOldest]
  | cons k ix ih =>
    simp only [List.map_cons, List.nodup_cons] at h
    have ih := ih h.2
    unfold NameIndex.removeOldest at ih ⊢
    rw [List.map_cons, List.filter_cons]
    by_cases hk : k.1 = n
    · have hrest : NameIndex.find ix n = [] := NameIndex.find_eq_nil_of_not_mem (hk ▸ h.1)
      simp only [hk, beq_self_eq_true, if_true]
      by_cases he : k.2.dropLast = []
      · simp only [he, List.isEmpty_nil, Bool.not_true, Bool.false_eq_true, if_false, ih, hrest,
          NameIndex.find_cons, hk, if_true, List.dropLast_nil]
        split <;> rfl
      · have : (!k.2.dropLast.isEmpty) = true := by simp [he]
        simp only [this, if_true, NameIndex.find_cons, ih, hk, hrest]
        split <;> simp_all
    · have hkn : (k.1 == n) = false := by simpa using hk
      simp only [hkn, Bool.false_eq_true, if_false, NameIndex.find_cons]
      by_cases he : k.2 = []
      · simp only [he, List.isEmpty_nil, Bool.not_true, Bool.false_eq_true, if_false, ih]
        by_cases hm : m = k.1
        · subst hm
          simp only [if_neg hk, if_true]
          exact NameIndex.find_eq_nil_of_not_mem h.1
        · by_cases hn : n = k.1
          · exact absurd hn.symm hk
          · simp [hm, hn]
      · have : (!k.2.isEmpty) = true := by simp [he]
        simp only [this, if_true, NameIndex.find_cons, ih]
        by_cases hm : m = k.1
        · subst hm
          simp [hk]
        · by_cases hn : n = k.1
          · exact absurd hn.symm hk
          · simp [hm, hn]

theorem NameIndex.removeOldest_keys (ix : NameIndex) (n : OctetString) : ∀ k ∈ ix.removeOldest n, k.2 ≠ [] := by
  intro k hk
  simp only [NameIndex.removeOldest, List.mem_filter] at hk
  simpa [List.isEmpty_iff] using hk.2

theorem NameIndex.removeOldest_nodup {ix : NameIndex} (h : (ix.map fun k => k.1).Nodup) (n : OctetString) :
    ((ix.removeOldest n).map fun k => k.1).Nodup := by
  have hmap : (ix.map fun k => if k.1 == n then (k.1, k.2.dropLast) else k).map (fun k => k.1) =
      ix.map fun k => k.1 := by
    rw [List.map_map]
    apply List.map_congr_left
    intro k _
    simp only [Function.comp]
    split <;> rfl
  unfold NameIndex.removeOldest
  exact List.Nodup.sublist (List.Sublist.map _ List.filter_sublist) (hmap ▸ h)

end Sys2Proof.Machine
end

