-- ==== Sys2Proof/Laws/Ring.lean ====
section
/-!
SUPPORT. The ring keeps its abstraction (10_state.md R41–R43): after ring_addFirst it holds the new entry before the old
ones, after ring_removeLast it holds all but the oldest.
-/

namespace Sys2Proof.Machine

theorem mod_of_lt_two_mul {a c : Nat} (h : a < 2 * c) : a % c = if a < c then a else a - c := by
  split
  · rename_i h'
    exact Nat.mod_eq_of_lt h'
  · rename_i h'
    rw [Nat.mod_eq_sub_mod (by omega), Nat.mod_eq_of_lt (by omega)]

/-- The ring after reset holds nothing (R350). -/
theorem Ring.reset_holds {cap : Nat} (h : 0 < cap) : (Ring.reset cap).Holds [] where
  slots_length := by simp [Ring.reset]
  head_lt := h
  tail_lt := h
  length_eq := by simp [Ring.length, Ring.reset]
  get_eq := by simp

theorem Ring.Holds.length_lt {r : Ring} {es : List DynEntry} (h : r.Holds es) : es.length < r.cap := by
  have := h.length_eq
  have := h.head_lt
  rw [← h.length_eq]
  exact Nat.mod_lt _ (by omega)

/-- The index ring_get(i) reads, without the wrap (R42). -/
theorem Ring.get_eq_getD {r : Ring} {es : List DynEntry} (h : r.Holds es) {i : Nat} (hi : i < r.cap) :
    r.get i = r.slots.getD (if i < r.head then r.head - (i + 1) else r.head + r.cap - (i + 1)) none := by
  have h1 := h.head_lt
  unfold Ring.get
  congr 1
  rw [mod_of_lt_two_mul (by omega)]
  split <;> split <;> omega

theorem Ring.length_eq_if {r : Ring} {es : List DynEntry} (h : r.Holds es) :
    es.length = if r.tail ≤ r.head then r.head - r.tail else r.head + r.cap - r.tail := by
  have h1 := h.head_lt
  have h2 := h.tail_lt
  rw [← h.length_eq, Ring.length, mod_of_lt_two_mul (by omega)]
  split <;> split <;> omega

theorem getD_set_self {α : Type} (l : List α) (i : Nat) (x d : α) (h : i < l.length) : (l.set i x).getD i d = x := by
  simp [List.getD, h]

theorem getD_set_ne {α : Type} (l : List α) (i j : Nat) (x d : α) (h : i ≠ j) :
    (l.set i x).getD j d = l.getD j d := by
  simp [List.getD, List.getElem?_set_ne h]

/-- ring_addFirst puts the entry first (R42, R43). -/
theorem Ring.addFirst_holds {r : Ring} {es : List DynEntry} (h : r.Holds es) (e : DynEntry) :
    (r.addFirst e).Holds (e :: es) := by
  have h1 := h.head_lt
  have h2 := h.tail_lt
  have h3 := h.slots_length
  have h4 := Ring.length_eq_if h
  have h5 := h.length_lt
  have hhead : (r.head + 1) % r.cap = if r.head + 1 = r.cap then 0 else r.head + 1 := by
    rw [mod_of_lt_two_mul (by omega)]
    split <;> split <;> omega
  -- what the old slots hold, at an index below the capacity
  have hget : ∀ i, i < es.length →
      r.slots.getD (if i < r.head then r.head - (i + 1) else r.head + r.cap - (i + 1)) none = es[i]? := by
    intro i hi
    rw [← Ring.get_eq_getD h (by omega), h.get_eq i hi]
  unfold Ring.addFirst
  by_cases hfull : (r.head + 1) % r.cap = r.tail
  · -- the head caught up: double and repack
    simp only [if_pos hfull]
    have hlen : es.length + 1 = r.cap := by
      rw [hhead] at hfull
      split at hfull <;> split at h4 <;> omega
    have hold : (List.map (fun k => (r.slots.set r.head (some e)).getD ((r.tail + k) % r.cap) none)
        (List.range r.cap)).length = r.cap := by simp
    refine ⟨?_, ?_, ?_, ?_, ?_⟩
    · simp; omega
    · simp; omega
    · simp; omega
    · simp [Ring.length]
      rw [mod_of_lt_two_mul (by omega)]
      split <;> omega
    · intro i hi
      simp only [List.length_cons] at hi
      simp only [Ring.get, hold]
      have hidx : (r.cap + 2 * r.cap - (i + 1)) % (2 * r.cap) = r.cap - (i + 1) := by
        rw [mod_of_lt_two_mul (by omega)]
        split <;> omega
      rw [hidx, List.getD_eq_getElem?_getD, List.getElem?_append_left (by rw [hold]; omega)]
      simp only [List.getElem?_map]
      rw [List.getElem?_range (by omega)]
      simp only [Option.map_some, Option.getD_some]
      have hslot : (r.tail + (r.cap - (i + 1))) % r.cap =
          if i ≤ r.head then r.head - i else r.head + r.cap - i := by
        rw [mod_of_lt_two_mul (by omega)]
        rw [hhead] at hfull
        split at hfull <;> split <;> split <;> omega
      rw [hslot]
      rcases i with _ | i
      · simp only [Nat.zero_le, if_true, Nat.sub_zero]
        rw [getD_set_self _ _ _ _ (by omega)]
        rfl
      · rw [getD_set_ne _ _ _ _ _ (by split <;> omega)]
        have := hget i (by omega)
        rw [List.getElem?_cons_succ, ← this]
        congr 1
  · -- room is left
    simp only [if_neg hfull]
    have hlen : es.length + 1 < r.cap := by
      rw [hhead] at hfull
      split at hfull <;> split at h4 <;> omega
    refine ⟨?_, ?_, ?_, ?_, ?_⟩
    · simpa using h3
    · exact Nat.mod_lt _ (by omega)
    · exact h2
    · simp only [Ring.length, List.length_cons]
      rw [hhead, mod_of_lt_two_mul (by split <;> omega)]
      rw [hhead] at hfull
      split at hfull <;> split at h4 <;> simp_all <;> split <;> omega
    · intro i hi
      simp only [List.length_cons] at hi
      simp only [Ring.get]
      have hslot : ((r.head + 1) % r.cap + r.cap - (i + 1)) % r.cap =
          if i ≤ r.head then r.head - i else r.head + r.cap - i := by
        rw [hhead, mod_of_lt_two_mul (by split <;> omega)]
        split <;> split <;> split <;> omega
      rw [hslot]
      rcases i with _ | i
      · simp only [Nat.zero_le, if_true, Nat.sub_zero]
        rw [getD_set_self _ _ _ _ (by omega)]
        rfl
      · rw [getD_set_ne _ _ _ _ _ (by split <;> omega)]
        have := hget i (by omega)
        rw [List.getElem?_cons_succ, ← this]
        congr 1

/-- ring_removeLast drops the oldest entry (R42, R43). -/
theorem Ring.removeLast_holds {r : Ring} {es : List DynEntry} (h : r.Holds es) : r.removeLast.Holds es.dropLast := by
  have h1 := h.head_lt
  have h2 := h.tail_lt
  have h3 := h.slots_length
  have h4 := Ring.length_eq_if h
  have h5 := h.length_lt
  unfold Ring.removeLast
  by_cases hempty : r.head = r.tail
  · simp only [if_pos hempty]
    have : es = [] := by
      apply List.eq_nil_of_length_eq_zero
      split at h4 <;> omega
    subst this
    exact h
  · simp only [if_neg hempty]
    have hpos : 0 < es.length := by split at h4 <;> omega
    have htail : (r.tail + 1) % r.cap = if r.tail + 1 = r.cap then 0 else r.tail + 1 := by
      rw [mod_of_lt_two_mul (by omega)]
      split <;> split <;> omega
    refine ⟨by simpa using h3, h1, Nat.mod_lt _ (by omega), ?_, ?_⟩
    · simp only [Ring.length, List.length_dropLast]
      rw [htail, mod_of_lt_two_mul (by split <;> omega)]
      split at h4 <;> split <;> split <;> omega
    · intro i hi
      simp only [List.length_dropLast] at hi
      have hne : r.tail ≠ if i < r.head then r.head - (i + 1) else r.head + r.cap - (i + 1) := by
        split at h4 <;> split <;> omega
      have hold := h.get_eq i (by omega)
      rw [Ring.get_eq_getD h (by omega)] at hold
      simp only [Ring.get]
      have hidx : (r.head + r.cap - (i + 1)) % r.cap =
          if i < r.head then r.head - (i + 1) else r.head + r.cap - (i + 1) := by
        rw [mod_of_lt_two_mul (by omega)]
        split <;> split <;> omega
      rw [hidx, getD_set_ne _ _ _ _ _ hne, hold, List.getElem?_dropLast, if_pos (by omega)]

end Sys2Proof.Machine
end

