-- ==== Sys2Proof/Laws/Table.lean ====
section
/-!
SUPPORT. What each internal operation of the dynamic table can do (45_dynamic_table.md R231–R240), said once: on a coherent
table none faults, each keeps the table coherent, and its entries, size and numbers are as the rules say.
-/

namespace Sys2Proof.Machine

@[simp] theorem entriesSize_nil : entriesSize [] = 0 := rfl

@[simp] theorem entriesSize_cons (e : DynEntry) (es : List DynEntry) :
    entriesSize (e :: es) = e.size + entriesSize es := by simp [entriesSize]

@[simp] theorem entriesSize_append (es fs : List DynEntry) :
    entriesSize (es ++ fs) = entriesSize es + entriesSize fs := by simp [entriesSize]

theorem entriesSize_dropLast {es : List DynEntry} {e : DynEntry} (h : es.getLast? = some e) :
    entriesSize es = entriesSize es.dropLast + e.size := by
  obtain ⟨ys, rfl⟩ := List.getLast?_eq_some_iff.mp h
  simp

/-- Every entry takes at least ENTRY_OVERHEAD octets (R230). -/
theorem DynEntry.overhead_le_size (e : DynEntry) : Config.entryOverhead ≤ e.size := by
  unfold DynEntry.size entrySize
  omega

theorem DynTable.Coherent.curSize_eq {t : DynTable} (h : t.Coherent) : t.curSize = entriesSize t.entries := h.size_eq

/-- The table after reset (R350). -/
theorem DynTable.reset_inv {cap : Nat} (h : 0 < cap) : (DynTable.reset cap).Inv where
  size_eq := rfl
  seq_consecutive := by intro i e e' h; simp [DynTable.reset] at h
  seq_lt := by intro e h; simp [DynTable.reset] at h
  seq_newest := by intro e h; simp [DynTable.reset] at h
  name_find := by intro n; rfl
  name_keys := by intro k h; simp [DynTable.reset] at h
  name_nodup := by simp [DynTable.reset]
  ring_holds := Ring.reset_holds h
  size_le := Nat.zero_le _

/-- The insertion of Insert keeps the table coherent, but for the cap (R233, R246). -/
theorem DynTable.push_coherent {t : DynTable} (h : t.Coherent) (name value : OctetString) :
    (t.push name value).Coherent where
  size_eq := by
    simp only [DynTable.push_curSize, DynTable.push_entries, List.map_cons, List.sum_cons, h.size_eq]
    simp [DynEntry.size, Nat.add_comm]
  seq_consecutive := by
    intro i e e' he he'
    rw [DynTable.push_entries] at he he'
    rcases i with _ | i
    · simp only [List.getElem?_cons_zero, Option.some.injEq] at he
      subst he
      simp only [Nat.zero_add, List.getElem?_cons_succ] at he'
      exact h.seq_newest e' (by simpa [List.head?_eq_getElem?] using he')
    · simp only [List.getElem?_cons_succ] at he he'
      exact h.seq_consecutive i e e' he he'
  seq_lt := by
    intro e he
    rw [DynTable.push_entries, List.mem_cons] at he
    rw [DynTable.push_seqNext]
    rcases he with rfl | he
    · exact Nat.lt_succ_self _
    · exact Nat.lt_succ_of_lt (h.seq_lt e he)
  seq_newest := by
    intro e he
    simp only [DynTable.push_entries, List.head?_cons, Option.some.injEq] at he
    subst he
    rfl
  name_find := by
    intro n
    rw [DynTable.push_nameIdx, NameIndex.find_insert, DynTable.push_entries, List.filter_cons]
    by_cases hn : n = name
    · simp [hn, h.name_find]
    · have : (name == n) = false := by simpa using fun hh => hn hh.symm
      simp [hn, this, h.name_find]
  name_keys := NameIndex.insert_keys h.name_keys _ _
  name_nodup := NameIndex.insert_nodup h.name_nodup _ _
  ring_holds := Ring.addFirst_holds h.ring_holds _

theorem filter_map_dropLast {es : List DynEntry} {e : DynEntry} (n : OctetString) (h : es.getLast? = some e) :
    (es.dropLast.filter fun d => d.name == n).map (fun d => d.seq) =
      if n = e.name then ((es.filter fun d => d.name == n).map fun d => d.seq).dropLast
      else (es.filter fun d => d.name == n).map fun d => d.seq := by
  obtain ⟨ys, rfl⟩ := List.getLast?_eq_some_iff.mp h
  by_cases hn : n = e.name
  · simp [List.filter_append, hn]
  · have : (e.name == n) = false := by simpa using fun hh => hn hh.symm
    simp [List.filter_append, hn, this]

/-- EvictOldest keeps the table coherent (R231, R246). -/
theorem DynTable.dropOldest_coherent {t : DynTable} (h : t.Coherent) {e : DynEntry}
    (he : t.entries.getLast? = some e) : (t.dropOldest e).Coherent where
  size_eq := by
    have h1 := h.curSize_eq
    have h2 := entriesSize_dropLast he
    show t.curSize - e.size = entriesSize t.entries.dropLast
    omega
  seq_consecutive := by
    intro i a b ha hb
    rw [DynTable.dropOldest_entries, List.getElem?_dropLast] at ha hb
    split at ha
    · split at hb
      · exact h.seq_consecutive i a b ha hb
      · cases hb
    · cases ha
  seq_lt := by
    intro a ha
    exact h.seq_lt a (List.dropLast_subset _ ha)
  seq_newest := by
    intro a ha
    rw [DynTable.dropOldest_entries, List.head?_eq_getElem?, List.getElem?_dropLast] at ha
    split at ha
    · exact h.seq_newest a (by rw [List.head?_eq_getElem?]; exact ha)
    · cases ha
  name_find := by
    intro n
    rw [DynTable.dropOldest_nameIdx, NameIndex.find_removeOldest h.name_nodup, DynTable.dropOldest_entries,
      filter_map_dropLast n he]
    simp only [h.name_find]
    split
    · rename_i hn
      rw [hn]
    · rfl
  name_keys := NameIndex.removeOldest_keys _ _
  name_nodup := NameIndex.removeOldest_nodup h.name_nodup _
  ring_holds := Ring.removeLast_holds h.ring_holds

/-- Eviction on a coherent table (R232): no fault; the survivors are left, coherent and within the cap; the numbers and
the cap stay. -/
theorem DynTable.evict_spec {t : DynTable} (h : t.Coherent) {fuel : Nat} (hf : t.entries.length ≤ fuel) :
    ∃ t', DynTable.evict fuel t = .ok t' ∧ t'.Inv ∧ t'.entries = survivors fuel t.maxSize.toNat t.entries ∧
      t'.maxSize = t.maxSize ∧ t'.seqNext = t.seqNext := by
  induction fuel generalizing t with
  | zero =>
    have hnil : t.entries = [] := List.eq_nil_of_length_eq_zero (by omega)
    have hsize : t.curSize ≤ t.maxSize.toNat := by rw [h.curSize_eq, hnil]; simp
    refine ⟨t, ?_, ⟨h, hsize⟩, rfl, rfl, rfl⟩
    unfold DynTable.evict
    rw [if_neg (by omega)]
  | succ fuel ih =>
    unfold DynTable.evict
    by_cases hbig : t.curSize > t.maxSize.toNat
    · rw [if_pos hbig]
      cases he : t.entries.getLast? with
      | none =>
        rw [List.getLast?_eq_none_iff] at he
        rw [h.curSize_eq, he, entriesSize_nil] at hbig
        omega
      | some e =>
        obtain ⟨t', h1, h2, h3, h4, h5⟩ := ih (DynTable.dropOldest_coherent h he)
          (by rw [DynTable.dropOldest_entries, List.length_dropLast]; omega)
        refine ⟨t', h1, h2, ?_, h4, h5⟩
        rw [h3, survivors, if_pos (by rw [← h.curSize_eq]; exact hbig)]
        rfl
    · rw [if_neg hbig]
      refine ⟨t, rfl, ⟨h, by omega⟩, ?_, rfl, rfl⟩
      rw [survivors, if_neg (by rw [← h.curSize_eq]; exact hbig)]

theorem DynTable.evictTo_spec {t : DynTable} (h : t.Coherent) :
    ∃ t', t.evictTo = .ok t' ∧ t'.Inv ∧ t'.entries = survivors t.entries.length t.maxSize.toNat t.entries ∧
      t'.maxSize = t.maxSize ∧ t'.seqNext = t.seqNext :=
  DynTable.evict_spec h (Nat.le_refl _)

theorem DynTable.clearLoop_spec {t : DynTable} (h : t.Coherent) {fuel : Nat} (hf : t.entries.length ≤ fuel) :
    (DynTable.clearLoop fuel t).Coherent ∧ (DynTable.clearLoop fuel t).entries = [] ∧
      (DynTable.clearLoop fuel t).maxSize = t.maxSize ∧ (DynTable.clearLoop fuel t).seqNext = t.seqNext := by
  induction fuel generalizing t with
  | zero => exact ⟨h, List.eq_nil_of_length_eq_zero (Nat.le_zero.mp hf), rfl, rfl⟩
  | succ fuel ih =>
    unfold DynTable.clearLoop
    cases he : t.entries.getLast? with
    | none => exact ⟨h, List.getLast?_eq_none_iff.mp he, rfl, rfl⟩
    | some e =>
      exact ih (DynTable.dropOldest_coherent h he)
        (by rw [DynTable.dropOldest_entries, List.length_dropLast]; omega)

/-- Clear() on a coherent table (R240): empty, and the cap and the numbers stay. -/
theorem DynTable.clear_spec {t : DynTable} (h : t.Coherent) :
    t.clear.Inv ∧ t.clear.entries = [] ∧ t.clear.maxSize = t.maxSize ∧ t.clear.seqNext = t.seqNext := by
  obtain ⟨h1, h2, h3, h4⟩ := DynTable.clearLoop_spec h (Nat.le_refl t.entries.length)
  refine ⟨⟨h1, ?_⟩, h2, h3, h4⟩
  show (DynTable.clear t).curSize ≤ _
  rw [show (DynTable.clear t).curSize = entriesSize (DynTable.clear t).entries from h1.curSize_eq,
    show (DynTable.clear t).entries = [] from h2]
  simp

/-- SetMax(n) (R234): no fault; the survivors of the new cap are left; the numbers stay. -/
theorem DynTable.setMax_spec {t : DynTable} (h : t.Coherent) (n : Nat) :
    ∃ t', t.setMax n = .ok t' ∧ t'.Inv ∧
      t'.entries = survivors t.entries.length (BitVec.ofNat 31 n).toNat t.entries ∧
      t'.maxSize = BitVec.ofNat 31 n ∧ t'.seqNext = t.seqNext :=
  DynTable.evictTo_spec (t := { t with maxSize := BitVec.ofNat 31 n })
    ⟨h.size_eq, h.seq_consecutive, h.seq_lt, h.seq_newest, h.name_find, h.name_keys, h.name_nodup, h.ring_holds⟩

theorem survivors_length_le (fuel cap : Nat) (es : List DynEntry) : (survivors fuel cap es).length ≤ es.length := by
  induction fuel generalizing es with
  | zero => exact Nat.le_refl _
  | succ fuel ih =>
    unfold survivors
    split
    · exact Nat.le_trans (ih _) (by simp)
    · exact Nat.le_refl _

/-- Eviction takes the oldest entries first, so the survivors are the newest ones (R232). -/
theorem survivors_eq_take (fuel cap : Nat) (es : List DynEntry) :
    survivors fuel cap es = es.take (survivors fuel cap es).length := by
  induction fuel generalizing es with
  | zero => simp [survivors]
  | succ fuel ih =>
    unfold survivors
    split
    · have hlen := survivors_length_le fuel cap es.dropLast
      rw [List.length_dropLast] at hlen
      rw [ih es.dropLast]
      simp only [List.dropLast_eq_take, List.take_take, List.length_take]
      congr 1
      omega
    · simp

/-- Insert(name, value) (R233): no fault. An oversized entry leaves the table empty and takes no number; another one is
first, with the number DT_SEQ_NEXT, before the newest of the old entries that fit beside it. -/
theorem DynTable.insert_spec {t : DynTable} (h : t.Coherent) (name value : OctetString) :
    ∃ t', t.insert name value = .ok t' ∧ t'.Inv ∧ t'.maxSize = t.maxSize ∧
      (entrySize name value > t.maxSize.toNat → t'.entries = [] ∧ t'.seqNext = t.seqNext) ∧
      (entrySize name value ≤ t.maxSize.toNat →
        t'.entries = survivors (t.entries.length + 1) t.maxSize.toNat (⟨name, value, t.seqNext⟩ :: t.entries) ∧
          t'.seqNext = t.seqNext + 1) := by
  unfold DynTable.insert
  split
  · obtain ⟨h1, h2, h3, h4⟩ := DynTable.clear_spec h
    exact ⟨_, rfl, h1, h3, fun _ => ⟨h2, h4⟩, fun hle => absurd hle (by omega)⟩
  · obtain ⟨t', h1, h2, h3, h4, h5⟩ := DynTable.evictTo_spec (DynTable.push_coherent h name value)
    exact ⟨t', h1, h2, h4, fun hgt => absurd hgt (by omega), fun _ => ⟨h3, h5⟩⟩

end Sys2Proof.Machine
end

