-- ==== Sys2Proof/Laws/Ops.lean ====
section
/-!
SUPPORT. What each shared operation of a step can do, said once: changing the table, emitting a triple, a literal field,
a string literal.
-/

namespace Sys2Proof.Machine

/-- A step that changes the table answers next exactly where the table's operation does not fault. -/
theorem State.withTable_eq_next {s u : State} {t : Except Fault DynTable} {k : State → State} :
    s.withTable t k = .next u ↔ ∃ t', t = .ok t' ∧ u = k { s with dt := t' } := by
  unfold State.withTable
  constructor
  · intro h
    split at h
    · cases h
    · cases h
      exact ⟨_, rfl, rfl⟩
  · rintro ⟨t', rfl, rfl⟩
    rfl

/-- No step that changes the table is refused. -/
theorem State.withTable_ne_refused {s : State} {t : Except Fault DynTable} {k : State → State} {r : Refusal} :
    s.withTable t k ≠ .refused r := by
  unfold State.withTable
  split <;> simp

/-- A triple below the list cap is emitted (R283). -/
theorem State.emit_of_belowCap {s : State} {h : Header} (hb : s.belowCap h) (pos : Nat) :
    s.emit pos h = s.emitted pos h := by
  unfold State.emit State.emitted
  by_cases hc : s.listCapEn = true
  · have := hb hc
    simp only [hc, if_true]
    rw [if_neg (by omega)]
  · simp only [hc, Bool.false_eq_true, if_false]

/-- A triple that reaches the list cap raises (R283). -/
theorem State.emit_of_not_belowCap {s : State} {h : Header} (hb : ¬ s.belowCap h) (pos : Nat) :
    s.emit pos h = s.raise .headerListSizeExceeded := by
  unfold State.belowCap at hb
  unfold State.emit
  by_cases hc : s.listCapEn = true
  · simp only [hc, forall_const] at hb
    simp only [hc, if_true]
    rw [if_pos (by omega)]
  · simp [hc] at hb

theorem State.emit_cases (s : State) (pos : Nat) (h : Header) :
    (s.belowCap h ∧ s.emit pos h = s.emitted pos h) ∨
      (¬ s.belowCap h ∧ s.emit pos h = s.raise .headerListSizeExceeded) := by
  by_cases hb : s.belowCap h
  · exact .inl ⟨hb, State.emit_of_belowCap hb pos⟩
  · exact .inr ⟨hb, State.emit_of_not_belowCap hb pos⟩

/-- A literal field (R284): an error of its operands, or their triple emitted, after an insertion where it is LIT_INC. -/
theorem fieldLiteral_next {n low : Nat} {kind : LiteralKind} {s u : State}
    (h : fieldLiteral n low kind s = .next u) :
    (∃ e, literalOperands s.hufStrictEnd s.dt n low s.scratch.input (s.scratch.pos + 1) = .error e ∧ u = s.raise e) ∨
    (∃ name value p, literalOperands s.hufStrictEnd s.dt n low s.scratch.input (s.scratch.pos + 1) =
        .ok (name, value, p) ∧
      ((kind = .inc ∧ ∃ t', s.dt.insert name value = .ok t' ∧
          u = { s with dt := t' }.emit p ⟨name, value, false⟩) ∨
       (kind = .never ∧ u = s.emit p ⟨name, value, true⟩) ∨
       (kind = .noidx ∧ u = s.emit p ⟨name, value, false⟩))) := by
  unfold fieldLiteral at h
  split at h
  · rename_i he
    cases h
    exact .inl ⟨_, he, rfl⟩
  · rename_i name value p hop
    refine .inr ⟨name, value, p, hop, ?_⟩
    cases kind with
    | inc =>
      obtain ⟨t', h1, h2⟩ := State.withTable_eq_next.mp h
      exact .inl ⟨rfl, t', h1, h2⟩
    | never => cases h; exact .inr (.inl ⟨rfl, rfl⟩)
    | noidx => cases h; exact .inr (.inr ⟨rfl, rfl⟩)

/-- A string literal answers or raises (R190, R196). -/
theorem stringLiteral_next {h : Bool} {l : BitVec 7} {s u : State} (hu : stringLiteral h l s = .next u) :
    (∃ e, strRest s.hufStrictEnd h l.toNat s.scratch.input (s.scratch.pos + 1) = .error e ∧ u = s.raise e) ∨
    (∃ octets p, strRest s.hufStrictEnd h l.toNat s.scratch.input (s.scratch.pos + 1) = .ok (octets, p) ∧
      u = s.respond (.string octets p)) := by
  unfold stringLiteral at hu
  split at hu
  · rename_i he
    cases hu
    exact .inl ⟨_, he, rfl⟩
  · rename_i hok
    cases hu
    exact .inr ⟨_, _, hok, rfl⟩

end Sys2Proof.Machine
end

