-- ==== Sys2Proof/Laws/TableFrame.lean ====
section
/-!
SUPPORT. What the operations of the dynamic table leave unchanged wherever they answer, on every table, coherent or not
(45_dynamic_table.md R231–R240).
-/

namespace Sys2Proof.Machine

theorem DynTable.evict_frame {fuel : Nat} {t t' : DynTable} (h : DynTable.evict fuel t = .ok t') :
    t'.maxSize = t.maxSize ∧ t'.seqNext = t.seqNext := by
  induction fuel generalizing t with
  | zero =>
    unfold DynTable.evict at h
    split at h
    · cases h
    · cases h
      exact ⟨rfl, rfl⟩
  | succ fuel ih =>
    unfold DynTable.evict at h
    split at h
    · split at h
      · have h1 := ih h
        exact h1
      · cases h
    · cases h
      exact ⟨rfl, rfl⟩

theorem DynTable.clearLoop_frame (fuel : Nat) (t : DynTable) :
    (DynTable.clearLoop fuel t).maxSize = t.maxSize ∧ (DynTable.clearLoop fuel t).seqNext = t.seqNext := by
  induction fuel generalizing t with
  | zero => exact ⟨rfl, rfl⟩
  | succ fuel ih =>
    unfold DynTable.clearLoop
    split
    · exact ih _
    · exact ⟨rfl, rfl⟩

/-- Insert leaves the cap, and takes at most one sequence number (R233). -/
theorem DynTable.insert_frame {t t' : DynTable} {name value : OctetString} (h : t.insert name value = .ok t') :
    t'.maxSize = t.maxSize ∧ (t'.seqNext = t.seqNext ∨ t'.seqNext = t.seqNext + 1) := by
  unfold DynTable.insert at h
  split at h
  · cases h
    exact ⟨(DynTable.clearLoop_frame _ _).1, .inl (DynTable.clearLoop_frame _ _).2⟩
  · obtain ⟨h1, h2⟩ := DynTable.evict_frame h
    exact ⟨h1, .inr h2⟩

/-- SetMax writes the cap and no sequence number (R234). -/
theorem DynTable.setMax_frame {t t' : DynTable} {n : Nat} (h : t.setMax n = .ok t') :
    t'.maxSize = BitVec.ofNat 31 n ∧ t'.seqNext = t.seqNext := DynTable.evict_frame h

end Sys2Proof.Machine
end

