-- ==== Sys2Proof/Laws/Exec.lean ====
section
/-!
SUPPORT. Everything exec can do, said once: exec_effect lists, for an instruction that answers a next state, the forms
that state can have. Later proofs take a step apart with it and never unfold a meaning.
-/

namespace Sys2Proof.Machine

theorem State.respond_shape (s : State) (r : Result) :
    s.respond r = { s with
      lastErr := 0, errSticky := s.errSticky, busy := false, scratch := Scratch.empty
      responses := s.responses ++ [.ok r] } := by
  simp [State.respond, State.setStatus, State.finish]

theorem State.raise_shape (s : State) (e : Err) :
    s.raise e = { s with
      lastErr := e.code, errSticky := true, busy := false, scratch := Scratch.empty
      responses := s.responses ++ [.error e] } := by
  cases e <;> simp [State.raise, State.setStatus, State.finish, Err.code]

/-- A cursor that moves forward within the operand, where there was an octet at it. -/
def State.Forward (s : State) (pos : Nat) : Prop :=
  s.scratch.pos < s.scratch.input.length → s.scratch.pos < pos ∧ pos ≤ s.scratch.input.length

/-- What an instruction does to a state, in terms of the named operations. -/
inductive Effect (i : Instr) (s : State) : State → Prop where
  /-- it answers its command and writes nothing else -/
  | respond (r : Result) (hi : i.isQuery = true) (hr : i ≠ .readStatus) : Effect i s (s.respond r)
  /-- it raises an error before it writes anything -/
  | raise (e : Err) (he : e ≠ .characterCodingError) (hr : i ≠ .readStatus) (hz : i ≠ .reset) : Effect i s (s.raise e)
  | readStatus (hi : i = .readStatus) : Effect i s (s.finish (.ok (.status s.lastErr s.errSticky)))
  /-- a field that writes no table emits its triple, or reaches the list cap -/
  | emit (pos : Nat) (h : Header) (hi : (∃ k, i = .idx k) ∨ (∃ n, i = .litNever n) ∨ (∃ n, i = .litNoidx n))
      (hp : s.Forward pos) : Effect i s (s.emit pos h)
  | litInc (n : BitVec 6) (pos : Nat) (name value : OctetString) (t : DynTable) (hi : i = .litInc n)
      (ht : s.dt.insert name value = .ok t) (hp : s.Forward pos) :
      Effect i s ({ s with dt := t }.emit pos ⟨name, value, false⟩)
  | sizeUpd (n : BitVec 5) (pos cap : Nat) (t : DynTable) (hi : i = .sizeUpd n)
      (ht : s.dt.setMax (min cap s.cfgMaxTableSize.toNat) = .ok t) (hp : s.Forward pos) :
      Effect i s ({ s with dt := t }.advance pos)
  /-- a command latches its operand -/
  | start (a : Activity) (inp : OctetString) (ha : a ≠ .idle) (hi : i = .decodeBlock inp ∨ i = .strDecode inp) :
      Effect i s (s.start a inp)
  | dtAdd (name value : OctetString) (t : DynTable) (hi : i = .dtAdd name value)
      (ht : s.dt.insert name value = .ok t) : Effect i s ({ s with dt := t }.respond .none)
  | dtSetMax (n : Nat) (t : DynTable) (hi : i = .dtSetMax n) (ht : s.dt.setMax n = .ok t) :
      Effect i s ({ s with dt := t }.respond .none)
  | setMaxTableSize (n : Nat) (t : DynTable) (hi : i = .setMaxTableSize n) (ht : s.dt.setMax n = .ok t) :
      Effect i s ({ s with dt := t, cfgMaxTableSize := BitVec.ofNat 31 n }.respond .none)
  | setMaxListSize (n : Nat) (hi : i = .setMaxListSize n) :
      Effect i s ({ s with listCapEn := true, listCap := BitVec.ofNat 31 n }.respond .none)
  | reset (hi : i = .reset) : Effect i s (s.resetElements.respond .none)

theorem intRest_forward {n low p v : Nat} {s : State}
    (h : intRest n low s.scratch.input (s.scratch.pos + 1) = .ok (v, p)) : s.Forward p := by
  intro hp
  have h1 := intRest_pos_le h hp
  have h2 := (intRest_ok h).1
  omega

theorem literalOperands_forward {strict : Bool} {t : DynTable} {n low p : Nat} {name value : OctetString} {s : State}
    (h : literalOperands strict t n low s.scratch.input (s.scratch.pos + 1) = .ok (name, value, p)) : s.Forward p := by
  intro hp
  have := literalOperands_pos h hp
  omega

theorem execIdx_effect {k : BitVec 7} {s t : State} (h : execIdx k s = .next t) : Effect (.idx k) s t := by
  unfold execIdx at h
  split at h
  · rename_i he
    cases h
    refine .raise _ ?_ (by simp) (by simp)
    rcases intRest_error he with h | h <;> simp [h]
  · rename_i hint
    split at h
    · rename_i he
      cases h
      refine .raise _ ?_ (by simp) (by simp)
      simp [DynTable.get_error he]
    · cases h
      exact .emit _ _ (.inl ⟨_, rfl⟩) (intRest_forward hint)

theorem execLitInc_effect {n : BitVec 6} {s t : State} (h : execLitInc n s = .next t) : Effect (.litInc n) s t := by
  rcases fieldLiteral_next h with ⟨e, he, rfl⟩ | ⟨name, value, p, hok, hk⟩
  · refine .raise _ ?_ (by simp) (by simp)
    rcases literalOperands_error he with h | h | h | h | h <;> simp [h]
  · rcases hk with ⟨-, t', ht, rfl⟩ | ⟨hk, -⟩ | ⟨hk, -⟩
    · exact .litInc _ _ _ _ _ rfl ht (literalOperands_forward hok)
    · cases hk
    · cases hk

theorem execSizeUpd_effect {n : BitVec 5} {s t : State} (h : execSizeUpd n s = .next t) : Effect (.sizeUpd n) s t := by
  unfold execSizeUpd at h
  split at h
  · rename_i he
    cases h
    refine .raise _ ?_ (by simp) (by simp)
    rcases intRest_error he with h | h <;> simp [h]
  · rename_i hint
    obtain ⟨t', ht, rfl⟩ := State.withTable_eq_next.mp h
    exact .sizeUpd _ _ _ _ rfl ht (intRest_forward hint)

theorem execLitNever_effect {n : BitVec 4} {s t : State} (h : execLitNever n s = .next t) :
    Effect (.litNever n) s t := by
  rcases fieldLiteral_next h with ⟨e, he, rfl⟩ | ⟨name, value, p, hok, hk⟩
  · refine .raise _ ?_ (by simp) (by simp)
    rcases literalOperands_error he with h | h | h | h | h <;> simp [h]
  · rcases hk with ⟨hk, -⟩ | ⟨-, rfl⟩ | ⟨hk, -⟩
    · cases hk
    · exact .emit _ _ (.inr (.inl ⟨_, rfl⟩)) (literalOperands_forward hok)
    · cases hk

theorem execLitNoidx_effect {n : BitVec 4} {s t : State} (h : execLitNoidx n s = .next t) :
    Effect (.litNoidx n) s t := by
  rcases fieldLiteral_next h with ⟨e, he, rfl⟩ | ⟨name, value, p, hok, hk⟩
  · refine .raise _ ?_ (by simp) (by simp)
    rcases literalOperands_error he with h | h | h | h | h <;> simp [h]
  · rcases hk with ⟨hk, -⟩ | ⟨hk, -⟩ | ⟨-, rfl⟩
    · cases hk
    · cases hk
    · exact .emit _ _ (.inr (.inr ⟨_, rfl⟩)) (literalOperands_forward hok)

theorem execStrRaw_effect {l : BitVec 7} {s t : State} (h : execStrRaw l s = .next t) : Effect (.strRaw l) s t := by
  rcases stringLiteral_next h with ⟨e, he, rfl⟩ | ⟨_, _, -, rfl⟩
  · refine .raise _ ?_ (by simp) (by simp)
    rcases strRest_error he with h | h | h | h <;> simp [h]
  · exact .respond _ rfl (by simp)

theorem execStrHuf_effect {l : BitVec 7} {s t : State} (h : execStrHuf l s = .next t) : Effect (.strHuf l) s t := by
  rcases stringLiteral_next h with ⟨e, he, rfl⟩ | ⟨_, _, -, rfl⟩
  · refine .raise _ ?_ (by simp) (by simp)
    rcases strRest_error he with h | h | h | h <;> simp [h]
  · exact .respond _ rfl (by simp)

theorem execSetMaxTableSize_effect {n : Nat} {s t : State} (h : execSetMaxTableSize n s = .next t) :
    Effect (.setMaxTableSize n) s t := by
  unfold execSetMaxTableSize at h
  split at h
  · obtain ⟨t', ht, rfl⟩ := State.withTable_eq_next.mp h
    exact .setMaxTableSize _ _ rfl ht
  · cases h
    exact .raise _ (by simp) (by simp) (by simp)

theorem execSetMaxListSize_effect {n : Nat} {s t : State} (h : execSetMaxListSize n s = .next t) :
    Effect (.setMaxListSize n) s t := by
  unfold execSetMaxListSize at h
  split at h
  · cases h
    exact .setMaxListSize _ rfl
  · cases h
    exact .raise _ (by simp) (by simp) (by simp)

theorem execIntDecode_effect {n : Nat} {inp : OctetString} {s t : State} (h : execIntDecode n inp s = .next t) :
    Effect (.intDecode n inp) s t := by
  unfold execIntDecode at h
  split at h
  · split at h
    · rename_i he
      cases h
      refine .raise _ ?_ (by simp) (by simp)
      rcases intDecode_error he with h | h <;> simp [h]
    · cases h
      exact .respond _ rfl (by simp)
  · cases h
    exact .raise _ (by simp) (by simp) (by simp)

theorem execIntEncode_effect {n flags v : Nat} {s t : State} (h : execIntEncode n flags v s = .next t) :
    Effect (.intEncode n flags v) s t := by
  unfold execIntEncode at h
  split at h
  · cases h
    exact .respond _ rfl (by simp)
  · cases h
    exact .raise _ (by simp) (by simp) (by simp)

theorem execHufDecode_effect {inp : OctetString} {s t : State} (h : execHufDecode inp s = .next t) :
    Effect (.hufDecode inp) s t := by
  unfold execHufDecode at h
  split at h
  · rename_i he
    cases h
    refine .raise _ ?_ (by simp) (by simp)
    rcases hufDecode_error he with h | h <;> simp [h]
  · cases h
    exact .respond _ rfl (by simp)

theorem execStGet_effect {k : Nat} {s t : State} (h : execStGet k s = .next t) : Effect (.stGet k) s t := by
  unfold execStGet at h
  split at h
  · split at h
    · cases h
      exact .respond _ rfl (by simp)
    · cases h
      exact .raise _ (by simp) (by simp) (by simp)
  · cases h
    exact .raise _ (by simp) (by simp) (by simp)

theorem execDtGet_effect {k : Nat} {s t : State} (h : execDtGet k s = .next t) : Effect (.dtGet k) s t := by
  unfold execDtGet at h
  split at h
  · split at h
    · cases h
      exact .respond _ rfl (by simp)
    · rename_i he
      cases h
      refine .raise _ ?_ (by simp) (by simp)
      simp [DynTable.get_error he]
  · cases h
    exact .raise _ (by simp) (by simp) (by simp)

theorem execDtAdd_effect {name value : OctetString} {s t : State} (h : execDtAdd name value s = .next t) :
    Effect (.dtAdd name value) s t := by
  obtain ⟨t', ht, rfl⟩ := State.withTable_eq_next.mp h
  exact .dtAdd _ _ _ rfl ht

theorem execDtSetMax_effect {n : Nat} {s t : State} (h : execDtSetMax n s = .next t) : Effect (.dtSetMax n) s t := by
  unfold execDtSetMax at h
  split at h
  · obtain ⟨t', ht, rfl⟩ := State.withTable_eq_next.mp h
    exact .dtSetMax _ _ rfl ht
  · cases h
    exact .raise _ (by simp) (by simp) (by simp)

theorem execDtFindName_effect {name : OctetString} {s t : State} (h : execDtFindName name s = .next t) :
    Effect (.dtFindName name) s t := by
  unfold execDtFindName at h
  split at h
  · cases h
    exact .respond _ rfl (by simp)
  · cases h

/-- Everything exec can answer as a next state. -/
theorem exec_effect {i : Instr} {s t : State} (h : exec i s = .next t) : Effect i s t := by
  cases i with
  | idx => exact execIdx_effect h
  | litInc => exact execLitInc_effect h
  | sizeUpd => exact execSizeUpd_effect h
  | litNever => exact execLitNever_effect h
  | litNoidx => exact execLitNoidx_effect h
  | strRaw => exact execStrRaw_effect h
  | strHuf => exact execStrHuf_effect h
  | decodeBlock inp => cases h; exact .start .block inp (by simp) (.inl rfl)
  | setMaxTableSize => exact execSetMaxTableSize_effect h
  | setMaxListSize => exact execSetMaxListSize_effect h
  | readStatus => cases h; exact .readStatus rfl
  | reset => cases h; exact .reset rfl
  | intDecode => exact execIntDecode_effect h
  | intEncode => exact execIntEncode_effect h
  | hufDecode => exact execHufDecode_effect h
  | hufEncode => cases h; exact .respond _ rfl (by simp)
  | strDecode inp => cases h; exact .start .string inp (by simp) (.inr rfl)
  | stGet => exact execStGet_effect h
  | stFindName => cases h; exact .respond _ rfl (by simp)
  | dtGet => exact execDtGet_effect h
  | dtAdd => exact execDtAdd_effect h
  | dtSetMax => exact execDtSetMax_effect h
  | dtFindName => exact execDtFindName_effect h
  | dtIndexOf => cases h; exact .respond _ rfl (by simp)
  | dtReadSize => cases h; exact .respond _ rfl (by simp)

/-- In a header block every first octet selects a representation (R81, R82). -/
theorem decodeField_isField (b : Octet) : (decodeField b).isField = true := by
  unfold decodeField
  split
  · rfl
  · split
    · rfl
    · split
      · rfl
      · split <;> rfl

/-- Where a string stands every first octet selects a string form (R85, R90). -/
theorem decodeString_cases (b : Octet) :
    decodeString b = .strHuf (b.extractLsb' 0 7) ∨ decodeString b = .strRaw (b.extractLsb' 0 7) := by
  unfold decodeString
  split
  · exact .inl rfl
  · exact .inr rfl

/-- Everything a step can do: wait, end a block, miss a string's first octet, refuse an offer, or run an instruction on
the octet at the cursor or on the offer it accepts. -/
theorem step_cases {s t : State} (h : step s = .next t) :
    (s.nextInstr = none ∧ t = s ∧ (s.busy = false ∧ s.offers = [] ∨ s.busy = true ∧ s.scratch.activity = .idle)) ∨
    (s.nextInstr = none ∧ s.busy = true ∧ s.scratch.activity = .block ∧ s.octetAtCursor = none ∧ t = s.endBlock) ∨
    (s.nextInstr = none ∧ s.busy = true ∧ s.scratch.activity = .string ∧ s.octetAtCursor = none ∧
      t = s.raise .unexpectedEndOfStream) ∨
    (∃ o rest, s.nextInstr = none ∧ s.busy = false ∧ s.offers = o :: rest ∧
      t = (s.accept rest).raise .invalidCommand) ∨
    (∃ o rest i, s.nextInstr = some i ∧ s.busy = false ∧ s.offers = o :: rest ∧ decodeCommand o = .ok i ∧
      exec i (s.accept rest) = .next t) ∨
    (∃ b i, s.nextInstr = some i ∧ s.busy = true ∧ s.octetAtCursor = some b ∧
      (s.scratch.activity = .block ∧ i = decodeField b ∨ s.scratch.activity = .string ∧ i = decodeString b) ∧
      exec i s = .next t) := by
  unfold step at h
  unfold State.nextInstr
  cases hb : s.busy with
  | false =>
    cases ho : s.offers with
    | nil =>
      simp only [State.fetch, State.unfetched, hb, ho, Bool.false_eq_true, if_false] at h ⊢
      cases h
      simp
    | cons o rest =>
      simp only [State.fetch, hb, ho, Bool.false_eq_true, if_false, decode] at h ⊢
      cases hd : decodeCommand o with
      | error e =>
        simp only [hd] at h ⊢
        cases h
        simp [State.rejectOffer]
      | ok i =>
        simp only [hd] at h ⊢
        simp [h, hd]
  | true =>
    cases ha : s.scratch.activity with
    | idle =>
      simp only [State.fetch, State.unfetched, hb, ha, if_true] at h ⊢
      cases h
      simp
    | block =>
      cases hc : s.octetAtCursor with
      | none =>
        simp only [State.fetch, State.unfetched, hb, ha, hc, if_true] at h ⊢
        cases h
        simp
      | some b =>
        simp only [State.fetch, hb, ha, hc, if_true, decode] at h ⊢
        simp [h]
    | string =>
      cases hc : s.octetAtCursor with
      | none =>
        simp only [State.fetch, State.unfetched, hb, ha, hc, if_true] at h ⊢
        cases h
        simp
      | some b =>
        simp only [State.fetch, hb, ha, hc, if_true, decode] at h ⊢
        simp [h]

end Sys2Proof.Machine
end

