-- ==== Sys2Proof/Laws/PerInstr.lean ====
section
/-!
SUPPORT. The statements made per instruction, one lemma for each constructor of Instr. RowMatch: the octet an instruction
is fetched by, its first octet or its command code, has exactly the fixed bits of the instruction's row in
spec/opcode_table.json (30_encoding.md R81, R85, R95).
-/

namespace Sys2Proof.Laws.RowMatch

/-- The octet of the instruction's code, under the mask of its row, is the match of its row. -/
def Statement (i : Instr) : Prop := (encode i).octet &&& (tableRow i).2 = (tableRow i).1

theorem idx (i : BitVec 7) : Statement (.idx i) := by
  revert i
  unfold Statement
  decide

theorem litInc (n : BitVec 6) : Statement (.litInc n) := by
  revert n
  unfold Statement
  decide

theorem sizeUpd (n : BitVec 5) : Statement (.sizeUpd n) := by
  revert n
  unfold Statement
  decide

theorem litNever (n : BitVec 4) : Statement (.litNever n) := by
  revert n
  unfold Statement
  decide

theorem litNoidx (n : BitVec 4) : Statement (.litNoidx n) := by
  revert n
  unfold Statement
  decide

theorem strRaw (l : BitVec 7) : Statement (.strRaw l) := by
  revert l
  unfold Statement
  decide

theorem strHuf (l : BitVec 7) : Statement (.strHuf l) := by
  revert l
  unfold Statement
  decide

theorem decodeBlock (inp : OctetString) : Statement (.decodeBlock inp) := by
  show (0x01 : Octet) &&& 0xFF = 0x01
  decide

theorem setMaxTableSize (n : Nat) : Statement (.setMaxTableSize n) := by
  show (0x02 : Octet) &&& 0xFF = 0x02
  decide

theorem setMaxListSize (n : Nat) : Statement (.setMaxListSize n) := by
  show (0x03 : Octet) &&& 0xFF = 0x03
  decide

theorem readStatus : Statement .readStatus := by
  show (0x04 : Octet) &&& 0xFF = 0x04
  decide

theorem reset : Statement .reset := by
  show (0x05 : Octet) &&& 0xFF = 0x05
  decide

theorem intDecode (n : Nat) (inp : OctetString) : Statement (.intDecode n inp) := by
  show (0x10 : Octet) &&& 0xFF = 0x10
  decide

theorem intEncode (n flags v : Nat) : Statement (.intEncode n flags v) := by
  show (0x11 : Octet) &&& 0xFF = 0x11
  decide

theorem hufDecode (inp : OctetString) : Statement (.hufDecode inp) := by
  show (0x20 : Octet) &&& 0xFF = 0x20
  decide

theorem hufEncode (inp : OctetString) : Statement (.hufEncode inp) := by
  show (0x21 : Octet) &&& 0xFF = 0x21
  decide

theorem strDecode (inp : OctetString) : Statement (.strDecode inp) := by
  show (0x30 : Octet) &&& 0xFF = 0x30
  decide

theorem stGet (i : Nat) : Statement (.stGet i) := by
  show (0x40 : Octet) &&& 0xFF = 0x40
  decide

theorem stFindName (name : OctetString) : Statement (.stFindName name) := by
  show (0x41 : Octet) &&& 0xFF = 0x41
  decide

theorem dtGet (i : Nat) : Statement (.dtGet i) := by
  show (0x50 : Octet) &&& 0xFF = 0x50
  decide

theorem dtAdd (name value : OctetString) : Statement (.dtAdd name value) := by
  show (0x51 : Octet) &&& 0xFF = 0x51
  decide

theorem dtSetMax (n : Nat) : Statement (.dtSetMax n) := by
  show (0x52 : Octet) &&& 0xFF = 0x52
  decide

theorem dtFindName (name : OctetString) : Statement (.dtFindName name) := by
  show (0x53 : Octet) &&& 0xFF = 0x53
  decide

theorem dtIndexOf (seq : Nat) : Statement (.dtIndexOf seq) := by
  show (0x54 : Octet) &&& 0xFF = 0x54
  decide

theorem dtReadSize : Statement .dtReadSize := by
  show (0x55 : Octet) &&& 0xFF = 0x55
  decide

end Sys2Proof.Laws.RowMatch
end

