-- ==== Sys2Proof/Tests/Slice0.lean ====
section
/-!
SUPPORT. Tests. Expected results come from spec/95_test_vectors.md, from the worked examples of the rules, or by hand from
the encoding tables; each theorem names its source. Then, for every obligation that has hypotheses, a concrete state and
operands that meet all of them, clause by clause and at the ends of the ranges.
-/

namespace Sys2Proof.Tests

open Sys2Proof.Machine

/-! ### Helpers -/

/-- The block after reset, with one command offered. -/
def offering (code : Octet) (operands : List Operand) : State := { State.reset with offers := [⟨code, operands⟩] }

/-- The block inside DECODE_BLOCK, the cursor on the first octet of `inp`. -/
def inBlock (t : DynTable) (inp : OctetString) : State := { State.reset with busy := true, dt := t }.start .block inp

/-- The block inside STR_DECODE, the cursor on the first octet of `inp`. -/
def inString (inp : OctetString) : State := { State.reset with busy := true }.start .string inp

/-- What a step answers. -/
def answer : Out → Option Response
  | .next s => s.responses.getLast?
  | _ => none

/-- Something read from the next state. -/
def after {α : Type} (f : State → α) : Out → Option α
  | .next s => some (f s)
  | _ => none

/-- Entries, size and next number of the table. -/
def tableView (s : State) : List DynEntry × Nat × Nat := (s.dt.entries, s.dt.curSize, s.dt.seqNext)

/-- A table with the entries `("a", "1", 1)` (older) and `("b", "2", 2)`, both of size 34, under a cap. -/
def table (cap : BitVec 31) : DynTable :=
  { ((DynTable.reset 1).push (ascii "a") (ascii "1")).push (ascii "b") (ascii "2") with maxSize := cap }

theorem table_inv {cap : BitVec 31} (h : 68 ≤ cap.toNat) : (table cap).Inv := by
  have h1 := DynTable.push_coherent (DynTable.push_coherent (DynTable.reset_inv (cap := 1) (by decide)).toCoherent
    (ascii "a") (ascii "1")) (ascii "b") (ascii "2")
  exact ⟨⟨h1.size_eq, h1.seq_consecutive, h1.seq_lt, h1.seq_newest, h1.name_find, h1.name_keys, h1.name_nodup,
    h1.ring_holds⟩, Nat.le_trans (Nat.le_of_eq rfl) h⟩

theorem empty_inv (cap : BitVec 31) : ({ DynTable.reset 1 with maxSize := cap } : DynTable).Inv := by
  have h1 := DynTable.reset_inv (cap := 1) (by decide)
  exact ⟨⟨h1.size_eq, h1.seq_consecutive, h1.seq_lt, h1.seq_newest, h1.name_find, h1.name_keys, h1.name_nodup,
    h1.ring_holds⟩, Nat.zero_le _⟩

/-- The block between commands, with that table. -/
def withTwo (cap : BitVec 31) : State := { State.reset with dt := table cap }

theorem idle_state_inv {t : DynTable} (h : t.Inv) (offers : List Offer) :
    ({ State.reset with dt := t, offers := offers } : State).Inv where
  table := h
  init_cap := Nat.one_pos
  last_err := ⟨Nat.zero_le _, fun h => by cases h⟩
  sticky := fun h => absurd rfl h
  idle_empty := fun _ => rfl
  busy_active := fun h => by cases h
  cursor_le := Nat.le_refl 0
  total_eq := fun _ => rfl
  total_lt := fun h => by cases h

theorem inBlock_inv {t : DynTable} (h : t.Inv) (inp : OctetString) : (inBlock t inp).Inv where
  table := h
  init_cap := Nat.one_pos
  last_err := ⟨Nat.zero_le _, fun h => by cases h⟩
  sticky := fun h => absurd rfl h
  idle_empty := fun h => by cases h
  busy_active := fun _ h => by cases h
  cursor_le := Nat.zero_le _
  total_eq := fun _ => rfl
  total_lt := fun h => by cases h

/-! ### WellFormed: an ill-formed term for each check, and the ends of each range (R95, R329) -/

theorem test_wf_31_bit_operands_above_INT_MAX :
    WellFormed (.setMaxTableSize 2147483648) = false ∧ WellFormed (.setMaxListSize 2147483648) = false ∧
    WellFormed (.stGet 2147483648) = false ∧ WellFormed (.dtGet 2147483648) = false ∧
    WellFormed (.dtSetMax 2147483648) = false ∧ WellFormed (.intEncode 5 0 2147483648) = false := by decide

theorem test_wf_width_outside_1_to_8 :
    WellFormed (.intDecode 0 []) = false ∧ WellFormed (.intDecode 9 []) = false ∧
    WellFormed (.intEncode 0 0 0) = false ∧ WellFormed (.intEncode 9 0 0) = false := by decide

theorem test_wf_flags_not_an_octet : WellFormed (.intEncode 5 256 0) = false := by decide

theorem test_wf_ends_of_the_ranges :
    WellFormed (.setMaxTableSize 2147483647) = true ∧ WellFormed (.intDecode 1 []) = true ∧
    WellFormed (.intDecode 8 []) = true ∧ WellFormed (.intEncode 8 255 2147483647) = true ∧
    WellFormed (.stGet 0) = true := by decide

/-! ### Decoding: words written out bit by bit from R81, R85 and R95 -/

theorem test_decode_idx : decode (.field 0b1_0000010) = .ok (.idx 2) := by decide
theorem test_decode_litInc : decode (.field 0b01_000001) = .ok (.litInc 1) := by decide
theorem test_decode_sizeUpd : decode (.field 0b001_11111) = .ok (.sizeUpd 31) := by decide
theorem test_decode_litNever : decode (.field 0b0001_0000) = .ok (.litNever 0) := by decide
theorem test_decode_litNoidx : decode (.field 0b0000_0100) = .ok (.litNoidx 4) := by decide
theorem test_decode_strRaw : decode (.string 0b0_0001111) = .ok (.strRaw 15) := by decide
theorem test_decode_strHuf : decode (.string 0b1_0001100) = .ok (.strHuf 12) := by decide

theorem test_decode_commands_control :
    decode (.command ⟨0b00000001, [.octets [0x82]]⟩) = .ok (.decodeBlock [0x82]) ∧
    decode (.command ⟨0b00000010, [.num 110]⟩) = .ok (.setMaxTableSize 110) ∧
    decode (.command ⟨0b00000011, [.num 57]⟩) = .ok (.setMaxListSize 57) ∧
    decode (.command ⟨0b00000100, []⟩) = .ok .readStatus ∧
    decode (.command ⟨0b00000101, []⟩) = .ok .reset := by decide

theorem test_decode_commands_units :
    decode (.command ⟨0b00010000, [.num 5, .octets [0x0a]]⟩) = .ok (.intDecode 5 [0x0a]) ∧
    decode (.command ⟨0b00010001, [.num 5, .num 0, .num 10]⟩) = .ok (.intEncode 5 0 10) ∧
    decode (.command ⟨0b00100000, [.octets [0x07]]⟩) = .ok (.hufDecode [0x07]) ∧
    decode (.command ⟨0b00100001, [.octets [0x30]]⟩) = .ok (.hufEncode [0x30]) ∧
    decode (.command ⟨0b00110000, [.octets [0x00]]⟩) = .ok (.strDecode [0x00]) ∧
    decode (.command ⟨0b01000000, [.num 2]⟩) = .ok (.stGet 2) ∧
    decode (.command ⟨0b01000001, [.octets []]⟩) = .ok (.stFindName []) := by decide

theorem test_decode_commands_dynamic_table :
    decode (.command ⟨0b01010000, [.num 62]⟩) = .ok (.dtGet 62) ∧
    decode (.command ⟨0b01010001, [.octets [0x61], .octets [0x31]]⟩) = .ok (.dtAdd [0x61] [0x31]) ∧
    decode (.command ⟨0b01010010, [.num 110]⟩) = .ok (.dtSetMax 110) ∧
    decode (.command ⟨0b01010011, [.octets [0x61]]⟩) = .ok (.dtFindName [0x61]) ∧
    decode (.command ⟨0b01010100, [.num 3]⟩) = .ok (.dtIndexOf 3) ∧
    decode (.command ⟨0b01010101, []⟩) = .ok .dtReadSize := by decide

/-- R97, R329: a code outside the table, a missing operand. -/
theorem test_decode_refuses :
    decode (.command ⟨0x00, []⟩) = .error (.unknownCommandCode 0x00) ∧
    decode (.command ⟨0x56, []⟩) = .error (.unknownCommandCode 0x56) ∧
    decode (.command ⟨0x51, [.octets []]⟩) = .error (.operandsNotOfTheRow 0x51) := by decide

/-- Table words: a command's code at the command port, another octet in a header block (notes/assumptions/5.md). -/
theorem test_decodeTableWord :
    decodeTableWord 8 0x82 = some (.idx 2) ∧ decodeTableWord 8 0x3f = some (.sizeUpd 31) ∧
    decodeTableWord 8 0x55 = some .dtReadSize ∧ decodeTableWord 8 0x51 = some (.dtAdd [] []) := by decide

/-- A word placed by withFetchWord after reset is what the next step runs (R282: `82` is `:method GET`). -/
theorem test_withFetchWord_field :
    after (fun s => s.scratch.out) (step (State.reset.withFetchWord 8 0x82)) =
      some [⟨ascii ":method", ascii "GET", false⟩] := by decide

theorem test_withFetchWord_command :
    answer (step (State.reset.withFetchWord 8 0x55)) = some (.ok (.sizes 0 2147483647 0)) := by decide

/-! ### Representations (95_test_vectors.md section 2.6 and the rules' worked examples) -/

/-- R283: with LIST_CAP = 42, `82` (size 42) reaches the cap. -/
theorem test_idx_cap_42 :
    answer (exec (.idx 2) { inBlock (DynTable.reset 1) [0x82] with listCapEn := true, listCap := 42 }) =
      some (.error .headerListSizeExceeded) := by decide

/-- R282: `80` and, on an empty table, `be` give InvalidTableIndex. -/
theorem test_idx_invalid :
    answer (exec (.idx 0) (inBlock (DynTable.reset 1) [0x80])) = some (.error .invalidTableIndex) ∧
    answer (exec (.idx 62) (inBlock (DynTable.reset 1) [0xbe])) = some (.error .invalidTableIndex) := by decide

/-- R285: `41 0f "www.example.com"` inserts an entry of size 57. -/
theorem test_litInc :
    after tableView (exec (.litInc 1) (inBlock (DynTable.reset 1) (0x41 :: 0x0f :: ascii "www.example.com"))) =
      some ([⟨ascii ":authority", ascii "www.example.com", 1⟩], 57, 2) := by decide

/-- R285, R242: an entry larger than the cap is still emitted, and the table ends up empty. -/
theorem test_litInc_oversized :
    after (fun s => (s.scratch.out, tableView s))
      (exec (.litInc 0) (inBlock (table 68) ([0x40, 0x01, 0x61, 0x24] ++ List.replicate 36 0x62))) =
      some ([⟨ascii "a", List.replicate 36 0x62, false⟩], [], 0, 3) := by decide

/-- R287: with CFG_MAX_TABLE_SIZE = 100, `3f e1 1f` (4096) sets DT_MAX_SIZE to 100. -/
theorem test_sizeUpd_clamps :
    after (fun s => (s.dt.maxSize, s.scratch.pos, s.scratch.out))
      (exec (.sizeUpd 31) { inBlock (DynTable.reset 1) [0x3f, 0xe1, 0x1f] with cfgMaxTableSize := 100 }) =
      some (100, 3, []) := by decide

/-- R287: `20` empties the table. -/
theorem test_sizeUpd_zero :
    after tableView (exec (.sizeUpd 0) (inBlock (table 68) [0x20])) = some ([], 0, 3) := by decide

/-- R286: the password example (RFC 7541 C.2.3). -/
theorem test_litNever :
    after (fun s => (s.scratch.out, s.dt.entries))
      (exec (.litNever 0) (inBlock (DynTable.reset 1) (0x10 :: 0x08 :: ascii "password" ++ 0x06 :: ascii "secret"))) =
      some ([⟨ascii "password", ascii "secret", true⟩], []) := by decide

/-- R288: `04 0c "/sample/path"` (RFC 7541 C.2.2), with the name of the referenced entry only. -/
theorem test_litNoidx :
    after (fun s => (s.scratch.out, s.scratch.pos))
      (exec (.litNoidx 4) (inBlock (DynTable.reset 1) (0x04 :: 0x0c :: ascii "/sample/path"))) =
      some ([⟨ascii ":path", ascii "/sample/path", false⟩], 14) := by decide

/-- R284: an invalid name index comes before the missing value. -/
theorem test_litNoidx_name_first :
    answer (exec (.litNoidx 15) (inBlock (DynTable.reset 1) [0x0f, 0x2f])) =
      some (.error .invalidTableIndex) := by decide

/-! ### Strings (95_test_vectors.md section 2.3) -/

theorem test_strRaw :
    answer (exec (.strRaw 3) (inString [0x03, 0x61, 0x62, 0x63, 0x64])) = some (.ok (.string (ascii "abc") 4)) ∧
    answer (exec (.strRaw 3) (inString [0x03, 0x61, 0x62])) = some (.error .unexpectedEndOfStream) := by
  decide

/-- The document's §8 example. -/
theorem test_strHuf :
    answer (exec (.strHuf 12)
      (inString [0x8c, 0xf1, 0xe3, 0xc2, 0xe5, 0xf2, 0x3a, 0x6b, 0xa0, 0xab, 0x90, 0xf4, 0xff])) =
      some (.ok (.string (ascii "www.example.com") 13)) := by decide

theorem test_strHuf_strict :
    answer (exec (.strHuf 1) (inString [0x81, 0xff])) = some (.ok (.string [] 2)) ∧
    answer (exec (.strHuf 1) { inString [0x81, 0xff] with hufStrictEnd := true }) =
      some (.error .invalidHuffmanPadding) := by decide

/-- R196: an empty operand has no first octet. -/
theorem test_strDecode_empty :
    answer (step (inString [])) = some (.error .unexpectedEndOfStream) ∧
    after (fun s => (s.busy, s.scratch.activity, s.scratch.input)) (step (offering 0x30 [.octets [0x00]])) =
      some (true, .string, [0x00]) := by decide

/-! ### Commands -/

/-- R280, R291: the operand is latched; an empty block gives `[]`. -/
theorem test_decodeBlock :
    after (fun s => (s.busy, s.offers, s.scratch)) (step (offering 0x01 [.octets [0x82]])) =
      some (true, [], { activity := .block, input := [0x82], pos := 0, out := [], total := 0 }) ∧
    answer (step (inBlock (DynTable.reset 1) [])) = some (.ok (.headers [])) := by decide

/-- R300: the cap applies at once, and oldest entries go first. -/
theorem test_setMaxTableSize :
    after (fun s => (s.cfgMaxTableSize, s.dt.maxSize, tableView s)) (exec (.setMaxTableSize 40) (withTwo 100)) =
      some (40, 40, [⟨ascii "b", ascii "2", 2⟩], 34, 3) := by decide

theorem test_setMaxTableSize_refused :
    answer (exec (.setMaxTableSize 2147483648) State.reset) = some (.error .invalidCommand) := by decide

theorem test_setMaxListSize :
    after (fun s => (s.listCapEn, s.listCap)) (exec (.setMaxListSize 57) State.reset) = some (true, 57) := by
  decide

/-- R302: it reports the command before it and writes nothing. -/
theorem test_readStatus :
    after (fun s => (s.responses, s.lastErr)) (exec .readStatus { State.reset with lastErr := 5, errSticky := true }) =
      some ([.ok (.status 5 true)], 5) := by decide

theorem test_reset :
    after (fun s => (tableView s, s.lastErr, s.errSticky, s.listCapEn, s.dt.maxSize))
      (exec .reset { withTwo 100 with lastErr := 5, errSticky := true, listCapEn := true }) =
      some (([], 0, 1), 0, false, false, 2147483647) := by decide

/-- Section 2.1: `1f 9a 0a 55` gives (1337, 3); five continuation octets with bit 7 set reach the limit first (D24). -/
theorem test_intDecode :
    answer (exec (.intDecode 5 [0x1f, 0x9a, 0x0a, 0x55]) State.reset) = some (.ok (.int 1337 3)) ∧
    answer (exec (.intDecode 5 [0x1f, 0x80, 0x80, 0x80, 0x80, 0x80]) State.reset) =
      some (.error .integerLimitExceeded) ∧
    answer (exec (.intDecode 5 [0x1f, 0x80, 0x80, 0x80, 0x80]) State.reset) =
      some (.error .unexpectedEndOfStream) := by decide

/-- Section 2.1: the largest accepted value, and one above it. -/
theorem test_intDecode_limit :
    answer (exec (.intDecode 5 [0x1f, 0xe0, 0xff, 0xff, 0xff, 0x07]) State.reset) = some (.ok (.int 2147483647 6)) ∧
    answer (exec (.intDecode 5 [0x1f, 0xe1, 0xff, 0xff, 0xff, 0x07]) State.reset) =
      some (.error .integerLimitExceeded) := by decide

theorem test_intEncode :
    answer (exec (.intEncode 5 0x20 4096) State.reset) = some (.ok (.octets [0x3f, 0xe1, 0x1f])) ∧
    answer (exec (.intEncode 1 0 2147483647) State.reset) =
      some (.ok (.octets [0x01, 0xfe, 0xff, 0xff, 0xff, 0x07])) ∧
    answer (exec (.intEncode 9 0 0) State.reset) = some (.error .invalidCommand) := by decide

/-- R166: an EOS that only the drain reaches, and bad padding. -/
theorem test_hufDecode_errors :
    answer (exec (.hufDecode [0xfe, 0x3f, 0xff, 0xff, 0xff]) State.reset) = some (.error .eosDecodedLiterally) ∧
    answer (exec (.hufDecode [0x00]) State.reset) = some (.error .invalidHuffmanPadding) := by decide +kernel

/-- Section 2.2: codes of 13 and 19 bits. -/
theorem test_hufDecode_long_codes :
    answer (exec (.hufDecode [0xff, 0xc7]) State.reset) = some (.ok (.octets [0x00])) ∧
    answer (exec (.hufDecode [0xff, 0xfe, 0x3f]) State.reset) = some (.ok (.octets [0xc3])) := by decide +kernel

theorem test_hufEncode :
    answer (exec (.hufEncode (ascii "www.example.com")) State.reset) =
      some (.ok (.octets [0xf1, 0xe3, 0xc2, 0xe5, 0xf2, 0x3a, 0x6b, 0xa0, 0xab, 0x90, 0xf4, 0xff])) ∧
    answer (exec (.hufEncode [0xff]) State.reset) = some (.ok (.octets [0xff, 0xff, 0xfb, 0xbf])) := by decide

theorem test_stGet :
    answer (exec (.stGet 16) State.reset) = some (.ok (.entry (ascii "accept-encoding") (ascii "gzip, deflate"))) ∧
    answer (exec (.stGet 61) State.reset) = some (.ok (.entry (ascii "www-authenticate") [])) ∧
    answer (exec (.stGet 62) (withTwo 100)) = some (.error .invalidTableIndex) := by decide

theorem test_stFindName :
    answer (exec (.stFindName (ascii ":method")) State.reset) =
      some (.ok (.staticMatches [(2, ascii "GET"), (3, ascii "POST")])) ∧
    answer (exec (.stFindName (ascii ":METHOD")) State.reset) = some (.ok (.staticMatches [])) := by decide

theorem test_dtGet :
    answer (exec (.dtGet 61) (withTwo 100)) = some (.ok (.entry (ascii "www-authenticate") [])) ∧
    answer (exec (.dtGet 62) (withTwo 100)) = some (.ok (.entry (ascii "b") (ascii "2"))) ∧
    answer (exec (.dtGet 63) (withTwo 100)) = some (.ok (.entry (ascii "a") (ascii "1"))) ∧
    answer (exec (.dtGet 64) (withTwo 100)) = some (.error .invalidTableIndex) := by decide

/-- R233: an entry whose size is the cap is inserted and evicts every older one (E9). -/
theorem test_dtAdd_exact_fit :
    after tableView (exec (.dtAdd (ascii "ccc") (List.replicate 33 0x64)) (withTwo 68)) =
      some ([⟨ascii "ccc", List.replicate 33 0x64, 3⟩], 68, 4) := by decide

/-- R242: an entry one octet larger than the cap clears the table and takes no number. -/
theorem test_dtAdd_oversized :
    after tableView (exec (.dtAdd (ascii "ccc") (List.replicate 34 0x64)) (withTwo 68)) = some ([], 0, 3) := by
  decide

/-- R243: a cap of 0 empties the table; a cap of DT_CUR_SIZE evicts nothing. -/
theorem test_dtSetMax :
    after tableView (exec (.dtSetMax 0) (withTwo 100)) = some ([], 0, 3) ∧
    after (fun s => s.dt.entries.length) (exec (.dtSetMax 68) (withTwo 100)) = some 2 := by decide

/-- The example of R247. -/
theorem test_dtFindName :
    answer (exec (.dtFindName (ascii "a"))
      { State.reset with dt := { (table 200).push (ascii "a") (ascii "3") with maxSize := 200 } }) =
      some (.ok (.dynMatches [(62, 3, ascii "3"), (64, 1, ascii "1")])) ∧
    answer (exec (.dtFindName (ascii "c")) (withTwo 100)) = some (.ok (.dynMatches [])) := by decide

/-- R248: the newest is 0; a number not issued and one of an evicted entry give −1. -/
theorem test_dtIndexOf :
    answer (exec (.dtIndexOf 2) (withTwo 100)) = some (.ok (.position 0)) ∧
    answer (exec (.dtIndexOf 1) (withTwo 100)) = some (.ok (.position 1)) ∧
    answer (exec (.dtIndexOf 3) (withTwo 100)) = some (.ok (.position (-1))) ∧
    answer (exec (.dtIndexOf 0) (withTwo 100)) = some (.ok (.position (-1))) := by decide

theorem test_dtReadSize :
    answer (exec .dtReadSize State.reset) = some (.ok (.sizes 0 2147483647 0)) ∧
    answer (exec .dtReadSize (withTwo 100)) = some (.ok (.sizes 68 100 2)) := by decide

/-- R97, R329: an unknown code changes only the status. -/
theorem test_unknown_command :
    after (fun s => (s.responses, s.lastErr, s.errSticky, s.busy)) (step (offering 0x06 [])) =
      some ([.error .invalidCommand], 8, true, false) := by decide

/-! ### The hypotheses of the obligations can be met -/

theorem witness_StepRunsTheDecodedInstruction :
    ((offering 0x55 []).busy = false ∧ (offering 0x55 []).offers = ⟨0x55, []⟩ :: []) ∧
    ((inBlock (table 68) [0x82]).busy = true ∧ (inBlock (table 68) [0x82]).scratch.activity = .block ∧
      (inBlock (table 68) [0x82]).scratch.input[(inBlock (table 68) [0x82]).scratch.pos]? = some 0x82) ∧
    ((inString [0x00]).busy = true ∧ (inString [0x00]).scratch.activity = .string ∧
      (inString [0x00]).scratch.input[(inString [0x00]).scratch.pos]? = some 0x00) ∧
    ((offering 0x55 []).fetch = some (.command ⟨0x55, []⟩, (offering 0x55 []).accept []) ∧
      decode (.command ⟨0x55, []⟩) = .ok .dtReadSize) := by decide

theorem witness_StepThatRunsNoInstruction :
    ((inBlock (table 68) []).busy = true ∧ (inBlock (table 68) []).scratch.activity = .block ∧
      (inBlock (table 68) []).scratch.input.length ≤ (inBlock (table 68) []).scratch.pos) ∧
    ((inString []).busy = true ∧ (inString []).scratch.activity = .string ∧
      (inString []).scratch.input.length ≤ (inString []).scratch.pos) ∧
    ((offering 0x06 []).busy = false ∧ (offering 0x06 []).offers = ⟨0x06, []⟩ :: [] ∧
      decodeCommand ⟨0x06, []⟩ = .error (.unknownCommandCode 0x06)) ∧
    (State.reset.busy = false ∧ State.reset.offers = []) := by decide

theorem witness_DecodeAndEncodeAgree :
    decode (.field 0xff) = .ok (.idx 127) ∧ decode (.string 0x7f) = .ok (.strRaw 127) ∧
    decode (.command ⟨0x54, [.num 2147483648]⟩) = .ok (.dtIndexOf 2147483648) := by decide

/-- The ends of the ranges: N = 1 and 8, v = 0 and INT_MAX, flags above bit N − 1. -/
theorem witness_IntDecodeOfIntEncode :
    (1 ≤ 1 ∧ 1 ≤ 8 ∧ 0xfe < 256 ∧ 0xfe &&& (2 ^ 1 - 1) = 0 ∧ 2147483647 ≤ Config.intMax) ∧
    (1 ≤ 8 ∧ 8 ≤ 8 ∧ 0 < 256 ∧ 0 &&& (2 ^ 8 - 1) = 0 ∧ 0 ≤ Config.intMax) := by decide

/-- Both sides of the equivalence: one octet, and five continuation octets up to INT_MAX. -/
theorem witness_IntDecodeAcceptsExactly :
    ((1 : Nat) ≤ 5 ∧ (5 : Nat) ≤ 8) ∧ intDecode 5 [0x1e] 0 = .ok (30, 1) ∧
    intDecode 5 [0x1f, 0xe0, 0xff, 0xff, 0xff, 0x07] 0 = .ok (2147483647, 6) := by decide

theorem witness_IntDecodeRaises :
    ([] : OctetString).length ≤ 0 ∧
    ((0x3f : Octet).toNat % 2 ^ 6 = 2 ^ 6 - 1 ∧ ([0x80, 0x80, 0x80, 0x80] : OctetString).length < 5 ∧
      ∀ c ∈ ([0x80, 0x80, 0x80, 0x80] : OctetString), c.getLsbD 7 = true) ∧
    ((0x1f : Octet).toNat % 2 ^ 5 = 2 ^ 5 - 1 ∧ ([0x80, 0x80, 0x80, 0x80, 0x80] : OctetString).length = 5 ∧
      ∀ c ∈ ([0x80, 0x80, 0x80, 0x80, 0x80] : OctetString), c.getLsbD 7 = true) ∧
    ((0x1f : Octet).toNat % 2 ^ 5 = 2 ^ 5 - 1 ∧ ([0xe1, 0xff, 0xff, 0xff] : OctetString).length ≤ 4 ∧
      (∀ c ∈ ([0xe1, 0xff, 0xff, 0xff] : OctetString), c.getLsbD 7 = true) ∧ (0x07 : Octet).getLsbD 7 = false ∧
      2 ^ 5 - 1 + ((List.range (([0xe1, 0xff, 0xff, 0xff] : OctetString).length + 1)).map fun k =>
        (([0xe1, 0xff, 0xff, 0xff] ++ [0x07] : OctetString).getD k 0).toNat % 128 * 2 ^ (7 * k)).sum
          > Config.intMax) := by decide

theorem witness_OneOctetIntegers :
    ((1 : Nat) ≤ 8 ∧ ([0xfe] : OctetString)[0]? = some 0xfe ∧ (0xfe : Octet).toNat % 2 ^ 8 < 2 ^ 8 - 1) ∧
    (([0xff, 0x00] : OctetString)[0]? = some 0xff ∧ (0xff : Octet).toNat % 2 ^ 8 = 2 ^ 8 - 1 ∧
      intDecode 8 [0xff, 0x00] 0 = .ok (255, 2)) ∧
    ((1 : Nat) ≤ 1 ∧ (0 : Nat) ≤ 2 ^ 1 - 2) ∧ ((8 : Nat) ≤ 8 ∧ (254 : Nat) ≤ 2 ^ 8 - 2) := by decide

/-- The values on both sides of 2^N − 1, and INT_MAX. -/
theorem witness_IntEncodeIsMinimal :
    ((1 : Nat) ≤ 5 ∧ (5 : Nat) ≤ 8 ∧ 255 < 256 ∧ 30 ≤ Config.intMax ∧ 30 < 2 ^ 5 - 1) ∧
    (31 ≤ Config.intMax ∧ 2 ^ 5 - 1 ≤ 31) ∧ (2147483647 ≤ Config.intMax ∧ 2 ^ 5 - 1 ≤ 2147483647) := by decide

theorem witness_IntegerCommandsComplete :
    ((1 : Nat) ≤ 1 ∧ (1 : Nat) ≤ 8 ∧ 255 < 256 ∧ 2147483647 ≤ Config.intMax) ∧
    ((8 : Nat) ≤ 8 ∧ 0 < 256 ∧ 0 &&& (2 ^ 8 - 1) = 0 ∧ 0 ≤ Config.intMax) ∧
    intDecode 5 [0x1f, 0x80, 0x00] 0 = .ok (31, 3) ∧
    intDecode 8 [] 0 = .error .unexpectedEndOfStream ∧
    intDecode 5 [0x1f, 0x80, 0x80, 0x80, 0x80, 0x80] 0 = .error .integerLimitExceeded := by decide

/-- EOS, with its last level's two free bits at their largest value, and a 5-bit code. -/
theorem witness_HuffmanTreeHoldsEveryCode :
    (hufCode[256]? = some ⟨0x3fffffff, 30⟩ ∧ 3 < 2 ^ (8 * ((30 + 7) / 8) - 30)) ∧
    (hufCode[48]? = some ⟨0x0, 5⟩ ∧ 7 < 2 ^ (8 * ((5 + 7) / 8) - 5)) := by decide

/-- Fewer than 30 ones are a proper part of the code word of EOS (R88). -/
theorem ones_proper (k : Nat) (h : k < 30) : ∃ (symbol : Nat) (u : List Bool), symbol ≤ Config.eosSymbol ∧ u ≠ [] ∧
    codeBits symbol = List.replicate k true ++ u :=
  ⟨256, List.replicate (30 - k) true, Nat.le_refl _, fun hu => absurd (congrArg List.length hu) (by simp; omega), by
    rw [List.replicate_append_replicate, Nat.add_sub_cancel' (Nat.le_of_lt h)]; decide⟩

/-- `ff ff ff ff` (EOS and two ones); `1f ff` ("a" and 11 ones); `07` ("0" and three ones). -/
theorem witness_HufDecodeSplitsIntoCodeWords :
    HufSplit (octetBits [0xff, 0xff, 0xff, 0xff]) [256] [true, true] ∧
    HufSplit (octetBits [0x1f, 0xff]) [0x61] (List.replicate 11 true) ∧
    HufSplit (octetBits [0x07]) ((ascii "0").map BitVec.toNat) (List.replicate 3 true) ∧
    hufDecode true [0x07] = .ok (ascii "0") :=
  ⟨⟨by decide, ones_proper 2 (by decide), by decide⟩, ⟨by decide, ones_proper 11 (by decide), by decide⟩,
    ⟨by decide, ones_proper 3 (by decide), by decide⟩, by decide⟩

/-- Octets that no encoder gives, and both errors: `fe` under the two values of HUF_STRICT_END, and `00`. -/
theorem witness_HuffmanCommandsComplete :
    hufDecode State.reset.hufStrictEnd [0xfe] = .ok [] ∧
    hufDecode ({ State.reset with hufStrictEnd := true } : State).hufStrictEnd [0xfe] =
      .error .invalidHuffmanPadding ∧
    hufDecode State.reset.hufStrictEnd [0x00] = .error .invalidHuffmanPadding ∧
    hufDecode State.reset.hufStrictEnd [0xff, 0xff, 0xff, 0xff] = .error .eosDecodedLiterally := by decide +kernel

theorem witness_StringResultLength :
    strContent false false 3 (ascii "abcd") 0 = .ok (ascii "abc", 3) ∧
    strContent false true 5 [0x18, 0xc6, 0x31, 0x8c, 0x63] 0 = .ok (ascii "aaaaaaaa", 5) := by decide

theorem witness_StringLengthTestComesFirst :
    intDecode 7 [0x82, 0x80] 0 = .ok (2, 1) ∧ ([0x82, 0x80] : OctetString).length - 1 < 2 := by decide

/-- A plain string at a cursor of 1, and a Huffman string; a length of two octets where one is enough, and Huffman padding
of eight ones; content cut short, the integer limit, bad padding and EOS. -/
theorem witness_StringLiteralsComplete :
    strRest false false (127 : BitVec 7).toNat ([0x7f, 0x80, 0x00] ++ List.replicate 127 0x61) (0 + 1) =
      .ok (List.replicate 127 0x61, 130) ∧
    strRest false true (1 : BitVec 7).toNat [0x81, 0xff] (0 + 1) = .ok ([], 2) ∧
    strRest true true (1 : BitVec 7).toNat [0x81, 0xff] (0 + 1) = .error .invalidHuffmanPadding ∧
    strRest false false (3 : BitVec 7).toNat [0x03, 0x61, 0x62] (0 + 1) = .error .unexpectedEndOfStream ∧
    strRest false false (127 : BitVec 7).toNat [0x7f, 0x80, 0x80, 0x80, 0x80, 0x80] (0 + 1) =
      .error .integerLimitExceeded ∧
    strRest false true (4 : BitVec 7).toNat [0x84, 0xff, 0xff, 0xff, 0xff] (0 + 1) = .error .eosDecodedLiterally ∧
    (([0xff] : OctetString).length = 1 ∧ (ascii "abc").length ≤ Config.intMax ∧
      ([0xff, 0x03, 0x61, 0x62, 0x63, 0x00] : OctetString) = [0xff] ++ strEncode (.raw (ascii "abc")) ++ [0x00]) ∧
    ((hufEncode (ascii "0")).length ≤ Config.intMax ∧
      ([0x81, 0x07] : OctetString) = [] ++ strEncode (.huf (ascii "0")) ++ []) := by decide +kernel

theorem witness_StrDecodeCompletes :
    (offering 0x30 [.octets (strEncode (.raw (ascii "abc")) ++ [0x64])]).busy = false ∧
    strFits (.raw (ascii "abc")) ∧
    (offering 0x30 [.octets (strEncode (.raw (ascii "abc")) ++ [0x64])]).offers =
      ⟨0x30, [.octets (strEncode (.raw (ascii "abc")) ++ [0x64])]⟩ :: [] ∧
    ((offering 0x30 [.octets [0x81, 0xff]]).busy = false ∧
      (offering 0x30 [.octets [0x81, 0xff]]).offers = ⟨0x30, [.octets [0x81, 0xff]]⟩ :: [] ∧
      strDecode (offering 0x30 [.octets [0x81, 0xff]]).hufStrictEnd [0x81, 0xff] 0 = .ok ([], 2)) ∧
    ((offering 0x30 [.octets []]).offers = ⟨0x30, [.octets []]⟩ :: [] ∧
      strDecode (offering 0x30 [.octets []]).hufStrictEnd [] 0 = .error .unexpectedEndOfStream) :=
  ⟨rfl, by unfold strFits; decide, rfl, by decide, by decide⟩

/-- The indices where the clauses meet: 0, 1, 61, 62, INT_MAX and INT_MAX + 1. -/
theorem witness_StaticTableCommandsComplete :
    ((1 : Nat) ≤ 1 ∧ (1 : Nat) ≤ 61) ∧ ((1 : Nat) ≤ 61 ∧ (61 : Nat) ≤ 61) ∧
    (((0 : Nat) = 0 ∨ 61 < 0) ∧ 0 ≤ Config.intMax) ∧ (((62 : Nat) = 0 ∨ 61 < 62) ∧ 62 ≤ Config.intMax) ∧
    (((2147483647 : Nat) = 0 ∨ 61 < 2147483647) ∧ 2147483647 ≤ Config.intMax) ∧ Config.intMax < 2147483648 ∧
    stEntry 61 = some (ascii "www-authenticate", []) := by decide

/-- The indices where the clauses meet, on a table of two entries: 0, 61, 62, 63, 64, INT_MAX and INT_MAX + 1. -/
theorem witness_DtGetCompletes :
    ((1 : Nat) ≤ 61 ∧ 61 ≤ Config.intMax) ∧
    ((62 : Nat) ≤ 62 ∧ (withTwo 100).dt.entries[62 - 62]? = some ⟨ascii "b", ascii "2", 2⟩) ∧
    ((62 : Nat) ≤ 63 ∧ (withTwo 100).dt.entries[63 - 62]? = some ⟨ascii "a", ascii "1", 1⟩) ∧
    61 + (withTwo 100).dt.entries.length < 64 ∧ 61 + State.reset.dt.entries.length < 62 ∧
    61 + (withTwo 100).dt.entries.length < 2147483647 ∧ Config.intMax < 2147483648 := by decide

/-- An entry whose size is exactly the cap. -/
theorem witness_DtAddInserts :
    (withTwo 68).dt.Inv ∧ entrySize (ascii "ccc") (List.replicate 33 0x64) ≤ (withTwo 68).dt.maxSize.toNat :=
  ⟨table_inv (by decide), by decide⟩

/-- An entry one octet larger than the cap. -/
theorem witness_OversizedEntryClearsTheTable :
    (withTwo 68).dt.Inv ∧ entrySize (ascii "ccc") (List.replicate 34 0x64) > (withTwo 68).dt.maxSize.toNat :=
  ⟨table_inv (by decide), by decide⟩

/-- A cap that evicts one of two entries, and the ends of the range. -/
theorem witness_EvictionKeepsTheNewestThatFit :
    (table 100).Inv ∧ 40 ≤ Config.intMax ∧ 0 ≤ Config.intMax ∧ 2147483647 ≤ Config.intMax ∧
    entriesSize ((table 100).entries.take (1 + 1)) > 40 :=
  ⟨table_inv (by decide), by decide⟩

theorem witness_CapCommandsComplete :
    (withTwo 100).dt.Inv ∧ 0 ≤ Config.intMax ∧ 2147483647 ≤ Config.intMax ∧ Config.intMax < 2147483648 :=
  ⟨table_inv (by decide), by decide⟩

theorem witness_DtIndexOfCompletes :
    (withTwo 100).dt.Inv ∧
    ((withTwo 100).dt.entries[1]? = some ⟨ascii "a", ascii "1", 1⟩ ∧ (⟨ascii "a", ascii "1", 1⟩ : DynEntry).seq = 1) ∧
    (∀ e ∈ (withTwo 100).dt.entries, e.seq ≠ 0) ∧ (∀ e ∈ (withTwo 100).dt.entries, e.seq ≠ 3) :=
  ⟨table_inv (by decide), by decide⟩

theorem witness_DtFindNameCompletes : (withTwo 100).dt.Inv ∧ (withTwo 100).dt.matches (ascii "a") ≠ some [] :=
  ⟨table_inv (by decide), by decide⟩

theorem witness_DtReadSizeCompletes : (withTwo 68).dt.Inv := table_inv (by decide)

theorem witness_LengthFromSequenceNumbers :
    (table 100).Inv ∧ (table 100).entries.head? = some ⟨ascii "b", ascii "2", 2⟩ ∧
    (table 100).entries.getLast? = some ⟨ascii "a", ascii "1", 1⟩ :=
  ⟨table_inv (by decide), by decide⟩

theorem witness_SequenceNumbersAreFreeRunning :
    ∃ t, step (offering 0x51 [.octets [], .octets []]) = .next t ∧
      (offering 0x51 [.octets [], .octets []]).nextInstr ≠ some .reset ∧ t.dt.seqNext = 2 :=
  ⟨_, rfl, by decide, rfl⟩

/-- A table whose older entry, number 1, was evicted. -/
def evicted : DynTable := (table 200).dropOldest ⟨ascii "a", ascii "1", 1⟩

theorem evicted_inv : evicted.Inv :=
  ⟨DynTable.dropOldest_coherent (table_inv (by decide)).toCoherent (by decide), by decide⟩

/-- The number 1 after its entry was evicted, in a step that inserts an entry. -/
theorem witness_StaleHandleStaysNotFound :
    ∃ s t : State, s.Inv ∧ 1 < s.dt.seqNext ∧ s.dt.indexOf 1 = -1 ∧ step s = .next t ∧
      s.nextInstr ≠ some .reset ∧ t.dt.entries.length = 2 :=
  ⟨{ State.reset with dt := evicted, offers := [⟨0x51, [.octets [], .octets []]⟩] }, _,
    idle_state_inv evicted_inv _, by decide, by decide, rfl, by decide, by decide⟩

/-- `82` without a cap, and one octet below a cap. -/
theorem witness_IdxCompletes :
    intRest 7 (2 : BitVec 7).toNat [0x82] (0 + 1) = .ok (2, 1) ∧
    (table 68).get 2 = .ok (ascii ":method", ascii "GET") ∧
    (inBlock (table 68) [0x82]).belowCap ⟨ascii ":method", ascii "GET", false⟩ ∧
    ({ inBlock (table 68) [0x82] with listCapEn := true, listCap := 43 } : State).belowCap
      ⟨ascii ":method", ascii "GET", false⟩ :=
  ⟨by decide, by decide, (fun h => by cases h), fun _ => by decide⟩

/-- `40 00 00` and `10 00 00`: an empty name and value. -/
theorem witness_LiteralsComplete :
    (inBlock (table 68) [0x40, 0x00, 0x00]).dt.Inv ∧
    literalOperands false (table 68) 6 (0 : BitVec 6).toNat [0x40, 0x00, 0x00] (0 + 1) = .ok ([], [], 3) ∧
    (inBlock (table 68) [0x40, 0x00, 0x00]).belowCap ⟨[], [], false⟩ ∧
    literalOperands false (table 68) 4 (0 : BitVec 4).toNat [0x10, 0x00, 0x00] (0 + 1) = .ok ([], [], 3) ∧
    (inBlock (table 68) [0x10, 0x00, 0x00]).belowCap ⟨[], [], true⟩ ∧
    (inBlock (table 68) [0x00, 0x00, 0x00]).belowCap ⟨[], [], false⟩ :=
  ⟨table_inv (by decide), by decide, (fun h => by cases h), by decide, (fun h => by cases h), fun h => by cases h⟩

/-- The decoded value 0, and INT_MAX, which is not clamped after reset. -/
theorem witness_SizeUpdCompletes :
    (inBlock (table 68) [0x20]).dt.Inv ∧ intRest 5 (0 : BitVec 5).toNat [0x20] (0 + 1) = .ok (0, 1) ∧
    intRest 5 (31 : BitVec 5).toNat [0x3f, 0xe0, 0xff, 0xff, 0xff, 0x07] (0 + 1) = .ok (2147483647, 6) :=
  ⟨table_inv (by decide), by decide, by decide⟩

theorem witness_RepresentationsRaise :
    intRest 7 (127 : BitVec 7).toNat [0xff] (0 + 1) = .error .unexpectedEndOfStream ∧
    (intRest 7 (0 : BitVec 7).toNat [0x80] (0 + 1) = .ok (0, 1)) ∧
    (intRest 7 (64 : BitVec 7).toNat [0xc0] (0 + 1) = .ok (64, 1) ∧ 61 + (table 68).entries.length < 64) ∧
    intRest 5 (31 : BitVec 5).toNat [0x3f] (0 + 1) = .error .unexpectedEndOfStream ∧
    literalOperands false (table 68) 6 (1 : BitVec 6).toNat [0x41] (0 + 1) = .error .unexpectedEndOfStream ∧
    literalOperands false (table 68) 4 (1 : BitVec 4).toNat [0x11] (0 + 1) = .error .unexpectedEndOfStream ∧
    (intRest 4 15 [0x1f, 0x31] (0 + 1) = .ok (64, 2) ∧ 61 + (table 68).entries.length < 64) := by decide

/-- The total that reaches the cap exactly. -/
theorem witness_ListCapReached :
    ({ inBlock (table 68) [0x82] with listCapEn := true, listCap := 42 } : State).listCapEn = true ∧
    (42 : BitVec 31).toNat ≤ 0 + entrySize (ascii ":method") (ascii "GET") ∧
    (intRest 7 (2 : BitVec 7).toNat [0x82] (0 + 1) = .ok (2, 1) ∧
      (table 68).get 2 = .ok (ascii ":method", ascii "GET")) ∧
    ((table 68).Inv ∧
      literalOperands false (table 68) 6 (2 : BitVec 6).toNat ([0x42, 0x03] ++ ascii "GET") (0 + 1) =
        .ok (ascii ":method", ascii "GET", 5)) ∧
    literalOperands false (table 68) 4 (2 : BitVec 4).toNat ([0x12, 0x03] ++ ascii "GET") (0 + 1) =
      .ok (ascii ":method", ascii "GET", 5) :=
  ⟨rfl, by decide, ⟨by decide, by decide⟩, ⟨table_inv (by decide), by decide⟩, by decide⟩

/-- A LIT_INC whose value is missing. -/
theorem witness_FailedFieldLeavesTheTable :
    ∃ t, (Instr.litInc 1).isField = true ∧ exec (.litInc 1) (inBlock (table 68) [0x41]) = .next t ∧
      t.responses = (inBlock (table 68) [0x41]).responses ++ [.error .unexpectedEndOfStream] ∧
      Err.unexpectedEndOfStream ≠ .headerListSizeExceeded :=
  ⟨_, rfl, rfl, rfl, by decide⟩

theorem witness_CursorMovesForward :
    ∃ t, (inBlock (table 68) [0x82, 0x84]).busy = true ∧
      (inBlock (table 68) [0x82, 0x84]).scratch.activity ≠ .idle ∧
      step (inBlock (table 68) [0x82, 0x84]) = .next t ∧ t.busy = true :=
  ⟨_, rfl, by decide, rfl, rfl⟩

theorem witness_DecodeBlockIsTheLoop :
    ({ State.reset with dt := table 68, offers := [⟨0x01, [.octets [0x82]]⟩] } : State).Inv ∧
    ({ State.reset with dt := table 68, offers := [⟨0x01, [.octets [0x82]]⟩] } : State).busy = false :=
  ⟨idle_state_inv (table_inv (by decide)) _, rfl⟩

/-- The block of witness_AssembledBlockDecodes: a reference, an insertion that the next line refers to, a size update. -/
def fourLines : List Line := [.idx 2, .litInc (.idx 4) (.raw (ascii "a")), .idx 62, .sizeUpd 0]

/-- Under a list cap one above the total 42 + 38 + 38. -/
theorem witness_AssembledBlockDecodes :
    ∃ (s : State) (hs : List Header) (t' : DynTable), s.dt.Inv ∧ s.busy = false ∧ (∀ l ∈ fourLines, lineFits l) ∧
      linesMeaning s.cfgMaxTableSize.toNat s.dt fourLines = some (hs, t') ∧ s.listCapEn = true ∧
      headersSize hs = 118 ∧ headersSize hs < s.listCap.toNat := by
  refine ⟨{ State.reset with listCapEn := true, listCap := 119 }, _, _, DynTable.reset_inv (by decide), rfl, ?_, rfl,
    rfl, by decide, by decide⟩
  intro l hl
  simp only [fourLines, List.mem_cons, List.not_mem_nil, or_false] at hl
  rcases hl with rfl | rfl | rfl | rfl <;> simp only [lineFits, nameFits, strFits] <;> decide

theorem witness_SetMaxListSizeCompletes :
    0 ≤ Config.intMax ∧ 2147483647 ≤ Config.intMax ∧ Config.intMax < 2147483648 := by decide

/-- A step that answers an error, one that answers READ_STATUS, and one that answers nothing. -/
theorem witness_StatusFollowsTheResponse :
    (∃ t, step (offering 0x06 []) = .next t ∧
      t.responses = (offering 0x06 []).responses ++ [.error .invalidCommand] ∧
      (offering 0x06 []).nextInstr ≠ some .readStatus ∧ (offering 0x06 []).nextInstr ≠ some .reset) ∧
    (∃ t, step (offering 0x04 []) = .next t ∧ (offering 0x04 []).nextInstr = some .readStatus) ∧
    (∃ t, step (inBlock (table 68) [0x82]) = .next t ∧
      t.responses = (inBlock (table 68) [0x82]).responses) ∧
    (∃ t, step { offering 0x55 [] with errSticky := true } = .next t ∧
      ({ offering 0x55 [] with errSticky := true } : State).nextInstr ≠ some .reset) :=
  ⟨⟨_, rfl, rfl, by decide, by decide⟩, ⟨_, rfl, by decide⟩, ⟨_, rfl, rfl⟩, ⟨_, rfl, by decide⟩⟩

theorem witness_CharacterCodingErrorIsNeverRaised : ∃ t, step (offering 0x06 []) = .next t := ⟨_, rfl⟩

/-- An unknown code, a missing operand, and an operand one above its range. -/
theorem witness_RefusedOffersChangeOnlyTheStatus :
    (offering 0x06 []).Inv ∧ (offering 0x06 []).busy = false ∧ (offering 0x06 []).offers = ⟨0x06, []⟩ :: [] ∧
    decodeCommand ⟨0x06, []⟩ = .error (.unknownCommandCode 0x06) ∧
    decodeCommand ⟨0x52, []⟩ = .error (.operandsNotOfTheRow 0x52) ∧
    (decodeCommand ⟨0x52, [.num 2147483648]⟩ = .ok (.dtSetMax 2147483648) ∧
      WellFormed (.dtSetMax 2147483648) = false) :=
  ⟨idle_state_inv (DynTable.reset_inv (by decide)) _, by decide⟩

theorem witness_OffersWaitWhileBusy :
    (∃ t, step { inBlock (table 68) [0x82] with offers := [⟨0x55, []⟩] } = .next t ∧
      ({ inBlock (table 68) [0x82] with offers := [⟨0x55, []⟩] } : State).busy = true) ∧
    (∃ t, step (offering 0x55 []) = .next t ∧ (offering 0x55 []).busy = false ∧
      (offering 0x55 []).offers = ⟨0x55, []⟩ :: []) ∧
    (∃ t, step State.reset = .next t ∧ State.reset.busy = false ∧ State.reset.offers = []) :=
  ⟨⟨_, rfl, rfl⟩, ⟨_, rfl, rfl, rfl⟩, ⟨_, rfl, rfl, rfl⟩⟩

theorem witness_ResponsesOnlyGrow :
    (∃ t, step (inBlock (table 68) [0x82]) = .next t) ∧ ∃ t, step (inBlock (table 68) []) = .next t :=
  ⟨⟨_, rfl⟩, ⟨_, rfl⟩⟩

theorem witness_QueriesFrame :
    ∃ t, (Instr.dtGet 62).isQuery = true ∧ exec (.dtGet 62) (withTwo 68) = .next t := ⟨_, rfl, rfl⟩

theorem witness_ReadingFieldsFrame :
    (∃ t, exec (.idx 2) (inBlock (table 68) [0x82]) = .next t) ∧
    (∃ t, exec (.litNever 0) (inBlock (table 68) [0x10, 0x00, 0x00]) = .next t) ∧
    ∃ t, exec (.litNoidx 0) (inBlock (table 68) [0x00, 0x00, 0x00]) = .next t := ⟨⟨_, rfl⟩, ⟨_, rfl⟩, ⟨_, rfl⟩⟩

theorem witness_WritingFieldsFrame :
    (∃ t, exec (.litInc 0) (inBlock (table 68) [0x40, 0x00, 0x00]) = .next t) ∧
    ∃ t, exec (.sizeUpd 0) (inBlock (table 68) [0x20]) = .next t := ⟨⟨_, rfl⟩, ⟨_, rfl⟩⟩

theorem witness_WritingCommandsFrame :
    (∃ t, exec (.dtAdd [] []) (withTwo 68) = .next t) ∧ (∃ t, exec (.dtSetMax 0) (withTwo 68) = .next t) ∧
    (∃ t, exec (.setMaxTableSize 0) (withTwo 68) = .next t) ∧
    (∃ t, exec (.setMaxListSize 0) (withTwo 68) = .next t) ∧ (∃ t, exec (.decodeBlock []) (withTwo 68) = .next t) ∧
    ∃ t, exec (.strDecode []) (withTwo 68) = .next t :=
  ⟨⟨_, rfl⟩, ⟨_, rfl⟩, ⟨_, rfl⟩, ⟨_, rfl⟩, ⟨_, rfl⟩, ⟨_, rfl⟩⟩

/-- A step that changes the table, one that changes CFG_MAX_TABLE_SIZE, and one that changes the list cap. -/
theorem witness_OnlyNamedInstructionsWrite :
    (∃ t, step (offering 0x51 [.octets [], .octets []]) = .next t ∧
      t.dt ≠ (offering 0x51 [.octets [], .octets []]).dt) ∧
    (∃ t, step (offering 0x02 [.num 0]) = .next t ∧ t.cfgMaxTableSize ≠ (offering 0x02 [.num 0]).cfgMaxTableSize) ∧
    (∃ t, step (offering 0x03 [.num 0]) = .next t ∧ t.listCapEn ≠ (offering 0x03 [.num 0]).listCapEn) :=
  ⟨⟨_, rfl, by decide⟩, ⟨_, rfl, by decide⟩, ⟨_, rfl, by decide⟩⟩

theorem witness_StepKeepsTheInvariant :
    (∃ t, (inBlock (table 68) [0x40, 0x00, 0x00]).Inv ∧ step (inBlock (table 68) [0x40, 0x00, 0x00]) = .next t) ∧
    ∃ t, (offering 0x05 []).Inv ∧ step (offering 0x05 []) = .next t :=
  ⟨⟨_, inBlock_inv (table_inv (by decide)) _, rfl⟩, ⟨_, idle_state_inv (DynTable.reset_inv (by decide)) _, rfl⟩⟩

theorem witness_InvariantStatesStep : (inBlock (table 68) [0x20]).Inv := inBlock_inv (table_inv (by decide)) _

theorem witness_EveryCommandEnds :
    (inBlock (table 68) [0x82, 0x84]).Inv ∧ (inBlock (table 68) [0x82, 0x84]).busy = true :=
  ⟨inBlock_inv (table_inv (by decide)) _, rfl⟩

theorem witness_RingIsUnobservable :
    (withTwo 68).SameButRing { withTwo 68 with dt := { (withTwo 68).dt with ring := ⟨7, 2, 0, []⟩ } } ∧
    (withTwo 68).Inv ∧ 1 < (withTwo 68).dt.entries.length :=
  ⟨⟨_, rfl⟩, idle_state_inv (table_inv (by decide)) _, by decide⟩

end Sys2Proof.Tests
end

section
/-!
PROOFS. Who writes the dynamic table and the configuration (10_state.md R5, R24, R25; 70_reset_and_hazards.md R363): one
predicate on the states before and after, shown for what exec can do (`exec_effect`) and from there for a step
(`step_cases`).
-/

namespace Sys2Proof.Machine

/-! ### Emitting a triple leaves the table and the configuration -/

@[simp] theorem State.emit_cfgMaxTableSize (s : State) (pos : Nat) (h : Header) :
    (s.emit pos h).cfgMaxTableSize = s.cfgMaxTableSize := by
  rcases State.emit_cases s pos h with ⟨-, he⟩ | ⟨-, he⟩ <;> rw [he] <;> rfl

@[simp] theorem State.emit_listCapEn (s : State) (pos : Nat) (h : Header) :
    (s.emit pos h).listCapEn = s.listCapEn := by
  rcases State.emit_cases s pos h with ⟨-, he⟩ | ⟨-, he⟩ <;> rw [he] <;> rfl

@[simp] theorem State.emit_listCap (s : State) (pos : Nat) (h : Header) : (s.emit pos h).listCap = s.listCap := by
  rcases State.emit_cases s pos h with ⟨-, he⟩ | ⟨-, he⟩ <;> rw [he] <;> rfl

@[simp] theorem State.emit_dt (s : State) (pos : Nat) (h : Header) : (s.emit pos h).dt = s.dt := by
  rcases State.emit_cases s pos h with ⟨-, he⟩ | ⟨-, he⟩ <;> rw [he] <;> rfl

@[simp] theorem State.emit_hufStrictEnd (s : State) (pos : Nat) (h : Header) :
    (s.emit pos h).hufStrictEnd = s.hufStrictEnd := by
  rcases State.emit_cases s pos h with ⟨-, he⟩ | ⟨-, he⟩ <;> rw [he] <;> rfl

@[simp] theorem State.emit_ringInitCap (s : State) (pos : Nat) (h : Header) :
    (s.emit pos h).ringInitCap = s.ringInitCap := by
  rcases State.emit_cases s pos h with ⟨-, he⟩ | ⟨-, he⟩ <;> rw [he] <;> rfl

/-! ### What an instruction, or a step that runs none, may write -/

/-- From `s` to `t` only what the instruction `o`, if there is one, is named to write has changed, and no parameter. -/
structure WritesOnlyNamed (o : Option Instr) (s t : State) : Prop where
  table : t.dt ≠ s.dt → ∃ i, o = some i ∧ i.writesTable = true
  config : t.cfgMaxTableSize ≠ s.cfgMaxTableSize → ∃ i, o = some i ∧ i.writesConfig = true
  listCap : t.listCapEn ≠ s.listCapEn ∨ t.listCap ≠ s.listCap → ∃ i, o = some i ∧ i.writesListCap = true
  hufStrictEnd : t.hufStrictEnd = s.hufStrictEnd
  ringInitCap : t.ringInitCap = s.ringInitCap

/-- Waiting writes nothing. -/
theorem WritesOnlyNamed.refl (o : Option Instr) (s : State) : WritesOnlyNamed o s s := by
  constructor <;> simp

/-- A response writes neither the table nor the configuration. -/
theorem WritesOnlyNamed.respond (o : Option Instr) (s : State) (r : Result) : WritesOnlyNamed o s (s.respond r) := by
  constructor <;> simp

/-- An error writes neither the table nor the configuration. -/
theorem WritesOnlyNamed.raise (o : Option Instr) (s : State) (e : Err) : WritesOnlyNamed o s (s.raise e) := by
  constructor <;> simp

/-- Acceptance of an offer writes neither the table nor the configuration, so it may stand before the instruction. -/
theorem WritesOnlyNamed.of_accept {o : Option Instr} {s t : State} {rest : List Offer}
    (h : WritesOnlyNamed o (s.accept rest) t) : WritesOnlyNamed o s t :=
  ⟨h.table, h.config, h.listCap, h.hufStrictEnd, h.ringInitCap⟩

/-- An instruction writes only what R24, R25 and R363 name it for. -/
theorem exec_writesOnlyNamed {i : Instr} {s t : State} (h : exec i s = .next t) : WritesOnlyNamed (some i) s t := by
  cases exec_effect h with
  | respond r => exact .respond _ s r
  | raise e => exact .raise _ s e
  | readStatus => constructor <;> simp
  | emit => constructor <;> simp
  | start => constructor <;> simp
  | litInc _ _ _ _ _ hi => subst hi; constructor <;> simp [Instr.writesTable]
  | sizeUpd _ _ _ _ hi => subst hi; constructor <;> simp [Instr.writesTable]
  | dtAdd _ _ _ hi => subst hi; constructor <;> simp [Instr.writesTable]
  | dtSetMax _ _ hi => subst hi; constructor <;> simp [Instr.writesTable]
  | setMaxTableSize _ _ hi => subst hi; constructor <;> simp [Instr.writesTable, Instr.writesConfig]
  | setMaxListSize _ hi => subst hi; constructor <;> simp [Instr.writesListCap]
  | reset hi => subst hi; constructor <;> simp [Instr.writesTable, Instr.writesConfig, Instr.writesListCap]

/-- A step writes only what the instruction it runs is named for, and nothing of this where it runs none. -/
theorem step_writesOnlyNamed {s t : State} (h : step s = .next t) : WritesOnlyNamed s.nextInstr s t := by
  rcases step_cases h with ⟨-, rfl, -⟩ | ⟨-, -, -, -, rfl⟩ | ⟨-, -, -, -, rfl⟩ | ⟨o, rest, -, -, -, rfl⟩ |
    ⟨o, rest, i, hi, -, -, -, hx⟩ | ⟨b, i, hi, -, -, -, hx⟩
  · exact .refl _ t
  · exact .respond _ s _
  · exact .raise _ s _
  · exact (WritesOnlyNamed.raise _ (s.accept rest) _).of_accept
  · rw [hi]
    exact (exec_writesOnlyNamed hx).of_accept
  · rw [hi]
    exact exec_writesOnlyNamed hx

/-- Settles O55: it holds, of every step of every state, by the cases of a step and the effects of its instruction. -/
theorem onlyNamedInstructionsWrite : Obligations.OnlyNamedInstructionsWrite := by
  intro s t h
  obtain ⟨table, config, listCap, hufStrictEnd, ringInitCap⟩ := step_writesOnlyNamed h
  exact ⟨table, config, listCap, hufStrictEnd, ringInitCap⟩

end Sys2Proof.Machine
end

section
/-!
PROOFS. The block's invariant (10_state.md R22, R31, R33, R36, R41, R43; 45_dynamic_table.md R252; 46_field_decoder.md
R283; 60_exceptions.md R321): it holds at reset, and every step keeps it. The part that outlives a command is named
apart, because an accepted offer has raised BUSY before its command has latched an operand.
-/

namespace Sys2Proof.Machine

/-! ### The table -/

theorem DynTable.insert_inv {t t' : DynTable} {name value : OctetString} (h : t.Inv)
    (ht : t.insert name value = .ok t') : t'.Inv := by
  obtain ⟨u, hu, hinv, -⟩ := DynTable.insert_spec h.toCoherent name value
  cases hu.symm.trans ht
  exact hinv

theorem DynTable.setMax_inv {t t' : DynTable} {n : Nat} (h : t.Inv) (ht : t.setMax n = .ok t') : t'.Inv := by
  obtain ⟨u, hu, hinv, -⟩ := DynTable.setMax_spec h.toCoherent n
  cases hu.symm.trans ht
  exact hinv

/-! ### What outlives a command -/

/-- The part of the invariant that speaks of no command in progress. -/
structure State.Lasting (s : State) : Prop where
  table : s.dt.Inv
  init_cap : 0 < s.ringInitCap
  last_err : s.lastErr.toNat ≤ 8 ∧ s.lastErr ≠ 7
  sticky : s.lastErr ≠ 0 → s.errSticky = true

theorem State.Inv.lasting {s : State} (h : s.Inv) : s.Lasting := ⟨h.table, h.init_cap, h.last_err, h.sticky⟩

theorem State.Lasting.accept {s : State} (h : s.Lasting) (rest : List Offer) : (s.accept rest).Lasting :=
  ⟨h.table, h.init_cap, h.last_err, h.sticky⟩

/-- Between commands nothing else has to hold (R36). -/
theorem State.Lasting.inv_of_idle {s : State} (h : s.Lasting) (hb : s.busy = false)
    (hs : s.scratch = Scratch.empty) : s.Inv where
  table := h.table
  init_cap := h.init_cap
  last_err := h.last_err
  sticky := h.sticky
  idle_empty := fun _ => hs
  busy_active := by simp [hb]
  cursor_le := by simp [hs, Scratch.empty]
  total_eq := by simp [hs, Scratch.empty]
  total_lt := by simp [hs, Scratch.empty]

/-! ### The ends of a command -/

theorem State.Lasting.finish_inv {s : State} (h : s.Lasting) (r : Response) : (s.finish r).Inv :=
  State.Lasting.inv_of_idle ⟨h.table, h.init_cap, h.last_err, h.sticky⟩ rfl rfl

theorem State.respond_inv {s : State} {r : Result} (table : s.dt.Inv) (init_cap : 0 < s.ringInitCap) :
    (s.respond r).Inv :=
  State.Lasting.inv_of_idle ⟨table, init_cap, by simp, by simp⟩ rfl rfl

/-- The codes LAST_ERR can take (R321, R328). -/
theorem Err.code_range {e : Err} (he : e ≠ .characterCodingError) : e.code.toNat ≤ 8 ∧ e.code ≠ 7 := by
  cases e with
  | characterCodingError => exact absurd rfl he
  | _ => decide

theorem State.raise_inv {s : State} {e : Err} (table : s.dt.Inv) (init_cap : 0 < s.ringInitCap)
    (he : e ≠ .characterCodingError) : (s.raise e).Inv :=
  State.Lasting.inv_of_idle ⟨table, init_cap, Err.code_range he, by simp⟩ rfl rfl

/-! ### Inside a command -/

/-- A command that latches its operand starts the walk of it with nothing emitted (R22, R280). -/
theorem State.Lasting.start_inv {s : State} (h : s.Lasting) (hb : s.busy = true) {a : Activity} (ha : a ≠ .idle)
    (inp : OctetString) : (s.start a inp).Inv where
  table := h.table
  init_cap := h.init_cap
  last_err := h.last_err
  sticky := h.sticky
  idle_empty := by simp [hb]
  busy_active := fun _ => ha
  cursor_le := Nat.zero_le _
  total_eq := fun _ => rfl
  total_lt := by simp

theorem State.Inv.with_dt {s : State} (h : s.Inv) {t : DynTable} (ht : t.Inv) : ({ s with dt := t } : State).Inv :=
  { h with table := ht }

theorem State.Inv.advance_inv {s : State} (h : s.Inv) (hb : s.busy = true) {pos : Nat}
    (hp : pos ≤ s.scratch.input.length) : (s.advance pos).Inv :=
  { h with
    idle_empty := by simp [hb]
    cursor_le := hp }

/-- A field below the list cap adds its size to the total, and the total stays below the cap (R283). -/
theorem State.Inv.emitted_inv {s : State} (h : s.Inv) (hb : s.busy = true) {pos : Nat}
    (hp : pos ≤ s.scratch.input.length) {hd : Header} (hcap : s.belowCap hd) : (s.emitted pos hd).Inv :=
  { h with
    idle_empty := fun hidle => absurd (hb.symm.trans hidle) (by simp)
    cursor_le := hp
    total_eq := fun hen => by
      have htotal := h.total_eq hen
      have hen : s.listCapEn = true := hen
      simp [State.emitted, hen, htotal]
    total_lt := fun hen _ => by
      have hlt := hcap hen
      have hen : s.listCapEn = true := hen
      simpa [State.emitted, hen] using hlt }

theorem State.Inv.emit_inv {s : State} (h : s.Inv) (hb : s.busy = true) {pos : Nat}
    (hp : pos ≤ s.scratch.input.length) (hd : Header) : (s.emit pos hd).Inv := by
  rcases State.emit_cases s pos hd with ⟨hcap, he⟩ | ⟨-, he⟩ <;> rw [he]
  · exact h.emitted_inv hb hp hcap
  · exact State.raise_inv h.table h.init_cap (by simp)

/-! ### Instructions and steps -/

/-- An instruction of a busy block leaves a state with the invariant. A representation needs the whole invariant and an
octet at the cursor; every other instruction only what outlives a command. -/
theorem exec_inv {i : Instr} {s t : State} (h : s.Lasting) (hb : s.busy = true)
    (hfield : i.isField = true → s.Inv ∧ s.scratch.pos < s.scratch.input.length) (hx : exec i s = .next t) :
    t.Inv := by
  cases exec_effect hx with
  | respond r => exact State.respond_inv h.table h.init_cap
  | raise e he => exact State.raise_inv h.table h.init_cap he
  | readStatus => exact h.finish_inv _
  | emit pos hd hi hp =>
    obtain ⟨hinv, hpos⟩ := hfield (by obtain ⟨k, rfl⟩ | ⟨n, rfl⟩ | ⟨n, rfl⟩ := hi <;> rfl)
    exact hinv.emit_inv hb (hp hpos).2 hd
  | litInc n pos name value u hi hu hp =>
    obtain ⟨hinv, hpos⟩ := hfield (hi ▸ rfl)
    exact (hinv.with_dt (DynTable.insert_inv h.table hu)).emit_inv hb (hp hpos).2 _
  | sizeUpd n pos cap u hi hu hp =>
    obtain ⟨hinv, hpos⟩ := hfield (hi ▸ rfl)
    exact (hinv.with_dt (DynTable.setMax_inv h.table hu)).advance_inv hb (hp hpos).2
  | start a inp ha => exact h.start_inv hb ha inp
  | dtAdd name value u _ hu => exact State.respond_inv (DynTable.insert_inv h.table hu) h.init_cap
  | dtSetMax n u _ hu => exact State.respond_inv (DynTable.setMax_inv h.table hu) h.init_cap
  | setMaxTableSize n u _ hu => exact State.respond_inv (DynTable.setMax_inv h.table hu) h.init_cap
  | setMaxListSize => exact State.respond_inv h.table h.init_cap
  | reset => exact State.respond_inv (DynTable.reset_inv h.init_cap) h.init_cap

/-- No row of R95 is a representation. -/
theorem Command.build_isField {c : Command} {ops : List Operand} {i : Instr} (h : c.build ops = some i) :
    i.isField = false := by
  unfold Command.build at h
  split at h <;> cases h <;> rfl

theorem decodeCommand_isField {o : Offer} {i : Instr} (h : decodeCommand o = .ok i) : i.isField = false := by
  unfold decodeCommand at h
  split at h
  · cases h
  · split at h
    · cases h
    · rename_i hbuild
      cases h
      exact Command.build_isField hbuild

/-- Where there is an octet at the cursor, the cursor is not at the end of the operand (R60). -/
theorem State.pos_lt_of_octetAtCursor {s : State} {b : Octet} (h : s.octetAtCursor = some b) :
    s.scratch.pos < s.scratch.input.length :=
  (List.getElem?_eq_some_iff.mp h).1

theorem step_inv {s t : State} (h : s.Inv) (hx : step s = .next t) : t.Inv := by
  rcases step_cases hx with ⟨-, rfl, -⟩ | ⟨-, -, -, -, rfl⟩ | ⟨-, -, -, -, rfl⟩ | ⟨o, rest, -, -, -, rfl⟩ |
    ⟨o, rest, i, -, -, -, hdecode, hexec⟩ | ⟨b, i, -, hb, hoctet, -, hexec⟩
  · exact h
  · exact State.respond_inv h.table h.init_cap
  · exact State.raise_inv h.table h.init_cap (by simp)
  · exact State.raise_inv h.table h.init_cap (by simp)
  · have hno := decodeCommand_isField hdecode
    exact exec_inv (h.lasting.accept rest) rfl (by simp [hno]) hexec
  · exact exec_inv h.lasting hb (fun _ => ⟨h, State.pos_lt_of_octetAtCursor hoctet⟩) hexec

/-- Settles O57: it holds, by the cases of a step and, for an instruction, the cases of its effect (`exec_inv`). -/
theorem stepKeepsTheInvariant : Obligations.StepKeepsTheInvariant := fun _ _ => step_inv

/-- Settles O56: it holds; the table after reset has its invariants and nothing is in progress. -/
theorem invariantHoldsAtReset : Obligations.InvariantHoldsAtReset :=
  State.Lasting.inv_of_idle ⟨DynTable.reset_inv (by decide), by decide, by decide, by decide⟩ rfl rfl

end Sys2Proof.Machine
end

section
/-!
PROOFS. What every step does with the cursor, the offers, the responses and the status flags (10_state.md R22, R23, R26,
R36; 46_field_decoder.md R291; 70_reset_and_hazards.md R360): each is shown for what exec can do (`exec_effect`) and from
there for a step (`step_cases`).
-/

namespace Sys2Proof.Machine

/-! ### Fetch and dispatch (R22, R23, R281, R360) -/

theorem State.fetch_command {s : State} {o : Offer} {rest : List Offer} (hb : s.busy = false)
    (ho : s.offers = o :: rest) : s.fetch = some (.command o, s.accept rest) := by
  simp [State.fetch, hb, ho]

theorem State.fetch_field {s : State} {b : Octet} (hb : s.busy = true) (ha : s.scratch.activity = .block)
    (hoctet : s.octetAtCursor = some b) : s.fetch = some (.field b, s) := by
  simp [State.fetch, hb, ha, hoctet]

theorem State.fetch_string {s : State} {b : Octet} (hb : s.busy = true) (ha : s.scratch.activity = .string)
    (hoctet : s.octetAtCursor = some b) : s.fetch = some (.string b, s) := by
  simp [State.fetch, hb, ha, hoctet]

theorem step_eq_exec {s s' : State} {c : Code} {i : Instr} (hf : s.fetch = some (c, s')) (hd : decode c = .ok i) :
    step s = exec i s' := by
  simp [step, hf, hd]

/-- Settles O1: it holds, clause by clause from the definitions of the fetch and the step. -/
theorem stepRunsTheDecodedInstruction : Obligations.StepRunsTheDecodedInstruction :=
  ⟨fun _ _ _ => State.fetch_command, fun _ _ => State.fetch_field, fun _ _ => State.fetch_string,
    fun _ _ _ _ => step_eq_exec⟩

/-! ### The cursor (R22, R291) -/

theorem State.emit_of_busy {s : State} {pos : Nat} {h : Header} (hb : (s.emit pos h).busy = true) :
    s.emit pos h = s.emitted pos h := by
  rcases State.emit_cases s pos h with ⟨-, he⟩ | ⟨-, he⟩
  · exact he
  · simp [he] at hb

/-- From `s` to `t` the command in progress has stayed and its cursor has moved forward within the operand. -/
structure State.MovedForward (s t : State) : Prop where
  input_eq : t.scratch.input = s.scratch.input
  activity_eq : t.scratch.activity = s.scratch.activity
  pos_lt : s.scratch.pos < t.scratch.pos
  pos_le : t.scratch.pos ≤ t.scratch.input.length

/-- A triple that ends no command moves the cursor to where its field ended (R280). -/
theorem State.MovedForward.emit {s u : State} {pos : Nat} {h : Header} (hu : u.scratch = s.scratch)
    (hpos : s.scratch.pos < pos ∧ pos ≤ s.scratch.input.length) (hb : (u.emit pos h).busy = true) :
    s.MovedForward (u.emit pos h) := by
  rw [State.emit_of_busy hb]
  constructor <;> simp [State.emitted, hu, hpos]

/-- An instruction that latches no operand of its own either ends its command or moves the cursor forward. -/
theorem exec_movedForward {i : Instr} {s t : State} (hi : ∀ inp, i ≠ .decodeBlock inp ∧ i ≠ .strDecode inp)
    (hpos : s.scratch.pos < s.scratch.input.length) (hx : exec i s = .next t) (hb : t.busy = true) :
    s.MovedForward t := by
  cases exec_effect hx with
  | emit _ _ _ hp => exact .emit rfl (hp hpos) hb
  | litInc _ _ _ _ _ _ _ hp => exact .emit rfl (hp hpos) hb
  | sizeUpd _ _ _ _ _ _ hp => exact ⟨rfl, rfl, (hp hpos).1, (hp hpos).2⟩
  | start _ inp _ hlatch => exact absurd hlatch (not_or.mpr (hi inp))
  | _ => cases hb

theorem decodeField_latches_nothing (b : Octet) (inp : OctetString) :
    decodeField b ≠ .decodeBlock inp ∧ decodeField b ≠ .strDecode inp := by
  have hfield := decodeField_isField b
  constructor <;> intro h <;> simp [h, Instr.isField] at hfield

theorem decodeString_latches_nothing (b : Octet) (inp : OctetString) :
    decodeString b ≠ .decodeBlock inp ∧ decodeString b ≠ .strDecode inp := by
  rcases decodeString_cases b with h | h <;> simp [h]

/-- Settles O39: it holds; of the steps of a busy block only those of an octet at the cursor end no command. -/
theorem cursorMovesForward : Obligations.CursorMovesForward := by
  intro s t hbusy hactive hx hb
  rcases step_cases hx with ⟨-, rfl, ⟨hidle, -⟩ | ⟨-, hidle⟩⟩ | ⟨-, -, -, -, rfl⟩ | ⟨-, -, -, -, rfl⟩ |
    ⟨o, rest, -, hidle, -⟩ | ⟨o, rest, i, -, hidle, -⟩ | ⟨b, i, -, -, hoctet, hi, hexec⟩
  · simp [hidle] at hbusy
  · exact absurd hidle hactive
  · cases hb
  · cases hb
  · simp [hidle] at hbusy
  · simp [hidle] at hbusy
  · have hlatch : ∀ inp, i ≠ .decodeBlock inp ∧ i ≠ .strDecode inp := by
      rcases hi with ⟨-, rfl⟩ | ⟨-, rfl⟩
      · exact decodeField_latches_nothing b
      · exact decodeString_latches_nothing b
    obtain ⟨input_eq, activity_eq, pos_lt, pos_le⟩ :=
      exec_movedForward hlatch (State.pos_lt_of_octetAtCursor hoctet) hexec hb
    exact ⟨input_eq, activity_eq, pos_lt, pos_le⟩

/-! ### The offers (R23, R360) -/

@[simp] theorem State.emit_offers (s : State) (pos : Nat) (h : Header) : (s.emit pos h).offers = s.offers := by
  rcases State.emit_cases s pos h with ⟨-, he⟩ | ⟨-, he⟩ <;> rw [he] <;> rfl

/-- No instruction accepts an offer. -/
theorem exec_offers {i : Instr} {s t : State} (hx : exec i s = .next t) : t.offers = s.offers := by
  cases exec_effect hx with
  | emit => exact State.emit_offers _ _ _
  | litInc => exact State.emit_offers _ _ _
  | _ => rfl

/-- Settles O49: it holds, by the cases of a step; the instruction it runs leaves the offers. -/
theorem offersWaitWhileBusy : Obligations.OffersWaitWhileBusy := by
  intro s t hx
  rcases step_cases hx with ⟨-, rfl, hwait⟩ | ⟨-, hb, -, -, rfl⟩ | ⟨-, hb, -, -, rfl⟩ | ⟨o, rest, -, hb, ho, rfl⟩ |
    ⟨o, rest, i, -, hb, ho, -, hexec⟩ | ⟨b, i, -, hb, -, -, hexec⟩
  · rcases hwait with ⟨hb, ho⟩ | ⟨hb, -⟩
    · simp [ho]
    · simp [hb]
  · simp [hb, State.endBlock]
  · simp [hb]
  · simp [hb, ho]
  · simp [hb, ho, exec_offers hexec]
  · simp [hb, exec_offers hexec]

/-! ### The responses and the status flags (R23, R26, R36, R96) -/

/-- What a step that runs the instruction `o`, if any, does to the responses and the status: its command goes on, it was
READ_STATUS, or another command has ended with a response. -/
inductive StatusEffect (o : Option Instr) (s t : State) : Prop where
  | running (ho : o ≠ some .readStatus) (responses : t.responses = s.responses) (lastErr : t.lastErr = s.lastErr)
      (errSticky : t.errSticky = s.errSticky)
  | readStatus (ho : o = some .readStatus) (r : Response) (responses : t.responses = s.responses ++ [r])
      (busy : t.busy = false) (scratch : t.scratch = Scratch.empty) (lastErr : t.lastErr = s.lastErr)
      (errSticky : t.errSticky = s.errSticky)
  | ended (ho : o ≠ some .readStatus) (r : Response) (responses : t.responses = s.responses ++ [r])
      (busy : t.busy = false) (scratch : t.scratch = Scratch.empty) (lastErr : t.lastErr = r.status)
      (errSticky : o ≠ some .reset → t.errSticky = (s.errSticky || r.status != 0))

theorem StatusEffect.of_accept {o : Option Instr} {s t : State} {rest : List Offer}
    (h : StatusEffect o (s.accept rest) t) : StatusEffect o s t := by
  cases h with
  | running ho responses lastErr errSticky => exact .running ho responses lastErr errSticky
  | readStatus ho r responses busy scratch lastErr errSticky =>
    exact .readStatus ho r responses busy scratch lastErr errSticky
  | ended ho r responses busy scratch lastErr errSticky =>
    exact .ended ho r responses busy scratch lastErr errSticky

/-- A command that answers, after writes that leave the responses, and the status unless it is RESET. -/
theorem StatusEffect.respond {o : Option Instr} {s u : State} {r : Result} (ho : o ≠ some .readStatus)
    (hr : u.responses = s.responses) (hs : o ≠ some .reset → u.errSticky = s.errSticky) :
    StatusEffect o s (u.respond r) :=
  .ended ho (.ok r) (by simp [hr]) rfl rfl rfl fun hreset => by simp [hs hreset, Response.status]

theorem StatusEffect.raise {o : Option Instr} {s u : State} {e : Err} (ho : o ≠ some .readStatus)
    (hr : u.responses = s.responses) : StatusEffect o s (u.raise e) :=
  .ended ho (.error e) (by simp [hr]) rfl rfl rfl fun _ => by
    rw [State.raise_errSticky, Response.status, Err.code_bne_zero, Bool.or_true]

theorem StatusEffect.emit {o : Option Instr} {s u : State} {pos : Nat} {h : Header} (ho : o ≠ some .readStatus)
    (hr : u.responses = s.responses) (hl : u.lastErr = s.lastErr) (hs : u.errSticky = s.errSticky) :
    StatusEffect o s (u.emit pos h) := by
  rcases State.emit_cases u pos h with ⟨-, he⟩ | ⟨-, he⟩ <;> rw [he]
  · exact .running ho hr hl hs
  · exact .raise ho hr

theorem exec_statusEffect {i : Instr} {s t : State} (hx : exec i s = .next t) : StatusEffect (some i) s t := by
  cases exec_effect hx with
  | respond r hi hr => exact .respond (by simpa using hr) rfl fun _ => rfl
  | raise e he hr => exact .raise (by simpa using hr) rfl
  | readStatus hi => exact .readStatus (by rw [hi]) _ rfl rfl rfl rfl rfl
  | emit pos h hi => exact .emit (by obtain ⟨k, rfl⟩ | ⟨n, rfl⟩ | ⟨n, rfl⟩ := hi <;> simp) rfl rfl rfl
  | litInc _ _ _ _ _ hi => exact .emit (by simp [hi]) rfl rfl rfl
  | sizeUpd _ _ _ _ hi => exact .running (by simp [hi]) rfl rfl rfl
  | start a inp ha hi => exact .running (by rcases hi with rfl | rfl <;> simp) rfl rfl rfl
  | dtAdd _ _ _ hi => exact .respond (by simp [hi]) rfl fun _ => rfl
  | dtSetMax _ _ hi => exact .respond (by simp [hi]) rfl fun _ => rfl
  | setMaxTableSize _ _ hi => exact .respond (by simp [hi]) rfl fun _ => rfl
  | setMaxListSize _ hi => exact .respond (by simp [hi]) rfl fun _ => rfl
  | reset hi => exact .respond (by simp [hi]) rfl fun hreset => absurd (congrArg some hi) hreset

theorem step_statusEffect {s t : State} (hx : step s = .next t) : StatusEffect s.nextInstr s t := by
  rcases step_cases hx with ⟨hi, rfl, -⟩ | ⟨hi, -, -, -, rfl⟩ | ⟨hi, -, -, -, rfl⟩ | ⟨o, rest, hi, -, -, rfl⟩ |
    ⟨o, rest, i, hi, -, -, -, hexec⟩ | ⟨b, i, hi, -, -, -, hexec⟩ <;> rw [hi]
  · exact .running (by simp) rfl rfl rfl
  · exact .respond (by simp) rfl fun _ => rfl
  · exact .raise (by simp) rfl
  · exact .raise (by simp) rfl
  · exact (exec_statusEffect hexec).of_accept
  · exact exec_statusEffect hexec

/-- Settles O46: it holds, in each of the three cases of `StatusEffect`. -/
theorem statusFollowsTheResponse : Obligations.StatusFollowsTheResponse := by
  intro s t hx
  cases step_statusEffect hx with
  | running ho responses lastErr errSticky => simp +contextual [responses, lastErr, errSticky]
  | readStatus ho r responses busy scratch lastErr errSticky => simp [ho, lastErr, errSticky]
  | ended ho r responses busy scratch lastErr errSticky =>
    refine ⟨fun r' hr' _ => ?_, fun hkept => ?_, fun hset hreset => by simp [errSticky hreset, hset]⟩
    · obtain rfl : r = r' := by simpa using responses.symm.trans hr'
      exact ⟨lastErr, errSticky⟩
    · simp [responses, ho] at hkept

/-- Settles O50: it holds, in each of the three cases of `StatusEffect`. -/
theorem responsesOnlyGrow : Obligations.ResponsesOnlyGrow := by
  intro s t hx
  cases step_statusEffect hx with
  | running _ responses => exact .inl responses
  | readStatus _ r responses busy scratch => exact .inr ⟨r, responses, busy, scratch⟩
  | ended _ r responses busy scratch => exact .inr ⟨r, responses, busy, scratch⟩

end Sys2Proof.Machine
end

section
/-!
PROOFS. What the entries' sequence numbers and sizes say of DT_LENGTH (10_state.md R32, R43), and that the ring is
unobservable (R43): every operation of the table takes tables that agree but for the ring to results that agree but for
the ring, and so does every instruction and every step.
-/

namespace Sys2Proof.Machine

/-! ### Sequence numbers and length (R32) -/

/-- Counted from the newest entry, the numbers fall by one with every position. -/
theorem DynTable.Coherent.seq_add_position {t : DynTable} (h : t.Coherent) {newest : DynEntry}
    (hnew : t.entries.head? = some newest) {k : Nat} {e : DynEntry} (he : t.entries[k]? = some e) :
    e.seq + k = newest.seq := by
  induction k generalizing e with
  | zero =>
    rw [List.head?_eq_getElem?, he] at hnew
    cases hnew
    rfl
  | succ k ih =>
    have hlt : k + 1 < t.entries.length := (List.getElem?_eq_some_iff.mp he).1
    have hk : t.entries[k]? = some t.entries[k] := List.getElem?_eq_getElem (by omega)
    have hstep := h.seq_consecutive k _ e hk he
    have hprev := ih hk
    omega

/-- Settles O30: it holds; the oldest entry stands DT_LENGTH − 1 positions after the newest. -/
theorem lengthFromSequenceNumbers : Obligations.LengthFromSequenceNumbers := by
  intro t newest oldest h hnew hold
  have hoffset := h.seq_add_position hnew (List.getLast?_eq_getElem? ▸ hold)
  have hlen : t.entries.length ≠ 0 := by
    intro hnil
    simp [List.eq_nil_of_length_eq_zero hnil] at hnew
  refine ⟨by omega, by omega, fun k e he => ?_⟩
  have := h.seq_add_position hnew he
  omega

/-! ### How many entries fit (R43) -/

theorem overhead_mul_length_le_entriesSize (es : List DynEntry) :
    Config.entryOverhead * es.length ≤ entriesSize es := by
  induction es with
  | nil => simp
  | cons e es ih =>
    have := e.overhead_le_size
    rw [List.length_cons, entriesSize_cons, Nat.mul_succ]
    omega

theorem DynTable.Inv.length_le {t : DynTable} (h : t.Inv) :
    t.entries.length ≤ t.maxSize.toNat / Config.entryOverhead := by
  rw [Nat.le_div_iff_mul_le (by decide), Nat.mul_comm]
  calc Config.entryOverhead * t.entries.length
      ≤ entriesSize t.entries := overhead_mul_length_le_entriesSize _
    _ = t.curSize := h.curSize_eq.symm
    _ ≤ t.maxSize.toNat := h.size_le

/-! ### Tables that agree but for the ring (R43) -/

/-- Two tables that agree on everything but the ring. -/
def DynTable.SameButRing (t u : DynTable) : Prop := ∃ r, u = { t with ring := r }

/-- Two results of a table operation: the same fault, or tables that agree on everything but the ring. -/
inductive TableResult.SameButRing : Except Fault DynTable → Except Fault DynTable → Prop where
  | ok {t u : DynTable} (h : t.SameButRing u) : SameButRing (.ok t) (.ok u)
  | error (f : Fault) : SameButRing (.error f) (.error f)

theorem DynTable.SameButRing.dropOldest {t u : DynTable} (h : t.SameButRing u) (e : DynEntry) :
    (t.dropOldest e).SameButRing (u.dropOldest e) := by
  obtain ⟨r, rfl⟩ := h
  exact ⟨r.removeLast, rfl⟩

theorem DynTable.SameButRing.push {t u : DynTable} (h : t.SameButRing u) (name value : OctetString) :
    (t.push name value).SameButRing (u.push name value) := by
  obtain ⟨r, rfl⟩ := h
  exact ⟨r.addFirst _, rfl⟩

theorem DynTable.SameButRing.entries_eq {t u : DynTable} (h : t.SameButRing u) : u.entries = t.entries := by
  obtain ⟨r, rfl⟩ := h
  rfl

theorem DynTable.SameButRing.curSize_eq {t u : DynTable} (h : t.SameButRing u) : u.curSize = t.curSize := by
  obtain ⟨r, rfl⟩ := h
  rfl

theorem DynTable.SameButRing.maxSize_eq {t u : DynTable} (h : t.SameButRing u) : u.maxSize = t.maxSize := by
  obtain ⟨r, rfl⟩ := h
  rfl

/-- Eviction reads the sizes and the oldest entry, never the ring (R232). -/
theorem DynTable.SameButRing.evict {t u : DynTable} (h : t.SameButRing u) (fuel : Nat) :
    TableResult.SameButRing (DynTable.evict fuel t) (DynTable.evict fuel u) := by
  induction fuel generalizing t u with
  | zero =>
    unfold DynTable.evict
    rw [h.curSize_eq, h.maxSize_eq]
    split
    · exact .error _
    · exact .ok h
  | succ fuel ih =>
    unfold DynTable.evict
    rw [h.curSize_eq, h.maxSize_eq, h.entries_eq]
    split
    · split
      · exact ih (h.dropOldest _)
      · exact .error _
    · exact .ok h

theorem DynTable.SameButRing.evictTo {t u : DynTable} (h : t.SameButRing u) :
    TableResult.SameButRing t.evictTo u.evictTo := by
  unfold DynTable.evictTo
  rw [h.entries_eq]
  exact h.evict _

theorem DynTable.SameButRing.clearLoop {t u : DynTable} (h : t.SameButRing u) (fuel : Nat) :
    (DynTable.clearLoop fuel t).SameButRing (DynTable.clearLoop fuel u) := by
  induction fuel generalizing t u with
  | zero => exact h
  | succ fuel ih =>
    unfold DynTable.clearLoop
    rw [h.entries_eq]
    split
    · exact ih (h.dropOldest _)
    · exact h

theorem DynTable.SameButRing.clear {t u : DynTable} (h : t.SameButRing u) : t.clear.SameButRing u.clear := by
  unfold DynTable.clear
  rw [h.entries_eq]
  exact h.clearLoop _

theorem DynTable.SameButRing.insert {t u : DynTable} (h : t.SameButRing u) (name value : OctetString) :
    TableResult.SameButRing (t.insert name value) (u.insert name value) := by
  unfold DynTable.insert
  rw [h.maxSize_eq]
  split
  · exact .ok h.clear
  · exact (h.push name value).evictTo

theorem DynTable.SameButRing.setMax {t u : DynTable} (h : t.SameButRing u) (n : Nat) :
    TableResult.SameButRing (t.setMax n) (u.setMax n) := by
  obtain ⟨r, rfl⟩ := h
  exact DynTable.SameButRing.evictTo ⟨r, rfl⟩

/-! ### States that agree but for the ring -/

theorem State.SameButRing.dt {s t : State} (h : s.SameButRing t) : s.dt.SameButRing t.dt := by
  obtain ⟨r, rfl⟩ := h
  exact ⟨r, rfl⟩

theorem State.SameButRing.scratch_eq {s t : State} (h : s.SameButRing t) : t.scratch = s.scratch := by
  obtain ⟨r, rfl⟩ := h
  rfl

theorem State.SameButRing.hufStrictEnd_eq {s t : State} (h : s.SameButRing t) : t.hufStrictEnd = s.hufStrictEnd := by
  obtain ⟨r, rfl⟩ := h
  rfl

theorem State.SameButRing.cfgMaxTableSize_eq {s t : State} (h : s.SameButRing t) :
    t.cfgMaxTableSize = s.cfgMaxTableSize := by
  obtain ⟨r, rfl⟩ := h
  rfl

theorem DynTable.SameButRing.get_eq {t u : DynTable} (h : t.SameButRing u) (i : Nat) : u.get i = t.get i := by
  obtain ⟨r, rfl⟩ := h
  rfl

theorem DynTable.SameButRing.matches_eq {t u : DynTable} (h : t.SameButRing u) (name : OctetString) :
    u.matches name = t.matches name := by
  obtain ⟨r, rfl⟩ := h
  rfl

theorem DynTable.SameButRing.literalOperands_eq {t u : DynTable} (h : t.SameButRing u) (strict : Bool) (n low : Nat)
    (inp : OctetString) (pos : Nat) :
    literalOperands strict u n low inp pos = literalOperands strict t n low inp pos := by
  unfold literalOperands nameOperand
  simp only [h.get_eq]

theorem State.SameButRing.respond {s t : State} (h : s.SameButRing t) (r : Result) :
    (s.respond r).SameButRing (t.respond r) := by
  obtain ⟨ring, rfl⟩ := h
  exact ⟨ring, rfl⟩

theorem State.SameButRing.raise {s t : State} (h : s.SameButRing t) (e : Err) :
    (s.raise e).SameButRing (t.raise e) := by
  obtain ⟨r, rfl⟩ := h
  exact ⟨r, rfl⟩

theorem State.SameButRing.start {s t : State} (h : s.SameButRing t) (a : Activity) (inp : OctetString) :
    (s.start a inp).SameButRing (t.start a inp) := by
  obtain ⟨r, rfl⟩ := h
  exact ⟨r, rfl⟩

theorem State.SameButRing.advance {s t : State} (h : s.SameButRing t) (pos : Nat) :
    (s.advance pos).SameButRing (t.advance pos) := by
  obtain ⟨r, rfl⟩ := h
  exact ⟨r, rfl⟩

theorem State.SameButRing.emitted {s t : State} (h : s.SameButRing t) (pos : Nat) (hd : Header) :
    (s.emitted pos hd).SameButRing (t.emitted pos hd) := by
  obtain ⟨r, rfl⟩ := h
  exact ⟨r, rfl⟩

theorem State.SameButRing.belowCap_iff {s t : State} (h : s.SameButRing t) (hd : Header) :
    t.belowCap hd ↔ s.belowCap hd := by
  obtain ⟨r, rfl⟩ := h
  rfl

theorem State.SameButRing.emit {s t : State} (h : s.SameButRing t) (pos : Nat) (hd : Header) :
    (s.emit pos hd).SameButRing (t.emit pos hd) := by
  by_cases hcap : s.belowCap hd
  · rw [State.emit_of_belowCap hcap, State.emit_of_belowCap ((h.belowCap_iff hd).mpr hcap)]
    exact h.emitted pos hd
  · rw [State.emit_of_not_belowCap hcap, State.emit_of_not_belowCap (mt (h.belowCap_iff hd).mp hcap)]
    exact h.raise _

/-- A table operation that does not read the ring, followed by a change of the state that does not read it. -/
theorem State.SameButRing.withTable {s t : State} (h : s.SameButRing t) {a b : Except Fault DynTable}
    (hab : TableResult.SameButRing a b) {next : State → State}
    (hnext : ∀ {u v : State}, u.SameButRing v → (next u).SameButRing (next v)) :
    Out.SameButRing (s.withTable a next) (t.withTable b next) := by
  obtain ⟨r, rfl⟩ := h
  cases hab with
  | ok hdt =>
    obtain ⟨r', rfl⟩ := hdt
    exact hnext ⟨r', rfl⟩
  | error f => exact rfl

/-! ### Instructions and steps -/

theorem fieldLiteral_sameButRing {s t : State} (h : s.SameButRing t) (n low : Nat) (kind : LiteralKind) :
    Out.SameButRing (fieldLiteral n low kind s) (fieldLiteral n low kind t) := by
  unfold fieldLiteral
  rw [h.scratch_eq, h.hufStrictEnd_eq, h.dt.literalOperands_eq]
  split
  · exact h.raise _
  · cases kind with
    | inc => exact h.withTable (h.dt.insert _ _) fun h => h.emit _ _
    | never => exact h.emit _ _
    | noidx => exact h.emit _ _

theorem stringLiteral_sameButRing {s t : State} (h : s.SameButRing t) (huf : Bool) (l : BitVec 7) :
    Out.SameButRing (stringLiteral huf l s) (stringLiteral huf l t) := by
  unfold stringLiteral
  rw [h.scratch_eq, h.hufStrictEnd_eq]
  split
  · exact h.raise _
  · exact h.respond _

theorem execIdx_sameButRing {s t : State} (h : s.SameButRing t) (i : BitVec 7) :
    Out.SameButRing (execIdx i s) (execIdx i t) := by
  unfold execIdx
  rw [h.scratch_eq]
  split
  · exact h.raise _
  · rw [h.dt.get_eq]
    split
    · exact h.raise _
    · exact h.emit _ _

theorem execSizeUpd_sameButRing {s t : State} (h : s.SameButRing t) (n : BitVec 5) :
    Out.SameButRing (execSizeUpd n s) (execSizeUpd n t) := by
  unfold execSizeUpd
  rw [h.scratch_eq, h.cfgMaxTableSize_eq]
  split
  · exact h.raise _
  · exact h.withTable (h.dt.setMax _) fun h => h.advance _

theorem execSetMaxTableSize_sameButRing {s t : State} (h : s.SameButRing t) (n : Nat) :
    Out.SameButRing (execSetMaxTableSize n s) (execSetMaxTableSize n t) := by
  unfold execSetMaxTableSize
  split
  · refine h.withTable (h.dt.setMax n) ?_
    rintro u _ ⟨r, rfl⟩
    exact ⟨r, rfl⟩
  · exact h.raise _

theorem execSetMaxListSize_sameButRing {s t : State} (h : s.SameButRing t) (n : Nat) :
    Out.SameButRing (execSetMaxListSize n s) (execSetMaxListSize n t) := by
  unfold execSetMaxListSize
  split
  · obtain ⟨r, rfl⟩ := h
    exact ⟨r, rfl⟩
  · exact h.raise _

theorem execIntDecode_sameButRing {s t : State} (h : s.SameButRing t) (n : Nat) (inp : OctetString) :
    Out.SameButRing (execIntDecode n inp s) (execIntDecode n inp t) := by
  unfold execIntDecode
  split
  · split
    · exact h.raise _
    · exact h.respond _
  · exact h.raise _

theorem execIntEncode_sameButRing {s t : State} (h : s.SameButRing t) (n flags v : Nat) :
    Out.SameButRing (execIntEncode n flags v s) (execIntEncode n flags v t) := by
  unfold execIntEncode
  split
  · exact h.respond _
  · exact h.raise _

theorem execHufDecode_sameButRing {s t : State} (h : s.SameButRing t) (inp : OctetString) :
    Out.SameButRing (execHufDecode inp s) (execHufDecode inp t) := by
  unfold execHufDecode
  rw [h.hufStrictEnd_eq]
  split
  · exact h.raise _
  · exact h.respond _

theorem execStGet_sameButRing {s t : State} (h : s.SameButRing t) (i : Nat) :
    Out.SameButRing (execStGet i s) (execStGet i t) := by
  unfold execStGet
  split
  · split
    · exact h.respond _
    · exact h.raise _
  · exact h.raise _

theorem execDtGet_sameButRing {s t : State} (h : s.SameButRing t) (i : Nat) :
    Out.SameButRing (execDtGet i s) (execDtGet i t) := by
  unfold execDtGet
  rw [h.dt.get_eq]
  split
  · split
    · exact h.respond _
    · exact h.raise _
  · exact h.raise _

theorem execDtSetMax_sameButRing {s t : State} (h : s.SameButRing t) (n : Nat) :
    Out.SameButRing (execDtSetMax n s) (execDtSetMax n t) := by
  unfold execDtSetMax
  split
  · exact h.withTable (h.dt.setMax n) fun h => h.respond _
  · exact h.raise _

theorem execDtFindName_sameButRing {s t : State} (h : s.SameButRing t) (name : OctetString) :
    Out.SameButRing (execDtFindName name s) (execDtFindName name t) := by
  unfold execDtFindName
  rw [h.dt.matches_eq]
  split
  · exact h.respond _
  · exact rfl

/-- No instruction's outcome depends on the ring. -/
theorem exec_sameButRing {s t : State} (h : s.SameButRing t) (i : Instr) :
    Out.SameButRing (exec i s) (exec i t) := by
  cases i with
  | idx => exact execIdx_sameButRing h _
  | litInc n => exact fieldLiteral_sameButRing h 6 n.toNat .inc
  | sizeUpd => exact execSizeUpd_sameButRing h _
  | litNever n => exact fieldLiteral_sameButRing h 4 n.toNat .never
  | litNoidx n => exact fieldLiteral_sameButRing h 4 n.toNat .noidx
  | strRaw l => exact stringLiteral_sameButRing h false l
  | strHuf l => exact stringLiteral_sameButRing h true l
  | decodeBlock => exact h.start _ _
  | setMaxTableSize => exact execSetMaxTableSize_sameButRing h _
  | setMaxListSize => exact execSetMaxListSize_sameButRing h _
  | readStatus => obtain ⟨r, rfl⟩ := h; exact ⟨r, rfl⟩
  | reset => obtain ⟨r, rfl⟩ := h; exact ⟨_, rfl⟩
  | intDecode => exact execIntDecode_sameButRing h _ _
  | intEncode => exact execIntEncode_sameButRing h _ _ _
  | hufDecode => exact execHufDecode_sameButRing h _
  | hufEncode => exact h.respond _
  | strDecode => exact h.start _ _
  | stGet => exact execStGet_sameButRing h _
  | stFindName => exact h.respond _
  | dtGet => exact execDtGet_sameButRing h _
  | dtAdd => exact h.withTable (h.dt.insert _ _) fun h => h.respond _
  | dtSetMax => exact execDtSetMax_sameButRing h _
  | dtFindName => exact execDtFindName_sameButRing h _
  | dtIndexOf => obtain ⟨r, rfl⟩ := h; exact ⟨r, rfl⟩
  | dtReadSize => obtain ⟨r, rfl⟩ := h; exact ⟨r, rfl⟩

theorem State.SameButRing.unfetched {s t : State} (h : s.SameButRing t) : s.unfetched.SameButRing t.unfetched := by
  obtain ⟨r, rfl⟩ := h
  unfold State.unfetched
  dsimp only
  split
  · split <;> exact ⟨r, rfl⟩
  · exact ⟨r, rfl⟩

/-- What is fetched does not depend on the ring either: nothing from both, or the same code with states that agree. -/
theorem State.SameButRing.fetch {s t : State} (h : s.SameButRing t) :
    (s.fetch = none ∧ t.fetch = none) ∨
      ∃ c s' t', s.fetch = some (c, s') ∧ t.fetch = some (c, t') ∧ s'.SameButRing t' := by
  obtain ⟨r, rfl⟩ := h
  unfold State.fetch State.octetAtCursor
  dsimp only
  split
  · split
    · exact .inr ⟨_, _, _, rfl, rfl, r, rfl⟩
    · exact .inr ⟨_, _, _, rfl, rfl, r, rfl⟩
    · exact .inl ⟨rfl, rfl⟩
  · split
    · exact .inr ⟨_, _, _, rfl, rfl, r, rfl⟩
    · exact .inl ⟨rfl, rfl⟩

theorem step_sameButRing {s t : State} (h : s.SameButRing t) : Out.SameButRing (step s) (step t) := by
  unfold step
  rcases h.fetch with ⟨hs, ht⟩ | ⟨c, s', t', hs, ht, h'⟩ <;> simp only [hs, ht]
  · exact h.unfetched
  · split
    · exact exec_sameButRing h' _
    · exact h'.raise _

/-- Settles O60: it holds; the outcomes by `step_sameButRing`, the reading of the ring by the invariant, and the number
of entries because each counts at least 32. -/
theorem ringIsUnobservable : Obligations.RingIsUnobservable :=
  ⟨fun _ _ => step_sameButRing, fun _ h => ⟨h.table.ring_holds.get_eq, h.table.length_le⟩⟩

end Sys2Proof.Machine
end

section
/-!
PROOFS. The frame of the instructions that read (O51): each only finishes its command, perhaps after setting the status
flags (10_state.md R22, R23; 47_control.md R302; 60_exceptions.md R320), so a case of `exec_effect` that does more is the
effect of no such instruction.
-/

namespace Sys2Proof.Machine

/-- Settles O51: it holds. What exec can do (`exec_effect`) leaves three effects to an instruction that reads: a result,
an error, or READ_STATUS's own end; the other effects are each of a named instruction that is none of these. -/
theorem queriesFrame : Obligations.QueriesFrame := by
  intro i s t hq h
  cases exec_effect h with
  | respond r => exact ⟨_, _, _, s.respond_shape r⟩
  | raise e => exact ⟨_, _, _, s.raise_shape e⟩
  | readStatus => exact ⟨s.lastErr, s.errSticky, _, rfl⟩
  | emit _ _ hi => rcases hi with ⟨_, rfl⟩ | ⟨_, rfl⟩ | ⟨_, rfl⟩ <;> cases hq
  | start _ _ _ hi => rcases hi with rfl | rfl <;> cases hq
  | _ => subst i; cases hq

end Sys2Proof.Machine
end

section
/-!
PROOFS. The decoder and the encoder of the three layers (30_encoding.md R81, R82, R85, R95, R97): each layer is inverted
on its own, the two octet layers on every octet and the command layer row by row of the table.
-/

namespace Sys2Proof

/-! ### The octet layers -/

theorem encode_decodeField (b : Octet) : encode (decodeField b) = .field b := by
  revert b
  decide

theorem encode_decodeString (b : Octet) : encode (decodeString b) = .string b := by
  revert b
  decide

/-! ### The command layer (R95) -/

/-- The code of a row of R95. -/
def Command.code : Command → Octet
  | .decodeBlock => 0x01
  | .setMaxTableSize => 0x02
  | .setMaxListSize => 0x03
  | .readStatus => 0x04
  | .reset => 0x05
  | .intDecode => 0x10
  | .intEncode => 0x11
  | .hufDecode => 0x20
  | .hufEncode => 0x21
  | .strDecode => 0x30
  | .stGet => 0x40
  | .stFindName => 0x41
  | .dtGet => 0x50
  | .dtAdd => 0x51
  | .dtSetMax => 0x52
  | .dtFindName => 0x53
  | .dtIndexOf => 0x54
  | .dtReadSize => 0x55

/-- No code stands in two rows of the table. -/
theorem code_of_commandOf {code : Octet} {c : Command} (h : commandOf code = some c) : c.code = code := by
  have hall : ∀ b : Octet, ∀ d ∈ commandOf b, d.code = b := by decide
  exact hall code c h

/-- A row's operands are those its instruction is encoded with. -/
theorem encode_of_build {c : Command} {operands : List Operand} {i : Instr} (h : c.build operands = some i) :
    encode i = .command ⟨c.code, operands⟩ := by
  unfold Command.build at h
  split at h <;> cases h <;> rfl

theorem decodeCommand_ok {o : Offer} {i : Instr} (h : decodeCommand o = .ok i) :
    ∃ c, commandOf o.code = some c ∧ c.build o.operands = some i := by
  unfold decodeCommand at h
  split at h
  · cases h
  · rename_i c hc
    split at h
    · cases h
    · rename_i hi
      cases h
      exact ⟨c, hc, hi⟩

theorem encode_of_decodeCommand {o : Offer} {i : Instr} (h : decodeCommand o = .ok i) : encode i = .command o := by
  obtain ⟨c, hc, hi⟩ := decodeCommand_ok h
  rw [encode_of_build hi, code_of_commandOf hc]

/-! ### Both directions -/

theorem encode_of_decode {c : Code} {i : Instr} (h : decode c = .ok i) : encode i = c := by
  cases c with
  | field b => cases h; exact encode_decodeField b
  | string b => cases h; exact encode_decodeString b
  | command o => exact encode_of_decodeCommand h

theorem decode_encode (i : Instr) : decode (encode i) = .ok i := by
  cases i with
  | idx i => revert i; decide
  | litInc n => revert n; decide
  | sizeUpd n => revert n; decide
  | litNever n => revert n; decide
  | litNoidx n => revert n; decide
  | strRaw l => revert l; decide
  | strHuf l => revert l; decide
  | _ => rfl

/-- Settles O4: it holds; the octet layers by their 256 octets, the command layer row by row of R95. -/
theorem decodeAndEncodeAgree : Obligations.DecodeAndEncodeAgree :=
  ⟨decode_encode, fun _ _ => encode_of_decode⟩

/-- Settles O3: it holds, each code by evaluating the decoder. -/
theorem writtenOutCodesDecode : Obligations.WrittenOutCodesDecode := by
  unfold Obligations.WrittenOutCodesDecode
  decide

end Sys2Proof
end

section
/-!
PROOFS. The steps that run no instruction, the offers that are refused, and READ_STATUS (30_encoding.md R97;
43_string.md R190; 46_field_decoder.md R291; 47_control.md R302; 60_exceptions.md R329; 70_reset_and_hazards.md R350).
-/

namespace Sys2Proof.Machine

/-! ### Steps that fetch nothing (R190, R291, R350) -/

theorem State.octetAtCursor_eq_none {s : State} (h : s.scratch.input.length ≤ s.scratch.pos) :
    s.octetAtCursor = none :=
  List.getElem?_eq_none h

theorem step_of_block_end {s : State} (hb : s.busy = true) (ha : s.scratch.activity = .block)
    (hend : s.scratch.input.length ≤ s.scratch.pos) : step s = .next s.endBlock := by
  simp [step, State.fetch, State.unfetched, hb, ha, State.octetAtCursor_eq_none hend]

theorem step_of_string_end {s : State} (hb : s.busy = true) (ha : s.scratch.activity = .string)
    (hend : s.scratch.input.length ≤ s.scratch.pos) : step s = .next (s.raise .unexpectedEndOfStream) := by
  simp [step, State.fetch, State.unfetched, hb, ha, State.octetAtCursor_eq_none hend]

theorem step_of_no_offer {s : State} (hb : s.busy = false) (ho : s.offers = []) : step s = .next s := by
  simp [step, State.fetch, State.unfetched, hb, ho]

/-! ### Offers that are refused (R97, R329) -/

theorem step_of_offer_not_decoded {s : State} {o : Offer} {rest : List Offer} {e : DecodeError}
    (hb : s.busy = false) (ho : s.offers = o :: rest) (he : decodeCommand o = .error e) :
    step s = .next ((s.accept rest).raise .invalidCommand) := by
  simp [step, State.fetch_command hb ho, decode, he, State.rejectOffer]

/-- An operand out of range is refused by the instruction's meaning, before any of its steps (R329). -/
theorem exec_of_not_wellFormed {i : Instr} (h : WellFormed i = false) (s : State) :
    exec i s = .next (s.raise .invalidCommand) := by
  cases i with
  | setMaxTableSize n => exact if_neg (Bool.eq_false_iff.mp h)
  | setMaxListSize n => exact if_neg (Bool.eq_false_iff.mp h)
  | intDecode n inp => exact if_neg (Bool.eq_false_iff.mp h)
  | intEncode n flags v => exact if_neg (Bool.eq_false_iff.mp h)
  | stGet i => exact if_neg (Bool.eq_false_iff.mp h)
  | dtGet i => exact if_neg (Bool.eq_false_iff.mp h)
  | dtSetMax n => exact if_neg (Bool.eq_false_iff.mp h)
  | _ => cases h

theorem step_of_offer_not_wellFormed {s : State} {o : Offer} {rest : List Offer} {i : Instr}
    (hb : s.busy = false) (ho : s.offers = o :: rest) (hi : decodeCommand o = .ok i) (hw : WellFormed i = false) :
    step s = .next ((s.accept rest).raise .invalidCommand) := by
  rw [step_eq_exec (State.fetch_command hb ho) hi, exec_of_not_wellFormed hw]

/-- Accepting an offer and refusing it, from a state with nothing in progress. -/
theorem State.accept_raise {s : State} (hb : s.busy = false) (hs : s.scratch = Scratch.empty) (rest : List Offer)
    (e : Err) : (s.accept rest).raise e = { s with
      offers := rest, lastErr := e.code, errSticky := true, responses := s.responses ++ [.error e] } := by
  simp only [State.raise, State.finish, State.setStatus, State.accept, Err.code_bne_zero, Bool.or_true, ← hb, ← hs]

/-- Settles O48: it holds; the offer is refused by the decoder or by the meaning of its instruction, and the invariant
says that a block that is not busy keeps nothing in its scratch state. -/
theorem refusedOffersChangeOnlyTheStatus : Obligations.RefusedOffersChangeOnlyTheStatus := by
  intro s o rest hinv hb ho hrefused
  have hstep : step s = .next ((s.accept rest).raise .invalidCommand) := by
    rcases hrefused with ⟨e, he⟩ | ⟨i, hi, hw⟩
    · exact step_of_offer_not_decoded hb ho he
    · exact step_of_offer_not_wellFormed hb ho hi hw
  rw [hstep, State.accept_raise hb (hinv.idle_empty hb)]
  rfl

/-- Settles O2: it holds, clause by clause from what is fetched. -/
theorem stepThatRunsNoInstruction : Obligations.StepThatRunsNoInstruction :=
  ⟨fun _ => step_of_block_end, fun _ => step_of_string_end, fun _ _ _ _ => step_of_offer_not_decoded,
    fun _ => step_of_no_offer⟩

/-- Settles O43: it holds; READ_STATUS only finishes its command, so the second one finds both flags as they were. -/
theorem readStatusCompletes : Obligations.ReadStatusCompletes :=
  fun s => ⟨s.finish (.ok (.status s.lastErr s.errSticky)), rfl, rfl, _, rfl, rfl, rfl⟩

end Sys2Proof.Machine
end

section
/-!
PROOFS. The round trip of the integer unit (41_integer.md R120, R130, R132). Where an operand stands in the input is
said by `inp.drop pos = octets ++ after`, so that readers of consecutive operands chain.
-/

namespace Sys2Proof.Machine

/-! ### Reading at a cursor (R60) -/

theorem getElem?_of_drop_eq_cons {inp rest : OctetString} {pos : Nat} {b : Octet} (h : inp.drop pos = b :: rest) :
    inp[pos]? = some b := by
  rw [← Nat.add_zero pos, ← List.getElem?_drop, h]
  rfl

theorem drop_succ_of_drop_eq_cons {inp rest : OctetString} {pos : Nat} {b : Octet} (h : inp.drop pos = b :: rest) :
    inp.drop (pos + 1) = rest := by
  rw [← List.drop_drop, h]
  rfl

theorem drop_add_length {inp octets after : OctetString} {pos : Nat} (h : inp.drop pos = octets ++ after) :
    inp.drop (pos + octets.length) = after := by
  rw [← List.drop_drop, h, List.drop_left]

/-! ### Continuation octets -/

theorem intEncodeGroups_of_lt {r : Nat} (h : r < 128) (fuel : Nat) : intEncodeGroups fuel r = [BitVec.ofNat 8 r] := by
  cases fuel with
  | zero => rfl
  | succ fuel => exact if_neg (Nat.not_le.mpr h)

theorem intEncodeGroups_of_ge {r : Nat} (h : 128 ≤ r) (fuel : Nat) :
    intEncodeGroups (fuel + 1) r = BitVec.ofNat 8 (r % 128 ||| 128) :: intEncodeGroups fuel (r / 128) :=
  (if_pos h).trans (by rw [Nat.shiftRight_eq_div_pow])

theorem intGroups_cons {inp rest : OctetString} {left pos m v : Nat} {c : Octet} (h : inp.drop pos = c :: rest) :
    intGroups inp (left + 1) pos m v =
      if c.getLsbD 7 then intGroups inp left (pos + 1) (m + 7) (v + c.toNat % 128 * 2 ^ m)
      else if v + c.toNat % 128 * 2 ^ m > Config.intMax then .error .integerLimitExceeded
      else .ok (v + c.toNat % 128 * 2 ^ m, pos + 1) := by
  rw [intGroups, getElem?_of_drop_eq_cons h]

/-- A last continuation octet: bit 7 is clear and the seven others are the group. -/
theorem lastGroup_bits {r : Nat} (h : r < 128) :
    (BitVec.ofNat 8 r).getLsbD 7 = false ∧ (BitVec.ofNat 8 r).toNat % 128 = r := by
  have hall : ∀ r : Fin 128, (BitVec.ofNat 8 r).getLsbD 7 = false ∧ (BitVec.ofNat 8 r).toNat % 128 = r := by decide
  exact hall ⟨r, h⟩

/-- A continuation octet before the last: bit 7 is set and the seven others are the group. -/
theorem moreGroup_bits {r : Nat} (h : r < 128) :
    (BitVec.ofNat 8 (r ||| 128)).getLsbD 7 = true ∧ (BitVec.ofNat 8 (r ||| 128)).toNat % 128 = r := by
  have hall : ∀ r : Fin 128, (BitVec.ofNat 8 (r ||| 128)).getLsbD 7 = true ∧
      (BitVec.ofNat 8 (r ||| 128)).toNat % 128 = r := by decide
  exact hall ⟨r, h⟩

/-- The loop of IntDecode reads back the groups of IntEncode (R132). -/
theorem intGroups_intEncodeGroups {inp after : OctetString} {left fuel pos m v r : Nat}
    (hr : r < 128 ^ (left + 1)) (hfuel : left ≤ fuel) (hmax : v + r * 2 ^ m ≤ Config.intMax)
    (h : inp.drop pos = intEncodeGroups fuel r ++ after) :
    intGroups inp (left + 1) pos m v = .ok (v + r * 2 ^ m, pos + (intEncodeGroups fuel r).length) := by
  induction left generalizing fuel pos m v r with
  | zero =>
    rw [intEncodeGroups_of_lt hr] at h ⊢
    obtain ⟨h7, hgroup⟩ := lastGroup_bits hr
    rw [intGroups_cons h, h7, hgroup, if_neg (by decide), if_neg (Nat.not_lt.mpr hmax)]
    rfl
  | succ left ih =>
    by_cases hlast : r < 128
    · rw [intEncodeGroups_of_lt hlast] at h ⊢
      obtain ⟨h7, hgroup⟩ := lastGroup_bits hlast
      rw [intGroups_cons h, h7, hgroup, if_neg (by decide), if_neg (Nat.not_lt.mpr hmax)]
      rfl
    · obtain ⟨fuel, rfl⟩ : ∃ k, fuel = k + 1 := ⟨fuel - 1, by omega⟩
      rw [intEncodeGroups_of_ge (Nat.not_lt.mp hlast)] at h ⊢
      obtain ⟨h7, hgroup⟩ := moreGroup_bits (Nat.mod_lt r (by decide : 0 < 128))
      -- this group and the rest of the number, at the weights the loop gives them
      have hvalue : v + r % 128 * 2 ^ m + r / 128 * 2 ^ (m + 7) = v + r * 2 ^ m := by
        conv_rhs => rw [← Nat.mod_add_div r 128]
        ring
      have hrest : r / 128 < 128 ^ (left + 1) := by
        rw [Nat.div_lt_iff_lt_mul (by decide), ← Nat.pow_succ]
        exact hr
      rw [intGroups_cons h, h7, hgroup, if_pos rfl,
        ih hrest (by omega) (hvalue ▸ hmax) (drop_succ_of_drop_eq_cons h), hvalue, List.length_cons]
      congr 2
      omega

/-! ### The first octet (R121, R130) -/

/-- The flags of the first octet do not touch its `n`-bit part (R121). -/
theorem firstOctet_mod {n flags x : Nat} (hn : n ≤ 8) (hflags : flags &&& (2 ^ n - 1) = 0) (hx : x < 2 ^ n) :
    (BitVec.ofNat 8 (flags ||| x)).toNat % 2 ^ n = x := by
  rw [Nat.and_two_pow_sub_one_eq_mod] at hflags
  rw [BitVec.toNat_ofNat, Nat.mod_mod_of_dvd _ (Nat.pow_dvd_pow 2 hn), Nat.or_mod_two_pow, hflags, Nat.zero_or,
    Nat.mod_eq_of_lt hx]

/-- The bits of the first octet above its `n`-bit part are the flags' (R130). -/
theorem firstOctet_getLsbD {n flags x k : Nat} (hnk : n ≤ k) (hk : k < 8) (hx : x < 2 ^ n) :
    (BitVec.ofNat 8 (flags ||| x)).getLsbD k = flags.testBit k := by
  have hxk : x.testBit k = false :=
    Nat.testBit_lt_two_pow (Nat.lt_of_lt_of_le hx (Nat.pow_le_pow_right (by decide) hnk))
  rw [BitVec.getLsbD_ofNat, decide_eq_true hk, Bool.true_and, Nat.testBit_or, hxk, Bool.or_false]

/-- The octets after the first one: none below 2^N − 1, else the groups of what is above it (R130). -/
def intEncodeRest (n v : Nat) : OctetString :=
  if v < 2 ^ n - 1 then [] else intEncodeGroups Config.intMaxCont (v - (2 ^ n - 1))

theorem intEncode_eq_cons (n flags v : Nat) :
    intEncode n flags v = BitVec.ofNat 8 (flags ||| min v (2 ^ n - 1)) :: intEncodeRest n v := by
  unfold intEncode intEncodeRest
  by_cases h : v < 2 ^ n - 1
  · simp only [if_pos h, Nat.min_eq_left h.le]
  · simp only [if_neg h, Nat.min_eq_right (Nat.not_lt.mp h)]

theorem intEncode_length (n flags v : Nat) : (intEncode n flags v).length = (intEncodeRest n v).length + 1 := by
  rw [intEncode_eq_cons, List.length_cons]

theorem min_lt_two_pow (n v : Nat) : min v (2 ^ n - 1) < 2 ^ n := by
  have := Nat.two_pow_pos n
  omega

/-! ### The round trip (R132) -/

theorem intRest_intEncodeRest {n v pos : Nat} {inp after : OctetString} (hv : v ≤ Config.intMax)
    (h : inp.drop pos = intEncodeRest n v ++ after) :
    intRest n (min v (2 ^ n - 1)) inp pos = .ok (v, pos + (intEncodeRest n v).length) := by
  unfold intEncodeRest at h ⊢
  by_cases hlow : v < 2 ^ n - 1
  · rw [if_pos hlow, Nat.min_eq_left hlow.le, intRest, if_pos hlow]
    rfl
  · have hsum : 2 ^ n - 1 + (v - (2 ^ n - 1)) * 2 ^ 0 = v := by omega
    rw [if_neg hlow] at h ⊢
    rw [Nat.min_eq_right (Nat.not_lt.mp hlow), intRest, if_neg (Nat.lt_irrefl _)]
    show intGroups inp (4 + 1) pos 0 _ = _
    rw [intGroups_intEncodeGroups (Nat.lt_of_le_of_lt (Nat.sub_le _ _) (Nat.lt_of_le_of_lt hv (by decide))) (by decide)
        (hsum.symm ▸ hv) h, hsum]

/-- IntDecode reads back what IntEncode wrote, wherever it stands and whatever follows it (R132). -/
theorem intDecode_intEncode {n flags v pos : Nat} {inp after : OctetString} (hn : n ≤ 8)
    (hflags : flags &&& (2 ^ n - 1) = 0) (hv : v ≤ Config.intMax)
    (h : inp.drop pos = intEncode n flags v ++ after) :
    intDecode n inp pos = .ok (v, pos + (intEncode n flags v).length) := by
  rw [intEncode_length, Nat.add_comm _ 1, ← Nat.add_assoc]
  rw [intEncode_eq_cons, List.cons_append] at h
  rw [intDecode, getElem?_of_drop_eq_cons h]
  show intRest n ((BitVec.ofNat 8 (flags ||| min v (2 ^ n - 1))).toNat % 2 ^ n) inp (pos + 1) = _
  rw [firstOctet_mod hn hflags (min_lt_two_pow n v), intRest_intEncodeRest hv (drop_succ_of_drop_eq_cons h)]

/-! ### The commands (R127, R131) -/

theorem inRangeWidth_of_bounds {n : Nat} (h1 : 1 ≤ n) (h8 : n ≤ 8) : inRangeWidth n = true := by
  simp [inRangeWidth, Config.intPrefixMin, Config.intPrefixMax, h1, h8]

theorem execIntEncode_of_inRange {n flags v : Nat} (h1 : 1 ≤ n) (h8 : n ≤ 8) (hflags : flags < 256)
    (hv : v ≤ Config.intMax) (s : State) :
    execIntEncode n flags v s = .next (s.respond (.octets (intEncode n flags v))) := by
  simp [execIntEncode, inRangeWidth_of_bounds h1 h8, inRangeOctet, hflags, inRange31, hv]

theorem execIntDecode_of_ok {n v p : Nat} {inp : OctetString} (h1 : 1 ≤ n) (h8 : n ≤ 8)
    (h : intDecode n inp 0 = .ok (v, p)) (s : State) : execIntDecode n inp s = .next (s.respond (.int v p)) := by
  simp [execIntDecode, inRangeWidth_of_bounds h1 h8, h]

theorem execIntDecode_of_error {n : Nat} {inp : OctetString} {e : Err} (h1 : 1 ≤ n) (h8 : n ≤ 8)
    (h : intDecode n inp 0 = .error e) (s : State) : execIntDecode n inp s = .next (s.raise e) := by
  simp [execIntDecode, inRangeWidth_of_bounds h1 h8, h]

/-- Settles O10: it holds; the second clause by the round trip at the start of the operand. -/
theorem integerCommandsComplete : Obligations.IntegerCommandsComplete := by
  refine ⟨fun _ _ _ s h1 h8 hflags hv => execIntEncode_of_inRange h1 h8 hflags hv s, ?_,
    fun _ _ _ _ s h1 h8 h => execIntDecode_of_ok h1 h8 h s, fun _ _ _ s h1 h8 h => execIntDecode_of_error h1 h8 h s⟩
  intro n flags v after s h1 h8 _ hflags hv
  have hround := intDecode_intEncode (pos := 0) (after := after) h8 hflags hv rfl
  rw [Nat.zero_add] at hround
  exact execIntDecode_of_ok h1 h8 hround s

end Sys2Proof.Machine
end

section
/-!
PROOFS. The code words of the Huffman code as bit strings (30_encoding.md R62, R86–R88): no code word starts another
one, so a bit string splits into code words and a proper part of one more in one way only (42_huffman.md R166).
-/

namespace Sys2Proof.Machine

/-! ### The bits of a number (R62) -/

@[simp] theorem bitsOf_length (n v : Nat) : (bitsOf n v).length = n := by simp [bitsOf]

theorem bitsOf_getElem {n v k : Nat} (h : k < (bitsOf n v).length) : (bitsOf n v)[k] = v.testBit (n - 1 - k) := by
  simp [bitsOf]

/-- The first `m` bits are those of the number without its last `n` bits. -/
theorem bitsOf_add (m n v : Nat) : bitsOf (m + n) v = bitsOf m (v >>> n) ++ bitsOf n v := by
  refine List.ext_getElem (by simp) fun k h _ => ?_
  rw [bitsOf_length] at h
  rw [List.getElem_append, bitsOf_getElem]
  split <;> rename_i hk <;> rw [bitsOf_length] at hk <;> rw [bitsOf_getElem]
  · rw [Nat.testBit_shiftRight]
    congr 1
    omega
  · rw [bitsOf_length]
    congr 1
    omega

theorem bitsOf_mod {n k : Nat} (h : n ≤ k) (v : Nat) : bitsOf n (v % 2 ^ k) = bitsOf n v := by
  refine List.ext_getElem (by simp) fun i hi _ => ?_
  rw [bitsOf_length] at hi
  rw [bitsOf_getElem, bitsOf_getElem, Nat.testBit_mod_two_pow, decide_eq_true (by omega), Bool.true_and]

/-- Numbers with the same `n` bits agree modulo 2^n. -/
theorem mod_eq_of_bitsOf_eq {n v w : Nat} (h : bitsOf n v = bitsOf n w) : v % 2 ^ n = w % 2 ^ n := by
  refine Nat.eq_of_testBit_eq fun i => ?_
  rw [Nat.testBit_mod_two_pow, Nat.testBit_mod_two_pow]
  by_cases hi : i < n
  · have hbit : (bitsOf n v)[n - 1 - i]? = (bitsOf n w)[n - 1 - i]? := by rw [h]
    have hlt : n - 1 - i < n := by omega
    rw [List.getElem?_eq_getElem (by rwa [bitsOf_length]), List.getElem?_eq_getElem (by rwa [bitsOf_length]),
      bitsOf_getElem, bitsOf_getElem, show n - 1 - (n - 1 - i) = i by omega] at hbit
    rw [Option.some.inj hbit]
  · rw [decide_eq_false hi, Bool.false_and, Bool.false_and]

theorem bitsOf_ones (n : Nat) : bitsOf n (2 ^ n - 1) = List.replicate n true := by
  refine List.ext_getElem (by simp) fun k hk _ => ?_
  rw [bitsOf_length] at hk
  rw [bitsOf_getElem, List.getElem_replicate, Nat.testBit_two_pow_sub_one, decide_eq_true (by omega)]

/-- A number of `m` bits before one of `n` bits. -/
theorem bitsOf_append {n w : Nat} (hw : w < 2 ^ n) (m v : Nat) :
    bitsOf (m + n) (v <<< n ||| w) = bitsOf m v ++ bitsOf n w := by
  have hhigh : (v <<< n ||| w) >>> n = v := by
    rw [Nat.shiftRight_or_distrib, Nat.shiftLeft_shiftRight, Nat.shiftRight_eq_div_pow, Nat.div_eq_of_lt hw,
      Nat.or_zero]
  have hlow : (v <<< n ||| w) % 2 ^ n = w := by
    rw [Nat.or_mod_two_pow, Nat.shiftLeft_eq, Nat.mul_mod_left, Nat.zero_or, Nat.mod_eq_of_lt hw]
  rw [bitsOf_add, hhigh, ← bitsOf_mod (Nat.le_refl n) (v <<< n ||| w), hlow]

theorem octetBits_append (x y : OctetString) : octetBits (x ++ y) = octetBits x ++ octetBits y := List.flatMap_append

/-- The octet of a number holds its last eight bits. -/
theorem octetBits_ofNat (v : Nat) : octetBits [BitVec.ofNat 8 v] = bitsOf 8 v := by
  rw [octetBits, List.flatMap_singleton, BitVec.toNat_ofNat, bitsOf_mod (Nat.le_refl 8)]

/-! ### The code table (R86–R88) -/

theorem hufCode_length : hufCode.length = Config.hufNsym := by decide +kernel

/-- No code starts another one: cut to the shorter of their lengths, any two codes differ (R87). -/
theorem hufCode_pairwise :
    hufCode.Pairwise fun c d => c.code >>> (c.len - d.len) ≠ d.code >>> (d.len - c.len) := by
  decide +kernel

theorem hufCode_bounds : ∀ c ∈ hufCode, 5 ≤ c.len ∧ c.len ≤ 30 ∧ c.code < 2 ^ c.len := by
  decide +kernel

/-- Settles O11: it holds; that no code starts another one, in both orders, from `hufCode_pairwise`, where the shift of
the shorter code is by nothing. -/
theorem huffmanCodeIsPrefixFreeAndComplete : Obligations.HuffmanCodeIsPrefixFreeAndComplete := by
  refine ⟨hufCode_length, hufCode_bounds, by decide +kernel, hufCode_pairwise.imp ?_, hufCode_pairwise.imp ?_,
    by decide⟩ <;>
  · intro c d hne hle heq
    rw [heq, Nat.sub_eq_zero_of_le hle, Nat.shiftRight_zero] at hne
    exact hne rfl

/-! ### Code words (R86) -/

/-- HUF_CODE of a symbol (R45). -/
def codeOf (symbol : Nat) : HufCode := hufCode.getD symbol ⟨0, 0⟩

theorem codeBits_eq (symbol : Nat) : codeBits symbol = bitsOf (codeOf symbol).len (codeOf symbol).code := rfl

theorem codeOf_eq_getElem {symbol : Nat} (h : symbol < hufCode.length) : codeOf symbol = hufCode[symbol] :=
  List.getD_eq_getElem _ _ h

theorem lt_hufCode_length {symbol : Nat} (h : symbol ≤ Config.eosSymbol) : symbol < hufCode.length := by
  rw [hufCode_length]
  exact Nat.lt_succ_of_le h

theorem codeOf_lt {symbol : Nat} (h : symbol ≤ Config.eosSymbol) :
    (codeOf symbol).code < 2 ^ (codeOf symbol).len := by
  rw [codeOf_eq_getElem (lt_hufCode_length h)]
  obtain ⟨-, -, hlt⟩ := hufCode_bounds _ (List.getElem_mem (lt_hufCode_length h))
  exact hlt

/-- The codes of two symbols differ, cut to the shorter of their lengths (R87). -/
theorem codeOf_apart {a b : Nat} (ha : a ≤ Config.eosSymbol) (hb : b ≤ Config.eosSymbol) (hab : a ≠ b) :
    (codeOf a).code >>> ((codeOf a).len - (codeOf b).len) ≠
      (codeOf b).code >>> ((codeOf b).len - (codeOf a).len) := by
  have hpair := List.pairwise_iff_getElem.mp hufCode_pairwise
  rw [codeOf_eq_getElem (lt_hufCode_length ha), codeOf_eq_getElem (lt_hufCode_length hb)]
  rcases Nat.lt_or_gt_of_ne hab with hlt | hgt
  · exact hpair a b (lt_hufCode_length ha) (lt_hufCode_length hb) hlt
  · exact (hpair b a (lt_hufCode_length hb) (lt_hufCode_length ha) hgt).symm

/-- No code word starts another one (R87). -/
theorem eq_of_codeBits_prefix {a b : Nat} (ha : a ≤ Config.eosSymbol) (hb : b ≤ Config.eosSymbol)
    (h : codeBits a <+: codeBits b) : a = b := by
  by_contra hab
  refine codeOf_apart ha hb hab ?_
  have hlen : (codeOf a).len ≤ (codeOf b).len := by simpa [codeBits_eq] using h.length_le
  obtain ⟨k, hk⟩ := Nat.exists_eq_add_of_le hlen
  have hcut : bitsOf (codeOf a).len (codeOf a).code = bitsOf (codeOf a).len ((codeOf b).code >>> k) := by
    rw [codeBits_eq, codeBits_eq, hk, bitsOf_add] at h
    exact (List.prefix_of_prefix_length_le h (List.prefix_append _ _) (by simp)).eq_of_length (by simp)
  have hmod := mod_eq_of_bitsOf_eq hcut
  have hshort : (codeOf b).code >>> k < 2 ^ (codeOf a).len := by
    rw [Nat.shiftRight_eq_div_pow, Nat.div_lt_iff_lt_mul (Nat.two_pow_pos k), ← Nat.pow_add, ← hk]
    exact codeOf_lt hb
  rw [Nat.mod_eq_of_lt (codeOf_lt ha), Nat.mod_eq_of_lt hshort] at hmod
  rw [Nat.sub_eq_zero_of_le hlen, Nat.shiftRight_zero, hmod, hk, Nat.add_sub_cancel_left]

/-- Two code words that start the same bit string are the same. -/
theorem eq_of_codeBits_append {a b : Nat} {u v : List Bool} (ha : a ≤ Config.eosSymbol) (hb : b ≤ Config.eosSymbol)
    (h : codeBits a ++ u = codeBits b ++ v) : a = b := by
  rcases List.prefix_or_prefix_of_prefix (List.prefix_append (codeBits a) u)
    (h ▸ List.prefix_append (codeBits b) v) with hp | hp
  · exact eq_of_codeBits_prefix ha hb hp
  · exact (eq_of_codeBits_prefix hb ha hp).symm

/-! ### Splitting a bit string (R166) -/

/-- A proper part of a code word (R166). -/
def ProperPart (t : List Bool) : Prop :=
  ∃ (symbol : Nat) (u : List Bool), symbol ≤ Config.eosSymbol ∧ u ≠ [] ∧ codeBits symbol = t ++ u

/-- No code word starts a proper part of one. -/
theorem ProperPart.not_codeBits_append {t v : List Bool} {a : Nat} (ht : ProperPart t) (ha : a ≤ Config.eosSymbol) :
    t ≠ codeBits a ++ v := by
  rintro rfl
  obtain ⟨b, u, hb, hu, hcode⟩ := ht
  obtain rfl := eq_of_codeBits_prefix ha hb ⟨v ++ u, by rw [hcode, List.append_assoc]⟩
  rw [List.append_assoc, List.self_eq_append_right, List.append_eq_nil_iff] at hcode
  exact hu hcode.2

/-- Where a bit string splits into code words and a proper part of one more, every sequence of code words it starts with
is a start of the split's, and what is left is the rest of the split (R166). -/
theorem codeWords_prefix {ws vs : List Nat} {t r : List Bool} (ht : ProperPart t)
    (hws : ∀ w ∈ ws, w ≤ Config.eosSymbol) (hvs : ∀ v ∈ vs, v ≤ Config.eosSymbol)
    (h : vs.flatMap codeBits ++ r = ws.flatMap codeBits ++ t) :
    ∃ rest, ws = vs ++ rest ∧ r = rest.flatMap codeBits ++ t := by
  induction vs generalizing ws with
  | nil => exact ⟨ws, rfl, h⟩
  | cons v vs ih =>
    rw [List.forall_mem_cons] at hvs
    obtain ⟨hv, hvs⟩ := hvs
    rw [List.flatMap_cons, List.append_assoc] at h
    cases ws with
    | nil => exact absurd h.symm (ht.not_codeBits_append hv)
    | cons w ws =>
      rw [List.forall_mem_cons] at hws
      obtain ⟨hw, hws⟩ := hws
      rw [List.flatMap_cons, List.append_assoc] at h
      obtain rfl := eq_of_codeBits_append hv hw h
      obtain ⟨rest, hrest, hr⟩ := ih hws hvs (List.append_cancel_left h)
      exact ⟨rest, by rw [hrest, List.cons_append], hr⟩

end Sys2Proof.Machine
end

section
/-!
PROOFS. The bits of HufEncode (42_huffman.md R170): the code words of its octets, then at most seven ones.
-/

namespace Sys2Proof.Machine

/-- The bits the encoder holds: those flushed, then those pending. -/
def HufPack.bits (p : HufPack) : List Bool := octetBits p.out ++ bitsOf p.n p.acc

/-- Flushing moves whole octets and leaves fewer than eight bits pending. -/
theorem HufPack.flush_spec {fuel : Nat} {p : HufPack} (h : p.n ≤ fuel) :
    (p.flush fuel).bits = p.bits ∧ (p.flush fuel).n < 8 := by
  induction fuel generalizing p with
  | zero => exact ⟨rfl, Nat.lt_of_le_of_lt h (by decide)⟩
  | succ fuel ih =>
    unfold HufPack.flush
    by_cases h8 : p.n ≥ 8
    · rw [if_pos h8]
      obtain ⟨hbits, hn⟩ := @ih ⟨p.acc, p.n - 8, p.out ++ [BitVec.ofNat 8 (p.acc >>> (p.n - 8))]⟩ (by dsimp only; omega)
      refine ⟨hbits.trans ?_, hn⟩
      obtain ⟨k, hk⟩ := Nat.exists_eq_add_of_le h8
      simp only [HufPack.bits, hk, Nat.add_sub_cancel_left, octetBits_append, octetBits_ofNat, bitsOf_add,
        List.append_assoc]
    · rw [if_neg h8]
      exact ⟨rfl, Nat.not_le.mp h8⟩

theorem octet_le_eosSymbol (b : Octet) : b.toNat ≤ Config.eosSymbol := Nat.le_of_lt b.isLt

/-- Each octet adds its code word (R170). -/
theorem HufPack.push_spec (p : HufPack) (b : Octet) :
    (p.push b).bits = p.bits ++ codeBits b.toNat ∧ (p.push b).n < 8 := by
  obtain ⟨hbits, hn⟩ := @HufPack.flush_spec (p.n + (codeOf b.toNat).len)
    ⟨p.acc <<< (codeOf b.toNat).len ||| (codeOf b.toNat).code, p.n + (codeOf b.toNat).len, p.out⟩ (Nat.le_refl _)
  refine ⟨?_, hn⟩
  calc (p.push b).bits = _ := congrArg (_ ++ ·) (bitsOf_mod (Nat.le_refl _) _)
    _ = _ := hbits
    _ = p.bits ++ codeBits b.toNat := by
      rw [HufPack.bits, HufPack.bits, bitsOf_append (codeOf_lt (octet_le_eosSymbol b)), List.append_assoc, codeBits_eq]

theorem HufPack.foldl_push_spec (data : OctetString) {p : HufPack} (h : p.n < 8) :
    (data.foldl HufPack.push p).bits = p.bits ++ (data.map BitVec.toNat).flatMap codeBits ∧
      (data.foldl HufPack.push p).n < 8 := by
  induction data generalizing p with
  | nil => exact ⟨(List.append_nil _).symm, h⟩
  | cons b data ih =>
    obtain ⟨hpush, hn⟩ := p.push_spec b
    obtain ⟨hfold, hn'⟩ := ih hn
    exact ⟨by rw [List.foldl_cons, hfold, hpush, List.append_assoc]; rfl, hn'⟩

/-- The last octet is filled up with ones (R170, R62). -/
theorem HufPack.finish_spec {p : HufPack} (h : p.n < 8) :
    ∃ k, k ≤ 7 ∧ octetBits p.finish = p.bits ++ List.replicate k true := by
  unfold HufPack.finish
  by_cases hn : p.n > 0
  · obtain ⟨k, hk⟩ : ∃ k, p.n + k = 8 := ⟨8 - p.n, by omega⟩
    have hones : 255 >>> p.n = 2 ^ k - 1 := by
      have hall : ∀ n : Fin 8, 255 >>> n.val = 2 ^ (8 - n.val) - 1 := by decide
      exact (hall ⟨p.n, h⟩).trans (by rw [Nat.sub_eq_of_eq_add' hk.symm])
    refine ⟨k, by omega, ?_⟩
    rw [if_pos hn, octetBits_append, octetBits_ofNat, hones, ← hk, Nat.add_sub_cancel_left,
      bitsOf_append (Nat.sub_lt (Nat.two_pow_pos k) Nat.one_pos), bitsOf_ones, HufPack.bits, List.append_assoc]
  · rw [if_neg hn]
    refine ⟨0, Nat.zero_le _, ?_⟩
    rw [HufPack.bits, Nat.eq_zero_of_not_pos hn]
    simp [bitsOf]

/-- The bits of HufEncode (R170). -/
theorem octetBits_hufEncode (x : OctetString) :
    ∃ k, k ≤ 7 ∧ octetBits (hufEncode x) = (x.map BitVec.toNat).flatMap codeBits ++ List.replicate k true := by
  obtain ⟨hbits, hn⟩ := HufPack.foldl_push_spec x (p := ⟨0, 0, []⟩) (by decide)
  obtain ⟨k, hk, hfinish⟩ := HufPack.finish_spec hn
  exact ⟨k, hk, by rw [hufEncode, hfinish, hbits]; rfl⟩

end Sys2Proof.Machine
end

section
/-!
PROOFS. The Huffman tree walk reads code words (42_huffman.md R150–R166): whatever the octets are, HufDecode splits
their bits into code words and a proper part of one more, or stops at the code word of EOS; and so it gives back what
HufEncode wrote (R172).
-/

namespace Sys2Proof.Machine

/-! ### What the slots of the tree hold (R151, R153) -/

/-- Below `path`, of whose bits the last `level` index these slots, every bit string leads to the terminal of the code
word it starts with, whose bits in this node are counted from the node; or, through eight bits, to a node of which the
same holds. `fuel` bounds the depth. -/
def Slots.holdCodes : (fuel level : Nat) → Slots HufNode → (path : List Bool) → Bool
  | 0, _, _, _ => false
  | _ + 1, level, .all (.terminal symbol bits), path =>
    decide (symbol ≤ Config.eosSymbol) && decide (0 < level) && bits == level && codeBits symbol == path
  | fuel + 1, level, .all (.internal slots), path => level == 8 && slots.holdCodes fuel 0 path
  | _ + 1, _, .all .empty, _ => false
  | fuel + 1, level, .split zero one, path =>
    decide (level < 8) && zero.holdCodes fuel (level + 1) (path ++ [false]) &&
      one.holdCodes fuel (level + 1) (path ++ [true])

/-- The node is internal, it stands at `path` below ROOT, and its slots hold the code words that start with `path`. -/
def HufNode.StandsAt (node : HufNode) (path : List Bool) : Prop :=
  ∃ slots fuel, node = .internal slots ∧ slots.holdCodes fuel 0 path = true

theorem hufTree_standsAt : hufTree.StandsAt [] := by
  have hall : (match hufTree with
    | .internal slots => slots.holdCodes 40 0 []
    | _ => false) = true := by decide +kernel
  split at hall
  · exact ⟨_, 40, by assumption, hall⟩
  · cases hall

/-- Below every path in the tree there is a code word; below a node's own path it is longer than the path. -/
theorem Slots.holdCodes_extends {fuel level : Nat} {slots : Slots HufNode} {path : List Bool}
    (h : slots.holdCodes fuel level path = true) :
    ∃ symbol u, symbol ≤ Config.eosSymbol ∧ (level = 0 → u ≠ []) ∧ codeBits symbol = path ++ u := by
  fun_induction Slots.holdCodes fuel level slots path with
  | case1 | case4 => cases h
  | case2 fuel level symbol bits path =>
    simp only [Bool.and_eq_true, decide_eq_true_eq, beq_iff_eq] at h
    obtain ⟨⟨⟨hsymbol, hlevel⟩, -⟩, hcode⟩ := h
    exact ⟨symbol, [], hsymbol, fun h0 => absurd h0 (Nat.ne_of_gt hlevel), by rw [hcode, List.append_nil]⟩
  | case3 fuel level slots path ih =>
    simp only [Bool.and_eq_true, beq_iff_eq] at h
    obtain ⟨hlevel, hslots⟩ := h
    obtain ⟨symbol, u, hsymbol, -, hcode⟩ := ih hslots
    exact ⟨symbol, u, hsymbol, fun h0 => absurd (hlevel.symm.trans h0) (by decide), hcode⟩
  | case5 fuel level zero one path ihzero ihone =>
    simp only [Bool.and_eq_true] at h
    obtain ⟨⟨-, hzero⟩, -⟩ := h
    obtain ⟨symbol, u, hsymbol, -, hcode⟩ := ihzero hzero
    exact ⟨symbol, false :: u, hsymbol, fun _ => List.cons_ne_nil _ _, by rw [hcode, List.append_assoc]; rfl⟩

/-- The path to a node is a proper part of a code word. -/
theorem HufNode.StandsAt.properPart {node : HufNode} {path : List Bool} (h : node.StandsAt path) : ProperPart path := by
  obtain ⟨slots, fuel, -, hslots⟩ := h
  obtain ⟨symbol, u, hsymbol, hu, hcode⟩ := Slots.holdCodes_extends hslots
  exact ⟨symbol, u, hsymbol, hu rfl, hcode⟩

theorem bitsOf_succ (n v : Nat) : bitsOf (n + 1) v = v.testBit n :: bitsOf n v := by
  rw [Nat.add_comm, bitsOf_add]
  simp [bitsOf]

/-- What a node answers at `path` to a lookup of the octet whose bits are `octet`: the terminal of a code word that ends
within the octet, or the node eight bits further on. -/
inductive HufNode.Answer (path octet : List Bool) : HufNode → Prop where
  | terminal {symbol bits : Nat} (hsymbol : symbol ≤ Config.eosSymbol) (hpos : 0 < bits) (hle : bits ≤ 8)
      (hcode : codeBits symbol = path ++ octet.take bits) : Answer path octet (.terminal symbol bits)
  | internal {slots : Slots HufNode} (h : HufNode.StandsAt (.internal slots) (path ++ octet)) :
      Answer path octet (.internal slots)

/-- Reading the slots of a node from the bit `before.length` of the octet on. -/
theorem Slots.getBits_answer {fuel level m c : Nat} {slots : Slots HufNode} {path before : List Bool}
    (hlevel : before.length = level) (hm : level + m = 8)
    (h : slots.holdCodes fuel level (path ++ before) = true) :
    HufNode.Answer path (before ++ bitsOf m c) (slots.getBits m c) := by
  induction fuel generalizing level m slots before with
  | zero => cases h
  | succ fuel ih =>
    match slots with
    | .all (.terminal symbol bits) =>
      simp only [Slots.holdCodes, Bool.and_eq_true, decide_eq_true_eq, beq_iff_eq] at h
      obtain ⟨⟨⟨hsymbol, hpos⟩, rfl⟩, hcode⟩ := h
      rw [Slots.getBits]
      exact .terminal hsymbol hpos (by omega) (by rw [hcode, List.take_left' hlevel])
    | .all (.internal inner) =>
      simp only [Slots.holdCodes, Bool.and_eq_true, beq_iff_eq] at h
      obtain ⟨rfl, hinner⟩ := h
      obtain rfl : m = 0 := by omega
      rw [Slots.getBits]
      exact .internal ⟨inner, fuel, rfl, by simpa [bitsOf] using hinner⟩
    | .all .empty => cases h
    | .split zero one =>
      simp only [Slots.holdCodes, Bool.and_eq_true, decide_eq_true_eq, List.append_assoc] at h
      obtain ⟨⟨hlt, hzero⟩, hone⟩ := h
      obtain ⟨m, rfl⟩ : ∃ k, m = k + 1 := ⟨m - 1, by omega⟩
      rw [Slots.getBits, bitsOf_succ, List.append_cons]
      cases c.testBit m with
      | false => exact ih (by simp [hlevel]) (by omega) hzero
      | true => exact ih (by simp [hlevel]) (by omega) hone

theorem HufNode.StandsAt.slot {node : HufNode} {path : List Bool} (h : node.StandsAt path) (c : Nat) :
    HufNode.Answer path (bitsOf 8 c) (node.slot c) := by
  obtain ⟨slots, fuel, rfl, hslots⟩ := h
  exact Slots.getBits_answer (level := 0) (before := []) rfl (Nat.zero_add 8) (by rwa [List.append_nil])

theorem bitsOf_octet (v : Nat) : bitsOf 8 (v % 256) = bitsOf 8 v := bitsOf_mod (Nat.le_refl 8) v

/-! ### The walk (R160) -/

/-- The code word of EOS stands among the code words that the bit string starts with (R164). -/
def HasEos (bits : List Bool) : Prop :=
  ∃ (ws : List Nat) (rest : List Bool),
    (∀ w ∈ ws, w ≤ Config.eosSymbol) ∧ Config.eosSymbol ∈ ws ∧ bits = ws.flatMap codeBits ++ rest

theorem HasEos.append {bits : List Bool} (h : HasEos bits) (more : List Bool) : HasEos (bits ++ more) := by
  obtain ⟨ws, rest, hws, heos, rfl⟩ := h
  exact ⟨ws, rest ++ more, hws, heos, List.append_assoc ..⟩

/-- The bits the walk has taken in are the code words it has emitted, the path to its node, and its pending bits. -/
structure HufWalk.HasRead (w : HufWalk) (bits : List Bool) (ws : List Nat) (path : List Bool) : Prop where
  symbols : ∀ symbol ∈ ws, symbol < Config.eosSymbol
  out_eq : w.out = ws.map (BitVec.ofNat 8)
  stands : w.node.StandsAt path
  atRoot_eq : w.atRoot = path.isEmpty
  whole_octets : 8 ∣ path.length
  bits_eq : bits = ws.flatMap codeBits ++ (path ++ bitsOf w.bits w.cur)

/-- A part of the walk over `bits` stops at EOS, or it goes on to a state of which `done` holds. -/
inductive HufWalk.Reaches (bits : List Bool) (done : HufWalk → List Bool → Prop) : Except Err HufWalk → Prop where
  | eos (h : HasEos bits) : Reaches bits done (.error .eosDecodedLiterally)
  | next {w : HufWalk} {ws : List Nat} {path : List Bool} (h : w.HasRead bits ws path) (hdone : done w path) :
      Reaches bits done (.ok w)

/-- Going on after a part of the walk, perhaps with more bits. -/
theorem HufWalk.Reaches.bind {bits bits' : List Bool} {done done' : HufWalk → List Bool → Prop}
    {r : Except Err HufWalk} {k : HufWalk → Except Err HufWalk} (heos : HasEos bits → HasEos bits')
    (hk : ∀ {w ws path}, HufWalk.HasRead w bits ws path → done w path → HufWalk.Reaches bits' done' (k w)) :
    HufWalk.Reaches bits done r → HufWalk.Reaches bits' done' (match r with
      | .error e => .error e
      | .ok w => k w)
  | .eos h => .eos (heos h)
  | .next hread hdone => hk hread hdone

/-- A terminal whose code word ends within the pending bits (R160, R164). -/
theorem HufWalk.HasRead.emit {w : HufWalk} {bits path : List Bool} {ws : List Nat} (h : w.HasRead bits ws path)
    {symbol n : Nat} (hsymbol : symbol ≤ Config.eosSymbol) (hn : n ≤ w.bits)
    (hcode : codeBits symbol = path ++ (bitsOf w.bits w.cur).take n) :
    HufWalk.Reaches bits (fun w' path' => w'.bits = w.bits - n ∧ path' = []) (w.emit symbol n) := by
  obtain ⟨k, hk⟩ := Nat.exists_eq_add_of_le hn
  have hpending : bitsOf w.bits w.cur = (bitsOf w.bits w.cur).take n ++ bitsOf k w.cur := by
    rw [hk, bitsOf_add, List.take_left' (bitsOf_length _ _)]
  have hbits : bits = (ws ++ [symbol]).flatMap codeBits ++ ([] ++ bitsOf k w.cur) := by
    rw [h.bits_eq, hpending, ← List.append_assoc path, ← hcode]
    simp
  unfold HufWalk.emit
  by_cases heos : symbol = Config.eosSymbol
  · rw [if_pos heos]
    refine .eos ⟨ws ++ [symbol], _, ?_, by simp [heos], hbits⟩
    simpa [or_imp, forall_and, hsymbol] using fun s hs => (h.symbols s hs).le
  · rw [if_neg heos]
    refine .next (ws := ws ++ [symbol]) (path := []) ⟨?_, ?_, hufTree_standsAt, rfl, by simp, ?_⟩ ⟨rfl, rfl⟩
    · simpa [or_imp, forall_and, lt_of_le_of_ne hsymbol heos] using h.symbols
    · simp [h.out_eq]
    · rwa [hk, Nat.add_sub_cancel_left]

/-- `while bits >= 8` (R160). -/
theorem HufWalk.HasRead.lookups {w : HufWalk} {bits path : List Bool} {ws : List Nat} (h : w.HasRead bits ws path)
    {fuel : Nat} (hfuel : w.bits ≤ fuel) :
    HufWalk.Reaches bits (fun w' _ => w'.bits < 8) (w.lookups fuel) := by
  induction fuel generalizing w ws path with
  | zero => exact .next h (Nat.lt_of_le_of_lt hfuel (by decide))
  | succ fuel ih =>
    unfold HufWalk.lookups
    by_cases h8 : w.bits ≥ 8
    · rw [if_pos h8]
      obtain ⟨k, hk⟩ := Nat.exists_eq_add_of_le h8
      have hindex : bitsOf w.bits w.cur = bitsOf 8 ((w.cur >>> (w.bits - 8)) % 256) ++ bitsOf k w.cur := by
        rw [bitsOf_octet, hk, Nat.add_sub_cancel_left, bitsOf_add]
      generalize (w.cur >>> (w.bits - 8)) % 256 = c at hindex ⊢
      have hanswer := h.stands.slot c
      cases hslot : w.node.slot c with
      | empty => rw [hslot] at hanswer; cases hanswer
      | terminal symbol n =>
        rw [hslot] at hanswer
        cases hanswer with
        | terminal hsymbol hpos hle hcode =>
          have hemit := h.emit hsymbol (Nat.le_trans hle h8)
            (by rw [hcode, hindex, List.take_append_of_le_length (by rwa [bitsOf_length])])
          exact hemit.bind id fun hread hdone => ih hread (by omega)
      | internal slots =>
        rw [hslot] at hanswer
        cases hanswer with
        | internal hstands =>
          refine ih (path := path ++ bitsOf 8 c) ⟨h.symbols, h.out_eq, hstands, ?_, ?_, ?_⟩ (by dsimp only; omega)
          · simp [bitsOf_succ]
          · simpa using h.whole_octets
          · rw [h.bits_eq, hindex, hk, Nat.add_sub_cancel_left, List.append_assoc path]
    · rw [if_neg h8]
      exact .next h (Nat.not_le.mp h8)

theorem HufWalk.HasRead.feed {w : HufWalk} {bits path : List Bool} {ws : List Nat} (h : w.HasRead bits ws path)
    (h8 : w.bits < 8) (data : OctetString) :
    HufWalk.Reaches (bits ++ octetBits data) (fun w' _ => w'.bits < 8) (w.feed data) := by
  induction data generalizing w bits ws path with
  | nil => exact .next (by rwa [octetBits, List.flatMap_nil, List.append_nil]) h8
  | cons b data ih =>
    have hcur : bitsOf (w.bits + 8) ((w.cur * 256 + b.toNat) % 65536) = bitsOf w.bits w.cur ++ bitsOf 8 b.toNat := by
      rw [show 65536 = 2 ^ 16 from rfl, bitsOf_mod (by omega), show 256 = 2 ^ 8 from rfl, ← Nat.shiftLeft_eq,
        Nat.shiftLeft_add_eq_or_of_lt b.isLt, bitsOf_append b.isLt]
    have hread : HufWalk.HasRead { w with cur := (w.cur * 256 + b.toNat) % 65536, bits := w.bits + 8 }
        (bits ++ bitsOf 8 b.toNat) ws path :=
      ⟨h.symbols, h.out_eq, h.stands, h.atRoot_eq, h.whole_octets, by
        rw [h.bits_eq, hcur, List.append_assoc, List.append_assoc]⟩
    have hlookups := hread.lookups (Nat.le_refl (w.bits + 8))
    rw [show octetBits (b :: data) = bitsOf 8 b.toNat ++ octetBits data from rfl, ← List.append_assoc]
    unfold HufWalk.feed
    exact hlookups.bind (HasEos.append · _) fun hread' hdone => ih hread' hdone

theorem ProperPart.of_append {t u : List Bool} (h : ProperPart (t ++ u)) : ProperPart t := by
  obtain ⟨symbol, v, hsymbol, hv, hcode⟩ := h
  exact ⟨symbol, u ++ v, hsymbol, by simp [hv], by rw [hcode, List.append_assoc]⟩

theorem HufWalk.HasRead.properPart {w : HufWalk} {bits path : List Bool} {ws : List Nat} (h : w.HasRead bits ws path)
    (h0 : w.bits = 0) : ProperPart (path ++ bitsOf w.bits w.cur) := by
  rw [h0, show bitsOf 0 w.cur = [] from rfl, List.append_nil]
  exact h.stands.properPart

/-- The drain (R162): it leaves a proper part of a code word, at most seven bits of it pending. -/
theorem HufWalk.HasRead.drain {w : HufWalk} {bits path : List Bool} {ws : List Nat} (h : w.HasRead bits ws path)
    (h8 : w.bits < 8) {fuel : Nat} (hfuel : w.bits ≤ fuel) :
    HufWalk.Reaches bits (fun w' path' => w'.bits < 8 ∧ ProperPart (path' ++ bitsOf w'.bits w'.cur))
      (w.drain fuel) := by
  induction fuel generalizing w ws path with
  | zero => exact .next h ⟨h8, h.properPart (Nat.le_zero.mp hfuel)⟩
  | succ fuel ih =>
    unfold HufWalk.drain
    by_cases hpos : w.bits > 0
    · rw [if_pos hpos]
      have hindex : bitsOf 8 ((w.cur <<< (8 - w.bits)) % 256) = bitsOf w.bits w.cur ++ bitsOf (8 - w.bits) 0 := by
        rw [bitsOf_octet, ← bitsOf_append (Nat.two_pow_pos _), Nat.or_zero, Nat.add_sub_cancel' h8.le]
      generalize (w.cur <<< (8 - w.bits)) % 256 = c at hindex ⊢
      have hanswer := h.stands.slot c
      cases hslot : w.node.slot c with
      | empty => rw [hslot] at hanswer; cases hanswer
      | terminal symbol n =>
        rw [hslot] at hanswer
        cases hanswer with
        | terminal hsymbol hnpos hle hcode =>
          dsimp only
          by_cases hn : n ≤ w.bits
          · rw [if_pos hn]
            rw [hindex, List.take_append_of_le_length (by rwa [bitsOf_length])] at hcode
            exact (h.emit hsymbol hn hcode).bind id fun hread hdone => ih hread (by omega) (by omega)
          · rw [if_neg hn]
            refine .next h ⟨h8, symbol, (bitsOf (8 - w.bits) 0).take (n - w.bits), hsymbol, ?_, ?_⟩
            · rw [← List.length_pos_iff, List.length_take, bitsOf_length]
              omega
            · rw [hcode, hindex, List.take_append, bitsOf_length, List.take_of_length_le (by rw [bitsOf_length]; omega),
                List.append_assoc]
      | internal slots =>
        rw [hslot] at hanswer
        cases hanswer with
        | internal hstands =>
          rw [hindex, ← List.append_assoc] at hstands
          exact .next h ⟨h8, hstands.properPart.of_append⟩
    · rw [if_neg hpos]
      exact .next h ⟨h8, h.properPart (Nat.eq_zero_of_not_pos hpos)⟩

/-- HufDecode (R160, R164, R166): it stops at EOS, or the walk ends with a split into code words of which at most seven
bits are pending. -/
theorem hufDecode_cases (strict : Bool) (data : OctetString) :
    (hufDecode strict data = .error .eosDecodedLiterally ∧ HasEos (octetBits data)) ∨
    ∃ w ws path, hufDecode strict data = HufWalk.finish strict w ∧ w.HasRead (octetBits data) ws path ∧
      w.bits < 8 ∧ ProperPart (path ++ bitsOf w.bits w.cur) := by
  have hstart : HufWalk.start.HasRead [] [] [] :=
    ⟨by simp, rfl, hufTree_standsAt, rfl, by simp, rfl⟩
  have hfeed := hstart.feed (by decide) data
  rw [List.nil_append] at hfeed
  unfold hufDecode
  cases hfed : HufWalk.start.feed data with
  | error e =>
    rw [hfed] at hfeed
    cases hfeed with
    | eos heos => exact .inl ⟨rfl, heos⟩
  | ok w =>
    rw [hfed] at hfeed
    cases hfeed with
    | next hread h8 =>
      have hdrain := hread.drain h8 (Nat.le_refl w.bits)
      dsimp only
      cases hdrained : w.drain w.bits with
      | error e =>
        rw [hdrained] at hdrain
        cases hdrain with
        | eos heos => exact .inl ⟨rfl, heos⟩
      | ok w' =>
        rw [hdrained] at hdrain
        cases hdrain with
        | next hread' hdone => exact .inr ⟨w', _, _, rfl, hread', hdone⟩

/-! ### The round trip (R172) -/

theorem properPart_ones {k : Nat} (h : k ≤ 7) : ProperPart (List.replicate k true) := by
  have heos : codeBits Config.eosSymbol = List.replicate 30 true := by decide
  refine ⟨Config.eosSymbol, List.replicate (30 - k) true, Nat.le_refl _, ?_, ?_⟩
  · simp only [ne_eq, List.replicate_eq_nil_iff]
    omega
  · rw [heos, List.replicate_append_replicate, Nat.add_sub_cancel' (by omega)]

/-- The octets left of a walk that ends with fewer than eight ones. -/
theorem HufWalk.HasRead.finish {w : HufWalk} {bits path : List Bool} {ws : List Nat} (h : w.HasRead bits ws path)
    {k : Nat} (hk : k ≤ 7) (hones : path ++ bitsOf w.bits w.cur = List.replicate k true) (strict : Bool) :
    w.finish strict = .ok (ws.map (BitVec.ofNat 8)) := by
  have hlen : path.length + w.bits = k := by simpa using congrArg List.length hones
  obtain rfl : path = [] :=
    List.eq_nil_of_length_eq_zero (Nat.eq_zero_of_dvd_of_lt h.whole_octets (by omega))
  obtain rfl : w.bits = k := by simpa using hlen
  have hcur := mod_eq_of_bitsOf_eq (hones.trans (bitsOf_ones w.bits).symm)
  rw [Nat.mod_eq_of_lt (Nat.sub_lt (Nat.two_pow_pos _) Nat.one_pos)] at hcur
  have hroot : w.atRoot = true := h.atRoot_eq
  simp [HufWalk.finish, hcur, hroot, h.out_eq]

/-- HufDecode gives back what HufEncode wrote, under either value of HUF_STRICT_END (R172). -/
theorem hufDecode_hufEncode (strict : Bool) (x : OctetString) : hufDecode strict (hufEncode x) = .ok x := by
  obtain ⟨k, hk, hbits⟩ := octetBits_hufEncode x
  have hxs : ∀ symbol ∈ x.map BitVec.toNat, symbol < Config.eosSymbol := by
    intro symbol hs
    obtain ⟨b, -, rfl⟩ := List.mem_map.mp hs
    exact b.isLt
  have hones := properPart_ones hk
  rcases hufDecode_cases strict (hufEncode x) with
    ⟨-, ws, rest, hws, heos, hsplit⟩ | ⟨w, ws, path, hw, hread, -, hproper⟩
  · obtain ⟨more, hmore, -⟩ :=
      codeWords_prefix hones (fun s hs => (hxs s hs).le) hws (hsplit.symm.trans hbits)
    exact absurd (hxs Config.eosSymbol (by rw [hmore]; exact List.mem_append_left _ heos)) (Nat.lt_irrefl _)
  · obtain ⟨more, hmore, hleft⟩ := codeWords_prefix hones (fun s hs => (hxs s hs).le)
      (fun s hs => (hread.symbols s hs).le) (hread.bits_eq.symm.trans hbits)
    cases more with
    | nil =>
      rw [List.append_nil] at hmore
      rw [hw, hread.finish hk hleft, ← hmore, List.map_map]
      simp [Function.comp_def]
    | cons s more =>
      rw [List.flatMap_cons, List.append_assoc] at hleft
      exact absurd hleft (hproper.not_codeBits_append (hxs s (by rw [hmore]; simp)).le)

end Sys2Proof.Machine
end

section
/-!
PROOFS. String literals read back (30_encoding.md R85, R98; 43_string.md R190, R191): what `strEncode` writes for a
string is read as its text by StrDecode, and so by the form its first octet selects.
-/

namespace Sys2Proof.Machine

/-! ### The parts of an encoded string (R85) -/

/-- The Huffman flag H of a string. -/
def strHuffman : Str → Bool
  | .raw _ => false
  | .huf _ => true

/-- The content octets of a string. -/
def strOctets : Str → OctetString
  | .raw text => text
  | .huf text => hufEncode text

/-- The flags of a string's first octet: H in bit 7. -/
def strFlags (str : Str) : Nat := if strHuffman str then 0x80 else 0x00

theorem strEncode_eq (str : Str) :
    strEncode str = intEncode 7 (strFlags str) (strOctets str).length ++ strOctets str := by
  cases str <;> rfl

theorem strOctets_length_le {str : Str} (h : strFits str) : (strOctets str).length ≤ Config.intMax := by
  cases str <;> exact h

theorem strFlags_and (str : Str) : strFlags str &&& (2 ^ 7 - 1) = 0 := by
  unfold strFlags
  cases strHuffman str <;> rfl

theorem strFlags_testBit (str : Str) : (strFlags str).testBit 7 = strHuffman str := by
  unfold strFlags
  cases strHuffman str <;> rfl

/-- The 7-bit part of a string's first octet. -/
def strLow (str : Str) : Nat := min (strOctets str).length (2 ^ 7 - 1)

theorem strLow_lt (str : Str) : strLow str < 2 ^ 7 := min_lt_two_pow 7 _

theorem strEncode_eq_cons (str : Str) : strEncode str =
    BitVec.ofNat 8 (strFlags str ||| strLow str) :: (intEncodeRest 7 (strOctets str).length ++ strOctets str) := by
  rw [strEncode_eq, intEncode_eq_cons]
  rfl

/-! ### Reading them back (R190, R191) -/

theorem strContent_strOctets {str : Str} {inp after : OctetString} {pos : Nat} (strict : Bool)
    (h : inp.drop pos = strOctets str ++ after) :
    strContent strict (strHuffman str) (strOctets str).length inp pos =
      .ok (strText str, pos + (strOctets str).length) := by
  have hlen : ¬ inp.length - pos < (strOctets str).length := by
    rw [← List.length_drop, h, List.length_append]
    omega
  unfold strContent
  rw [if_neg hlen, h, List.take_left]
  cases str with
  | raw text => rfl
  | huf text => simp [strHuffman, strOctets, hufDecode_hufEncode, strText]

/-- StrDecode after the first octet of an encoded string. -/
theorem strRest_strEncode {str : Str} {inp after : OctetString} {pos : Nat} (strict : Bool) (hfits : strFits str)
    (h : inp.drop pos = strEncode str ++ after) :
    strRest strict (strHuffman str) (strLow str) inp (pos + 1) =
      .ok (strText str, pos + (strEncode str).length) := by
  rw [strEncode_eq_cons] at h ⊢
  have hrest := drop_succ_of_drop_eq_cons h
  rw [List.append_eq, List.append_assoc] at hrest
  have hint := intRest_intEncodeRest (strOctets_length_le hfits) hrest
  rw [strRest, strLow, hint]
  refine (strContent_strOctets strict (drop_add_length hrest)).trans ?_
  rw [List.length_cons, List.length_append]
  congr 2
  omega

/-- StrDecode reads back an encoded string, wherever it stands and whatever follows it (R190, R191). -/
theorem strDecode_strEncode {str : Str} {inp after : OctetString} {pos : Nat} (strict : Bool) (hfits : strFits str)
    (h : inp.drop pos = strEncode str ++ after) :
    strDecode strict inp pos = .ok (strText str, pos + (strEncode str).length) := by
  have hoctet := strEncode_eq_cons str ▸ h
  rw [strDecode, getElem?_of_drop_eq_cons hoctet, ← strRest_strEncode strict hfits h]
  show strRest strict ((BitVec.ofNat 8 (strFlags str ||| strLow str)).getLsbD 7)
    ((BitVec.ofNat 8 (strFlags str ||| strLow str)).toNat % 2 ^ 7) inp (pos + 1) = _
  rw [firstOctet_getLsbD (Nat.le_refl 7) (by decide) (strLow_lt str), strFlags_testBit,
    firstOctet_mod (by decide) (strFlags_and str) (strLow_lt str)]

/-! ### STR_RAW and STR_HUF (R190) -/

theorem stringLiteral_of_ok {s : State} {huf : Bool} {l : BitVec 7} {x : OctetString} {p : Nat}
    (h : strRest s.hufStrictEnd huf l.toNat s.scratch.input (s.scratch.pos + 1) = .ok (x, p)) :
    stringLiteral huf l s = .next (s.respond (.string x p)) := by
  rw [stringLiteral, h]

theorem stringLiteral_of_error {s : State} {huf : Bool} {l : BitVec 7} {e : Err}
    (h : strRest s.hufStrictEnd huf l.toNat s.scratch.input (s.scratch.pos + 1) = .error e) :
    stringLiteral huf l s = .next (s.raise e) := by
  rw [stringLiteral, h]

/-- The first octet of a string is the flag H and its 7-bit part (R85). -/
theorem strFirstOctet_eq (str : Str) :
    BitVec.ofNat 8 (strFlags str ||| strLow str) =
      BitVec.ofBool (strHuffman str) ++ BitVec.ofNat 7 (strLow str) := by
  have hall : ∀ low : Fin (2 ^ 7), BitVec.ofNat 8 (0x00 ||| low) = BitVec.ofBool false ++ BitVec.ofNat 7 low ∧
      BitVec.ofNat 8 (0x80 ||| low) = BitVec.ofBool true ++ BitVec.ofNat 7 low := by decide
  obtain ⟨hraw, hhuf⟩ := hall ⟨strLow str, strLow_lt str⟩
  cases str with
  | raw text => exact hraw
  | huf text => exact hhuf

/-- The literal at the cursor of an encoded string. -/
theorem stringLiteral_strEncode {s : State} {str : Str} {before after : OctetString} (hfits : strFits str)
    (hpos : s.scratch.pos = before.length) (hinp : s.scratch.input = before ++ strEncode str ++ after) :
    ∃ l : BitVec 7, s.octetAtCursor = some (BitVec.ofBool (strHuffman str) ++ l) ∧
      stringLiteral (strHuffman str) l s =
        .next (s.respond (.string (strText str) (before.length + (strEncode str).length))) := by
  have hdrop : s.scratch.input.drop s.scratch.pos = strEncode str ++ after := by
    rw [hinp, hpos, List.append_assoc, List.drop_left]
  refine ⟨BitVec.ofNat 7 (strLow str), ?_, stringLiteral_of_ok ?_⟩
  · rw [← strFirstOctet_eq]
    exact getElem?_of_drop_eq_cons (strEncode_eq_cons str ▸ hdrop)
  · rw [BitVec.toNat_ofNat, Nat.mod_eq_of_lt (strLow_lt str), ← hpos]
    exact strRest_strEncode _ hfits hdrop

/-- Settles O18: it holds; the two reading clauses by the meaning of the rows, the encodings by reading them back. -/
theorem stringLiteralsComplete : Obligations.StringLiteralsComplete := by
  refine ⟨fun _ _ _ _ => ⟨stringLiteral_of_ok, stringLiteral_of_ok⟩,
    fun _ _ _ => ⟨stringLiteral_of_error, stringLiteral_of_error⟩, fun s before after text hpos => ⟨?_, ?_⟩⟩
  · exact fun hfits hinp => stringLiteral_strEncode (str := .raw text) hfits hpos hinp
  · exact fun hfits hinp => stringLiteral_strEncode (str := .huf text) hfits hpos hinp

end Sys2Proof.Machine
end

section
/-!
PROOFS. A header block assembled from lines decodes to what the lines mean (30_encoding.md R98; 46_field_decoder.md
R280–R290, R293): each line's octets are read back by DecodeField, and the loop of R280 runs over the lines.
-/

namespace Sys2Proof.Machine

/-! ### The first octet of a line (R81, R83) -/

/-- The name index a reference is encoded with: 0 where a literal name follows (R83). -/
def nameIndex : NameRef → Nat
  | .idx i => i
  | .lit _ => 0

/-- What follows the name index (R83). -/
def nameRest : NameRef → OctetString
  | .idx _ => []
  | .lit name => strEncode name

theorem nameEncode_eq (n pat : Nat) (nm : NameRef) :
    nameEncode n pat nm = intEncode n pat (nameIndex nm) ++ nameRest nm := by
  cases nm with
  | idx i => exact (List.append_nil _).symm
  | lit name => rfl

/-- Every line starts with an integer (R83). -/
theorem lineEncode_eq (l : Line) : ∃ n flags v rest, lineEncode l = intEncode n flags v ++ rest := by
  cases l with
  | idx i => exact ⟨_, _, _, [], (List.append_nil _).symm⟩
  | sizeUpd n => exact ⟨_, _, _, [], (List.append_nil _).symm⟩
  | litInc nm value => exact ⟨_, _, _, _, by rw [lineEncode, nameEncode_eq, List.append_assoc]⟩
  | litNoidx nm value => exact ⟨_, _, _, _, by rw [lineEncode, nameEncode_eq, List.append_assoc]⟩
  | litNever nm value => exact ⟨_, _, _, _, by rw [lineEncode, nameEncode_eq, List.append_assoc]⟩

theorem lineEncode_length_pos (l : Line) : 0 < (lineEncode l).length := by
  obtain ⟨n, flags, v, rest, hl⟩ := lineEncode_eq l
  rw [hl, List.length_append, intEncode_length]
  omega

/-- The octet where an integer starts has the integer's flags above its `n`-bit part. -/
theorem octet_of_intEncode {n flags v pos : Nat} {inp after : OctetString}
    (h : inp.drop pos = intEncode n flags v ++ after) :
    ∃ b, inp[pos]? = some b ∧ ∀ k, n ≤ k → k < 8 → b.getLsbD k = flags.testBit k := by
  rw [intEncode_eq_cons] at h
  exact ⟨_, getElem?_of_drop_eq_cons h, fun k hn hk => firstOctet_getLsbD hn hk (min_lt_two_pow n v)⟩

/-! ### DecodeField where its operands are read (R281–R288) -/

theorem fieldAt_idx {c : BlockConfig} {t : DynTable} {inp : OctetString} {pos i p : Nat} {b : Octet}
    {name value : OctetString} (hb : inp[pos]? = some b) (h7 : b.getLsbD 7 = true)
    (hint : intDecode 7 inp pos = .ok (i, p)) (hget : t.get i = .ok (name, value)) :
    fieldAt c t inp pos = .ok (.ok (some ⟨name, value, false⟩, p, t)) := by
  simp only [fieldAt, hb, h7, hint, hget, if_true]

theorem fieldAt_sizeUpd {c : BlockConfig} {t t' : DynTable} {inp : OctetString} {pos n p : Nat} {b : Octet}
    (hb : inp[pos]? = some b) (h7 : b.getLsbD 7 = false) (h6 : b.getLsbD 6 = false) (h5 : b.getLsbD 5 = true)
    (hint : intDecode 5 inp pos = .ok (n, p)) (hset : t.setMax (min n c.cfgMax) = .ok t') :
    fieldAt c t inp pos = .ok (.ok (none, p, t')) := by
  simp only [fieldAt, hb, h7, h6, h5, hint, hset, Bool.false_eq_true, if_false, if_true]

/-- The width of the name index of a literal field (R81). -/
def LiteralKind.width : LiteralKind → Nat
  | .inc => 6
  | .never => 4
  | .noidx => 4

/-- The bits of the first octet above the name index of a literal field (R81). -/
def LiteralKind.flags : LiteralKind → Nat
  | .inc => 0x40
  | .never => 0x10
  | .noidx => 0x00

/-- The line of a literal field (R98). -/
def LiteralKind.line (nm : NameRef) (value : Str) : LiteralKind → Line
  | .inc => .litInc nm value
  | .never => .litNever nm value
  | .noidx => .litNoidx nm value

/-- The table a literal field leaves: changed by LIT_INC only (R289). -/
def LiteralKind.Leaves (kind : LiteralKind) (t : DynTable) (name value : OctetString) (t' : DynTable) : Prop :=
  match kind with
  | .inc => t.insert name value = .ok t'
  | .never => t' = t
  | .noidx => t' = t

theorem nameOperand_ok {strict : Bool} {t : DynTable} {ni pos q : Nat} {inp name : OctetString}
    (h : nameOperand strict t ni inp pos = .ok (name, q)) :
    (ni = 0 ∧ strDecode strict inp pos = .ok (name, q)) ∨
      (ni ≠ 0 ∧ q = pos ∧ ∃ value, t.get ni = .ok (name, value)) := by
  unfold nameOperand at h
  split at h
  · rename_i h0
    split at h
    · cases h
    · rename_i hget
      cases h
      exact .inr ⟨h0, rfl, _, hget⟩
  · exact .inl ⟨by omega, h⟩

/-- A literal field whose operands are read (R284). -/
theorem fieldAt_literal {c : BlockConfig} {t t' : DynTable} {inp : OctetString} {pos ni p q r : Nat} {b : Octet}
    {name value : OctetString} (kind : LiteralKind) (hb : inp[pos]? = some b)
    (hbits : ∀ k, kind.width ≤ k → k < 8 → b.getLsbD k = kind.flags.testBit k)
    (hint : intDecode kind.width inp pos = .ok (ni, p)) (hname : nameOperand c.strictEnd t ni inp p = .ok (name, q))
    (hvalue : strDecode c.strictEnd inp q = .ok (value, r)) (ht : kind.Leaves t name value t') :
    fieldAt c t inp pos = .ok (.ok (some ⟨name, value, decide (kind = .never)⟩, r, t')) := by
  cases kind with
  | inc =>
    have h7 : b.getLsbD 7 = false := hbits 7 (by decide) (by decide)
    have h6 : b.getLsbD 6 = true := hbits 6 (by decide) (by decide)
    simp only [LiteralKind.width] at hint
    simp only [LiteralKind.Leaves] at ht
    rcases nameOperand_ok hname with ⟨rfl, hstr⟩ | ⟨h0, rfl, other, hget⟩
    · simp [fieldAt, hb, h7, h6, hint, hstr, hvalue, ht, -BitVec.getLsbD_eq_getElem]
    · simp [fieldAt, hb, h7, h6, hint, h0, hget, hvalue, ht, -BitVec.getLsbD_eq_getElem]
  | never =>
    have h7 : b.getLsbD 7 = false := hbits 7 (by decide) (by decide)
    have h6 : b.getLsbD 6 = false := hbits 6 (by decide) (by decide)
    have h5 : b.getLsbD 5 = false := hbits 5 (by decide) (by decide)
    have h4 : b.getLsbD 4 = true := hbits 4 (by decide) (by decide)
    simp only [LiteralKind.width] at hint
    obtain rfl : t' = t := ht
    rcases nameOperand_ok hname with ⟨rfl, hstr⟩ | ⟨h0, rfl, other, hget⟩
    · simp [fieldAt, hb, h7, h6, h5, h4, hint, hstr, hvalue, -BitVec.getLsbD_eq_getElem]
    · simp [fieldAt, hb, h7, h6, h5, h4, hint, h0, hget, hvalue, -BitVec.getLsbD_eq_getElem]
  | noidx =>
    have h7 : b.getLsbD 7 = false := hbits 7 (by decide) (by decide)
    have h6 : b.getLsbD 6 = false := hbits 6 (by decide) (by decide)
    have h5 : b.getLsbD 5 = false := hbits 5 (by decide) (by decide)
    have h4 : b.getLsbD 4 = false := hbits 4 (by decide) (by decide)
    simp only [LiteralKind.width] at hint
    obtain rfl : t' = t := ht
    rcases nameOperand_ok hname with ⟨rfl, hstr⟩ | ⟨h0, rfl, other, hget⟩
    · simp [fieldAt, hb, h7, h6, h5, h4, hint, hstr, hvalue, -BitVec.getLsbD_eq_getElem]
    · simp [fieldAt, hb, h7, h6, h5, h4, hint, h0, hget, hvalue, -BitVec.getLsbD_eq_getElem]

/-! ### DecodeField at an encoded line (R293) -/

theorem nameIndex_le {nm : NameRef} (h : nameFits nm) : nameIndex nm ≤ Config.intMax := by
  cases nm with
  | idx i => exact h
  | lit name => exact Nat.zero_le _

theorem DynTable.get_ne_zero {t : DynTable} {i : Nat} {e : OctetString × OctetString} (h : t.get i = .ok e) :
    i ≠ 0 := by
  rintro rfl
  cases h

/-- A name reference is read back as the name it stands for (R284). -/
theorem nameOperand_nameRest {strict : Bool} {t : DynTable} {nm : NameRef} {name inp after : OctetString} {pos : Nat}
    (hfits : nameFits nm) (hname : nameText t nm = some name) (h : inp.drop pos = nameRest nm ++ after) :
    nameOperand strict t (nameIndex nm) inp pos = .ok (name, pos + (nameRest nm).length) := by
  cases nm with
  | idx i =>
    simp only [nameText] at hname
    split at hname
    · rename_i hget
      cases hname
      simp only [nameOperand, nameIndex, DynTable.get_ne_zero hget, hget, ne_eq, not_false_eq_true, if_true]
      rfl
    · cases hname
  | lit str =>
    cases hname
    exact strDecode_strEncode strict hfits h

theorem lineMeaning_idx {cfgMax i : Nat} {t t' : DynTable} {hd : Option Header}
    (h : lineMeaning cfgMax t (.idx i) = some (hd, t')) :
    ∃ name value, t.get i = .ok (name, value) ∧ hd = some ⟨name, value, false⟩ ∧ t' = t := by
  simp only [lineMeaning] at h
  split at h
  · rename_i hget
    cases h
    exact ⟨_, _, hget, rfl, rfl⟩
  · cases h

theorem lineMeaning_sizeUpd {cfgMax n : Nat} {t t' : DynTable} {hd : Option Header}
    (h : lineMeaning cfgMax t (.sizeUpd n) = some (hd, t')) : t.setMax (min n cfgMax) = .ok t' ∧ hd = none := by
  simp only [lineMeaning] at h
  split at h
  · rename_i hset
    cases h
    exact ⟨hset, rfl⟩
  · cases h

/-- What a literal line means (R284–R288). -/
theorem lineMeaning_literal {cfgMax : Nat} {t t' : DynTable} {kind : LiteralKind} {nm : NameRef} {value : Str}
    {hd : Option Header} (h : lineMeaning cfgMax t (kind.line nm value) = some (hd, t')) :
    ∃ name, nameText t nm = some name ∧ hd = some ⟨name, strText value, decide (kind = .never)⟩ ∧
      kind.Leaves t name (strText value) t' := by
  cases kind with
  | inc =>
    simp only [LiteralKind.line, lineMeaning] at h
    split at h
    · cases h
    · rename_i name hname
      split at h
      · rename_i hins
        cases h
        exact ⟨name, hname, rfl, hins⟩
      · cases h
  | never =>
    obtain ⟨name, hname, heq⟩ := Option.map_eq_some_iff.mp h
    cases heq
    exact ⟨name, hname, rfl, rfl⟩
  | noidx =>
    obtain ⟨name, hname, heq⟩ := Option.map_eq_some_iff.mp h
    cases heq
    exact ⟨name, hname, rfl, rfl⟩

/-- DecodeField at an encoded literal line. -/
theorem fieldAt_literal_line {c : BlockConfig} {t t' : DynTable} {inp after : OctetString} {pos : Nat}
    {kind : LiteralKind} {nm : NameRef} {value : Str} {hd : Option Header} (hnm : nameFits nm) (hvalue : strFits value)
    (hmeaning : lineMeaning c.cfgMax t (kind.line nm value) = some (hd, t'))
    (h : inp.drop pos = nameEncode kind.width kind.flags nm ++ strEncode value ++ after) :
    fieldAt c t inp pos =
      .ok (.ok (hd, pos + (nameEncode kind.width kind.flags nm ++ strEncode value).length, t')) := by
  obtain ⟨name, hname, rfl, ht⟩ := lineMeaning_literal hmeaning
  rw [nameEncode_eq] at h ⊢
  simp only [List.append_assoc] at h ⊢
  obtain ⟨b, hb, hbits⟩ := octet_of_intEncode h
  have hint := intDecode_intEncode (by cases kind <;> decide) (by cases kind <;> rfl) (nameIndex_le hnm) h
  have hrest := drop_add_length h
  have hstr := drop_add_length hrest
  rw [fieldAt_literal kind hb hbits hint (nameOperand_nameRest hnm hname hrest)
    (strDecode_strEncode c.strictEnd hvalue hstr) ht]
  simp only [List.length_append, Nat.add_assoc]

/-- DecodeField reads an encoded line back as what it means (R293). -/
theorem fieldAt_lineEncode {c : BlockConfig} {t t' : DynTable} {l : Line} {inp after : OctetString} {pos : Nat}
    {hd : Option Header} (hfits : lineFits l) (hmeaning : lineMeaning c.cfgMax t l = some (hd, t'))
    (h : inp.drop pos = lineEncode l ++ after) :
    fieldAt c t inp pos = .ok (.ok (hd, pos + (lineEncode l).length, t')) := by
  cases l with
  | idx i =>
    obtain ⟨b, hb, hbits⟩ := octet_of_intEncode h
    obtain ⟨name, value, hget, rfl, rfl⟩ := lineMeaning_idx hmeaning
    exact fieldAt_idx hb (hbits 7 (by decide) (by decide)) (intDecode_intEncode (by decide) rfl hfits h) hget
  | sizeUpd n =>
    obtain ⟨b, hb, hbits⟩ := octet_of_intEncode h
    obtain ⟨hset, rfl⟩ := lineMeaning_sizeUpd hmeaning
    exact fieldAt_sizeUpd hb (hbits 7 (by decide) (by decide)) (hbits 6 (by decide) (by decide))
      (hbits 5 (by decide) (by decide)) (intDecode_intEncode (by decide) rfl hfits h) hset
  | litInc nm value => exact fieldAt_literal_line (kind := .inc) hfits.1 hfits.2 hmeaning h
  | litNever nm value => exact fieldAt_literal_line (kind := .never) hfits.1 hfits.2 hmeaning h
  | litNoidx nm value => exact fieldAt_literal_line (kind := .noidx) hfits.1 hfits.2 hmeaning h

/-! ### The loop over the lines (R280, R290) -/

theorem linesMeaning_cons {cfgMax : Nat} {t t' : DynTable} {l : Line} {ls : List Line} {hs : List Header}
    (h : linesMeaning cfgMax t (l :: ls) = some (hs, t')) :
    ∃ hd u rest, lineMeaning cfgMax t l = some (hd, u) ∧ linesMeaning cfgMax u ls = some (rest, t') ∧
      hs = hd.toList ++ rest := by
  unfold linesMeaning at h
  split at h
  · cases h
  · rename_i hline
    split at h
    · cases h
    · rename_i hrest
      cases h
      exact ⟨_, _, _, hline, hrest, rfl⟩

/-- The triples still to come stay below the list cap, where one is configured (R283). -/
def BelowCap (cap : Option Nat) (total : Nat) (hs : List Header) : Prop :=
  ∀ n, cap = some n → hs = [] ∨ total + headersSize hs < n

@[simp] theorem headersSize_cons (h : Header) (hs : List Header) : headersSize (h :: hs) = h.size + headersSize hs := by
  simp [headersSize]

/-- The loop of R280 over an assembled block. -/
theorem blockLoop_assemble {c : BlockConfig} {inp : OctetString} {lines : List Line} {fuel pos total : Nat}
    {t t' : DynTable} {out hs : List Header} (hfits : ∀ l ∈ lines, lineFits l)
    (hmeaning : linesMeaning c.cfgMax t lines = some (hs, t')) (h : inp.drop pos = assemble lines)
    (hfuel : inp.length - pos < fuel) (hcap : BelowCap c.cap total hs) :
    blockLoop c inp fuel t pos out total = .ok (.ok (.headers (out ++ hs)), t') := by
  induction lines generalizing fuel t pos out total hs with
  | nil =>
    cases hmeaning
    obtain ⟨fuel, rfl⟩ := Nat.exists_eq_add_one_of_ne_zero (Nat.ne_zero_of_lt hfuel)
    rw [blockLoop, if_neg (Nat.not_lt.mpr (List.drop_eq_nil_iff.mp h)), List.append_nil]
  | cons l ls ih =>
    rw [List.forall_mem_cons] at hfits
    obtain ⟨hl, hls⟩ := hfits
    obtain ⟨hd, u, rest, hline, hrest, rfl⟩ := linesMeaning_cons hmeaning
    have hpos := lineEncode_length_pos l
    have hlen : pos + (lineEncode l).length ≤ inp.length := by
      have := congrArg List.length h
      rw [assemble, List.flatMap_cons, List.length_drop, List.length_append] at this
      omega
    obtain ⟨fuel, rfl⟩ := Nat.exists_eq_add_one_of_ne_zero (Nat.ne_zero_of_lt hfuel)
    have hnext := drop_add_length h
    rw [blockLoop, if_pos (by omega), fieldAt_lineEncode hl hline h]
    cases hd with
    | none => exact ih hls hrest hnext (by omega) hcap
    | some hd =>
      have htotal : ∀ n, c.cap = some n → total + hd.size + headersSize rest < n := fun n hn => by
        have := (hcap n hn).resolve_left (List.cons_ne_nil _ _)
        rwa [Option.toList_some, List.singleton_append, headersSize_cons, ← Nat.add_assoc] at this
      rw [Option.toList_some, ← List.append_assoc]
      cases hc : c.cap with
      | none => exact ih hls hrest hnext (by omega) fun n hn => by rw [hc] at hn; cases hn
      | some n =>
        have hbelow := htotal n hc
        dsimp only
        rw [if_neg (by omega)]
        exact ih hls hrest hnext (by omega) fun m hm => .inr (htotal m hm)

/-- Settles O41: it holds, by the loop over the lines from the start of the block. -/
theorem assembledBlockDecodes : Obligations.AssembledBlockDecodes := by
  intro s lines hs t' _ _ hfits hmeaning hcap
  refine blockLoop_assemble hfits hmeaning rfl (Nat.lt_succ_self _) fun n hn => ?_
  simp only [State.blockConfig] at hn
  split at hn
  · rename_i hen
    cases hn
    rw [Nat.zero_add]
    exact hcap hen
  · cases hn

end Sys2Proof.Machine
end

section
/-!
PROOFS. The integer unit octet by octet (41_integer.md R120–R126, R130, R132): the number that continuation octets hold,
what the loop of IntDecode does over a run of octets with bit 7 set, and the octets the loop of IntEncode writes.
-/

namespace Sys2Proof.Machine

/-! ### The number in continuation octets (R123) -/

/-- The number that continuation octets hold: base-128 groups, least significant first (R123). -/
def groupsValue (cs : OctetString) : Nat :=
  ((List.range cs.length).map fun k => (cs.getD k 0).toNat % 128 * 2 ^ (7 * k)).sum

@[simp] theorem groupsValue_nil : groupsValue [] = 0 := rfl

@[simp] theorem groupsValue_cons (c : Octet) (cs : OctetString) :
    groupsValue (c :: cs) = c.toNat % 128 + groupsValue cs * 128 := by
  have hshift : ∀ k, ((c :: cs).getD (k + 1) 0).toNat % 128 * 2 ^ (7 * (k + 1)) =
      (cs.getD k 0).toNat % 128 * 2 ^ (7 * k) * 128 := fun k => by
    rw [List.getD_cons_succ, Nat.mul_succ, Nat.pow_add, Nat.mul_assoc]
  rw [groupsValue, List.length_cons, List.range_succ_eq_map, List.map_cons, List.sum_cons, List.map_map]
  simp only [Function.comp_def, hshift, List.sum_map_mul_right]
  rw [List.getD_cons_zero, Nat.mul_zero, Nat.pow_zero, Nat.mul_one, groupsValue]

theorem groupsValue_concat (gs : OctetString) (last : Octet) :
    groupsValue (gs ++ [last]) = groupsValue gs + last.toNat % 128 * 2 ^ (7 * gs.length) := by
  induction gs with
  | nil => simp
  | cons g gs ih =>
    rw [List.cons_append, groupsValue_cons, ih, groupsValue_cons, List.length_cons]
    ring

/-- The value with the loop's start: the next group counts at weight 2^m, the others at weight 2^(m + 7). -/
theorem add_groupsValue_cons (v m : Nat) (c : Octet) (cs : OctetString) :
    v + c.toNat % 128 * 2 ^ m + groupsValue cs * 2 ^ (m + 7) = v + groupsValue (c :: cs) * 2 ^ m := by
  rw [groupsValue_cons]
  ring

theorem sum_groups_concat (gs : OctetString) (last : Octet) :
    ((List.range (gs.length + 1)).map fun k => ((gs ++ [last]).getD k 0).toNat % 128 * 2 ^ (7 * k)).sum =
      groupsValue (gs ++ [last]) := by
  rw [groupsValue, List.length_append, List.length_singleton]

/-! ### The shape of continuation octets -/

/-- Continuation octets are some with bit 7 set and one with bit 7 clear after them (R126). -/
theorem continuation_iff_concat {cs : OctetString} :
    (1 ≤ cs.length ∧ (∀ k, k + 1 < cs.length → (cs.getD k 0).getLsbD 7 = true) ∧
      (cs.getD (cs.length - 1) 0).getLsbD 7 = false) ↔
    ∃ gs last, cs = gs ++ [last] ∧ (∀ g ∈ gs, g.getLsbD 7 = true) ∧ last.getLsbD 7 = false := by
  have hgetD : ∀ (gs : OctetString) (last : Octet) (k : Nat) (hk : k < gs.length), (gs ++ [last]).getD k 0 = gs[k] :=
    fun gs last k hk => by rw [List.getD_append _ _ _ _ hk, List.getD_eq_getElem _ _ hk]
  constructor
  · rintro ⟨hlen, hmore, hlast⟩
    obtain rfl | ⟨gs, last, rfl⟩ := List.eq_nil_or_concat' cs
    · cases hlen
    rw [List.length_append, List.length_singleton] at hmore hlast
    refine ⟨gs, last, rfl, fun g hg => ?_, by simpa using hlast⟩
    obtain ⟨k, hk, rfl⟩ := List.mem_iff_getElem.mp hg
    exact hgetD gs last k hk ▸ hmore k (Nat.succ_lt_succ hk)
  · rintro ⟨gs, last, rfl, hmore, hlast⟩
    rw [List.length_append, List.length_singleton]
    refine ⟨Nat.le_add_left _ _, fun k hk => ?_, by simpa using hlast⟩
    rw [hgetD gs last k (Nat.lt_of_succ_lt_succ hk)]
    exact hmore _ (List.getElem_mem _)

/-! ### The loop of IntDecode (R120, R124, R125) -/

/-- Over octets with bit 7 set the loop runs on: each adds its group and uses up one of the octets still allowed. -/
theorem intGroups_append {inp cs rest : OctetString} (left : Nat) {pos m v : Nat} (h : inp.drop pos = cs ++ rest)
    (hmore : ∀ c ∈ cs, c.getLsbD 7 = true) :
    intGroups inp (cs.length + left) pos m v =
      intGroups inp left (pos + cs.length) (m + 7 * cs.length) (v + groupsValue cs * 2 ^ m) := by
  induction cs generalizing pos m v with
  | nil => simp
  | cons c cs ih =>
    rw [List.forall_mem_cons] at hmore
    obtain ⟨hc, hcs⟩ := hmore
    rw [List.length_cons, Nat.add_right_comm, intGroups_cons h, if_pos hc, ih (drop_succ_of_drop_eq_cons h) hcs,
      add_groupsValue_cons]
    congr 1 <;> omega

theorem intGroups_of_length_le {inp : OctetString} {pos : Nat} (h : inp.length ≤ pos) (left m v : Nat) :
    intGroups inp (left + 1) pos m v = .error .unexpectedEndOfStream := by
  rw [intGroups, List.getElem?_eq_none h]

/-- The input ends after octets with bit 7 set, fewer than the loop allows (R125). -/
theorem intGroups_ends {inp cs : OctetString} {left pos : Nat} (m v : Nat) (h : inp.drop pos = cs)
    (hmore : ∀ c ∈ cs, c.getLsbD 7 = true) (hlen : cs.length < left) :
    intGroups inp left pos m v = .error .unexpectedEndOfStream := by
  obtain ⟨k, rfl⟩ := Nat.exists_eq_add_of_lt hlen
  have hend : inp.length ≤ pos + cs.length := by
    rw [← List.drop_eq_nil_iff, drop_add_length (after := []) (by rw [h, List.append_nil])]
  rw [Nat.add_assoc, intGroups_append _ (h.trans (List.append_nil cs).symm) hmore, intGroups_of_length_le hend]

/-- As many octets with bit 7 set as the loop allows: one more would be needed (R124). -/
theorem intGroups_exhausted {inp cs rest : OctetString} {pos : Nat} (m v : Nat) (h : inp.drop pos = cs ++ rest)
    (hmore : ∀ c ∈ cs, c.getLsbD 7 = true) :
    intGroups inp cs.length pos m v = .error .integerLimitExceeded := by
  rw [← Nat.add_zero cs.length, intGroups_append 0 h hmore, intGroups]

/-- Octets with bit 7 set and a last one with bit 7 clear: the loop is done, and the value decides (R124). -/
theorem intGroups_concat {inp gs rest : OctetString} {last : Octet} {left pos : Nat} (m v : Nat)
    (h : inp.drop pos = gs ++ last :: rest) (hmore : ∀ g ∈ gs, g.getLsbD 7 = true) (hlast : last.getLsbD 7 = false)
    (hlen : gs.length < left) :
    intGroups inp left pos m v =
      if v + groupsValue (gs ++ [last]) * 2 ^ m > Config.intMax then .error .integerLimitExceeded
      else .ok (v + groupsValue (gs ++ [last]) * 2 ^ m, pos + (gs ++ [last]).length) := by
  obtain ⟨k, rfl⟩ := Nat.exists_eq_add_of_lt hlen
  have hvalue : v + groupsValue gs * 2 ^ m + last.toNat % 128 * 2 ^ (m + 7 * gs.length) =
      v + groupsValue (gs ++ [last]) * 2 ^ m := by
    rw [groupsValue_concat]
    ring
  rw [Nat.add_assoc, intGroups_append _ h hmore, intGroups_cons (drop_add_length h), hlast, if_neg (by decide), hvalue,
    List.length_append, List.length_singleton, Nat.add_assoc]

/-- Where the loop answers, it read octets with bit 7 set and then one with bit 7 clear (R126). -/
theorem intGroups_ok_split {inp : OctetString} {left pos m v w p : Nat} (h : intGroups inp left pos m v = .ok (w, p)) :
    ∃ gs last rest, inp.drop pos = gs ++ last :: rest ∧ gs.length < left ∧ (∀ g ∈ gs, g.getLsbD 7 = true) ∧
      last.getLsbD 7 = false := by
  induction left generalizing pos m v with
  | zero => cases h
  | succ left ih =>
    obtain ⟨-, -, hpos, hend, -⟩ := intGroups_ok h
    have hdrop := List.drop_eq_getElem_cons (Nat.lt_of_lt_of_le hpos hend)
    rw [intGroups_cons hdrop] at h
    by_cases h7 : inp[pos].getLsbD 7 = true
    · rw [if_pos h7] at h
      obtain ⟨gs, last, rest, hsplit, hlen, hmore, hlast⟩ := ih h
      exact ⟨inp[pos] :: gs, last, rest, by rw [hdrop, hsplit, List.cons_append], Nat.succ_lt_succ hlen,
        List.forall_mem_cons.mpr ⟨h7, hmore⟩, hlast⟩
    · exact ⟨[], inp[pos], inp.drop (pos + 1), hdrop, Nat.succ_pos _, by simp, Bool.eq_false_iff.mpr h7⟩

/-- Exactly where the loop answers, and what (R123, R126). -/
theorem intGroups_ok_iff {inp : OctetString} {left pos m v w p : Nat} :
    intGroups inp left pos m v = .ok (w, p) ↔
      ∃ cs : OctetString, (inp.drop pos).take cs.length = cs ∧ 1 ≤ cs.length ∧ cs.length ≤ left ∧
        (∀ k, k + 1 < cs.length → (cs.getD k 0).getLsbD 7 = true) ∧ (cs.getD (cs.length - 1) 0).getLsbD 7 = false ∧
        w = v + groupsValue cs * 2 ^ m ∧ w ≤ Config.intMax ∧ p = pos + cs.length := by
  constructor
  · intro h
    obtain ⟨gs, last, rest, hsplit, hlen, hmore, hlast⟩ := intGroups_ok_split h
    obtain ⟨hpos, hshape, hend⟩ := continuation_iff_concat.mpr ⟨gs, last, rfl, hmore, hlast⟩
    obtain ⟨hmax, -⟩ := intGroups_ok h
    have htake : (inp.drop pos).take (gs ++ [last]).length = gs ++ [last] := by
      rw [hsplit, List.append_cons gs last rest, List.take_left]
    rw [intGroups_concat m v hsplit hmore hlast hlen] at h
    split at h
    · cases h
    · cases h
      exact ⟨gs ++ [last], htake, hpos, by simpa using hlen, hshape, hend, rfl, hmax, rfl⟩
  · rintro ⟨cs, htake, hpos, hlen, hshape, hend, rfl, hmax, rfl⟩
    obtain ⟨gs, last, rfl, hmore, hlast⟩ := continuation_iff_concat.mp ⟨hpos, hshape, hend⟩
    obtain ⟨rest, hsplit⟩ := List.prefix_iff_eq_take.mpr htake.symm
    rw [← List.append_cons] at hsplit
    rw [List.length_append] at hlen
    rw [intGroups_concat m v hsplit.symm hmore hlast hlen, if_neg (Nat.not_lt.mpr hmax)]

/-! ### IntDecode after and at its first octet (R120–R122) -/

theorem intRest_of_lt {n low : Nat} (h : low < 2 ^ n - 1) (inp : OctetString) (pos : Nat) :
    intRest n low inp pos = .ok (low, pos) :=
  if_pos h

theorem intRest_of_allOnes (n : Nat) (inp : OctetString) (pos : Nat) :
    intRest n (2 ^ n - 1) inp pos = intGroups inp 5 pos 0 (2 ^ n - 1) :=
  if_neg (Nat.lt_irrefl _)

theorem intDecode_of_getElem? {inp : OctetString} {pos : Nat} {b : Octet} (h : inp[pos]? = some b) (n : Nat) :
    intDecode n inp pos = intRest n (b.toNat % 2 ^ n) inp (pos + 1) := by
  rw [intDecode, h]

/-- The first octet's low bits all ones: the continuation octets decide (R120). -/
theorem intDecode_allOnes {n pos : Nat} {inp : OctetString} {b : Octet} (hb : inp[pos]? = some b)
    (hones : b.toNat % 2 ^ n = 2 ^ n - 1) : intDecode n inp pos = intGroups inp 5 (pos + 1) 0 (2 ^ n - 1) := by
  rw [intDecode_of_getElem? hb, hones, intRest_of_allOnes]

/-- IntDecode where the operand is written out around its all-ones first octet. -/
theorem intDecode_allOnes_append {n : Nat} {before rest : OctetString} {b : Octet}
    (hones : b.toNat % 2 ^ n = 2 ^ n - 1) :
    intDecode n (before ++ b :: rest) before.length =
      intGroups (before ++ b :: rest) 5 (before.length + 1) 0 (2 ^ n - 1) :=
  intDecode_allOnes (by simp) hones

theorem drop_length_succ (before rest : OctetString) (b : Octet) :
    (before ++ b :: rest).drop (before.length + 1) = rest :=
  drop_succ_of_drop_eq_cons (List.drop_left)

/-! ### The octets IntEncode writes (R130) -/

theorem intEncode_of_lt {n v : Nat} (h : v < 2 ^ n - 1) (flags : Nat) :
    intEncode n flags v = [BitVec.ofNat 8 (flags ||| v)] :=
  if_pos h

theorem intEncode_of_ge {n v : Nat} (h : 2 ^ n - 1 ≤ v) (flags : Nat) :
    intEncode n flags v =
      BitVec.ofNat 8 (flags ||| (2 ^ n - 1)) :: intEncodeGroups Config.intMaxCont (v - (2 ^ n - 1)) :=
  if_neg (Nat.not_lt.mpr h)

/-- `gs` and then `last` are continuation octets for the number `r`, none more than needed: the last group is 0 only
where it is the only one. -/
structure MinimalGroups (r : Nat) (gs : OctetString) (last : Octet) : Prop where
  more : ∀ g ∈ gs, g.getLsbD 7 = true
  done : last.getLsbD 7 = false
  minimal : last = 0 → gs = [] ∧ r = 0
  value : r = groupsValue (gs ++ [last])

theorem MinimalGroups.single {r : Nat} (h : r < 128) : MinimalGroups r [] (BitVec.ofNat 8 r) := by
  obtain ⟨h7, hgroup⟩ := lastGroup_bits h
  refine ⟨by simp, h7, fun h0 => ⟨rfl, ?_⟩, by rw [List.nil_append, groupsValue_cons, hgroup]; rfl⟩
  rw [← hgroup, h0]
  rfl

theorem MinimalGroups.cons {r : Nat} {gs : OctetString} {last : Octet} (hr : 128 ≤ r)
    (h : MinimalGroups (r / 128) gs last) : MinimalGroups r (BitVec.ofNat 8 (r % 128 ||| 128) :: gs) last := by
  obtain ⟨h7, hgroup⟩ := moreGroup_bits (Nat.mod_lt r (by decide : 0 < 128))
  refine ⟨List.forall_mem_cons.mpr ⟨h7, h.more⟩, h.done, fun h0 => ?_, ?_⟩
  · have hzero : r / 128 = 0 := (h.minimal h0).2
    omega
  · rw [List.cons_append, groupsValue_cons, hgroup, ← h.value, Nat.mod_add_div']

/-- A number of at most `left + 1` base-128 digits: the loop of IntEncode writes its minimal groups. -/
theorem intEncodeGroups_minimal {left fuel r : Nat} (hr : r < 128 ^ (left + 1)) (hfuel : left ≤ fuel) :
    ∃ gs last, intEncodeGroups fuel r = gs ++ [last] ∧ gs.length ≤ left ∧ MinimalGroups r gs last := by
  induction left generalizing fuel r with
  | zero => exact ⟨[], _, intEncodeGroups_of_lt hr fuel, Nat.le_refl _, .single hr⟩
  | succ left ih =>
    by_cases hlast : r < 128
    · exact ⟨[], _, intEncodeGroups_of_lt hlast fuel, Nat.zero_le _, .single hlast⟩
    · have hge : 128 ≤ r := Nat.not_lt.mp hlast
      obtain ⟨fuel, rfl⟩ := Nat.exists_eq_add_one_of_ne_zero (Nat.ne_zero_of_lt hfuel)
      have hrest : r / 128 < 128 ^ (left + 1) := Nat.div_lt_of_lt_mul (by rwa [← Nat.pow_succ'])
      obtain ⟨gs, last, hgroups, hlen, hmin⟩ := ih hrest (Nat.le_of_succ_le_succ hfuel)
      exact ⟨_ :: gs, last, by rw [intEncodeGroups_of_ge hge, hgroups, List.cons_append], Nat.succ_le_succ hlen,
        .cons hge hmin⟩

/-! ### The obligations -/

/-- Settles O5: it holds, by the round trip at any cursor. -/
theorem intDecodeOfIntEncode : Obligations.IntDecodeOfIntEncode := by
  intro n flags v before after _ h8 _ hflags hv
  refine intDecode_intEncode (after := after) h8 hflags hv ?_
  rw [List.append_assoc, List.drop_left]

/-- Settles O6: it holds; after an all-ones first octet it is what the loop accepts. -/
theorem intDecodeAcceptsExactly : Obligations.IntDecodeAcceptsExactly := by
  intro n inp pos v p _ _
  cases hb : inp[pos]? with
  | none => simp [intDecode, hb]
  | some b =>
    have hle : b.toNat % 2 ^ n ≤ 2 ^ n - 1 := Nat.le_sub_one_of_lt (Nat.mod_lt _ (Nat.two_pow_pos n))
    simp only [Option.some.injEq, exists_eq_left']
    obtain hlow | hones := Nat.lt_or_eq_of_le hle
    · rw [intDecode_of_getElem? hb, intRest_of_lt hlow]
      constructor
      · rintro ⟨⟩
        exact .inl ⟨hlow, rfl, rfl⟩
      · rintro (⟨-, rfl, rfl⟩ | ⟨hones, -⟩)
        · rfl
        · exact absurd hones hlow.ne
    · rw [intDecode_allOnes hb hones, intGroups_ok_iff]
      simp only [hones, Nat.lt_irrefl, false_and, false_or, true_and, Nat.pow_zero, Nat.mul_one]
      rfl

/-- Settles O7: it holds; each clause is one way in which the loop over octets with bit 7 set ends. -/
theorem intDecodeRaises : Obligations.IntDecodeRaises := by
  refine ⟨fun n inp pos hpos => ?_, fun n before cs b hones hlen hmore => ?_,
    fun n before cs after b hones hlen hmore => ?_, fun n before cs after b c hones hlen hmore hc hbig => ?_⟩
  · rw [intDecode, List.getElem?_eq_none hpos]
  · rw [intDecode_allOnes_append hones]
    exact intGroups_ends 0 _ (drop_length_succ ..) hmore hlen
  · rw [List.append_assoc, List.cons_append, intDecode_allOnes_append hones, ← hlen]
    exact intGroups_exhausted 0 _ (drop_length_succ ..) hmore
  · rw [sum_groups_concat] at hbig
    rw [List.append_assoc, List.cons_append, intDecode_allOnes_append hones,
      intGroups_concat 0 _ (drop_length_succ ..) hmore hc (Nat.lt_succ_of_le hlen), Nat.pow_zero, Nat.mul_one,
      if_pos hbig]

/-- Settles O8: it holds; after an all-ones first octet the loop moves the cursor over at least one more. -/
theorem oneOctetIntegers : Obligations.OneOctetIntegers := by
  refine ⟨fun n inp pos b _ _ hb => ⟨fun hlow => ?_, fun hones v p h => ?_⟩, fun n v h1 _ hv => ?_, by decide,
    by decide⟩
  · rw [intDecode_of_getElem? hb, intRest_of_lt hlow]
  · rw [intDecode_allOnes hb hones] at h
    obtain ⟨-, -, hpos, -⟩ := intGroups_ok h
    exact hpos
  · have hpow : 2 ^ 1 ≤ 2 ^ n := Nat.pow_le_pow_right (by decide) h1
    rw [intEncode_of_lt (by omega), List.length_singleton]

/-- Settles O9: it holds; a number up to INT_MAX has at most five base-128 digits. -/
theorem intEncodeIsMinimal : Obligations.IntEncodeIsMinimal := by
  intro n flags v _ _ _ hv
  refine ⟨fun hlow => intEncode_of_lt hlow flags, fun hge => ?_⟩
  have hr : v - (2 ^ n - 1) < 128 ^ (4 + 1) :=
    Nat.lt_of_le_of_lt (Nat.sub_le _ _) (Nat.lt_of_le_of_lt hv (by decide))
  obtain ⟨gs, last, hgroups, hlen, hmin⟩ := intEncodeGroups_minimal (fuel := Config.intMaxCont) hr (by decide)
  refine ⟨gs, last, ?_, hlen, hmin.more, hmin.done, fun hgs h0 => hgs (hmin.minimal h0).1, ?_⟩
  · rw [intEncode_of_ge hge, hgroups]
  · rw [sum_groups_concat]
    exact hmin.value

end Sys2Proof.Machine
end

section
/-!
PROOFS. The Huffman tree holds every code (42_huffman.md R150–R154): the build succeeds, and the octets that spell a code
word and its continuation lead from ROOT to its terminal.
-/

namespace Sys2Proof.Machine

/-- A failed build would leave no tree to stand at ROOT of. -/
theorem buildTree_hufCode : buildTree hufCode = some hufTree := by
  obtain ⟨slots, -, htree, -⟩ := hufTree_standsAt
  unfold hufTree at htree ⊢
  cases hbuild : buildTree hufCode with
  | none => rw [hbuild] at htree; cases htree
  | some node => rfl

/-- A number of whole octets, read off octet by octet. -/
theorem flatMap_bitsOf_octets (m v : Nat) :
    ((List.range m).map fun k => (v >>> (8 * (m - 1 - k))) % 256).flatMap (bitsOf 8) = bitsOf (8 * m) v := by
  induction m with
  | zero => rfl
  | succ m ih =>
    have hindex (k : Nat) : m - 1 - k = m - (k + 1) := by omega
    rw [Nat.mul_succ, Nat.add_comm (8 * m), bitsOf_add, ← ih, List.range_succ_eq_map, List.map_cons,
      List.flatMap_cons, List.map_map]
    simp only [Function.comp_def, Nat.succ_eq_add_one, hindex, bitsOf_octet, Nat.add_sub_cancel, Nat.sub_zero]

/-- From a node at `path`, octets that spell a code word and fewer than eight bits more lead to its terminal (R152). -/
theorem HufNode.StandsAt.foldl_slot {node : HufNode} {path pad : List Bool} (h : node.StandsAt path) {symbol : Nat}
    (hsymbol : symbol ≤ Config.eosSymbol) (hpad : pad.length < 8) {cs : List Nat}
    (hbits : path ++ cs.flatMap (bitsOf 8) = codeBits symbol ++ pad) :
    cs.foldl HufNode.slot node = .terminal symbol ((codeOf symbol).len - path.length - 8 * (cs.length - 1)) := by
  induction cs generalizing node path with
  | nil => exact absurd ((List.append_nil path).symm.trans hbits) (h.properPart.not_codeBits_append hsymbol)
  | cons c cs ih =>
    rw [List.flatMap_cons, ← List.append_assoc] at hbits
    rw [List.foldl_cons]
    have hlen : path.length + (8 + cs.length * 8) = (codeOf symbol).len + pad.length := by
      simpa [codeBits_eq] using congrArg List.length hbits
    have hanswer := h.slot c
    generalize node.slot c = child at hanswer ⊢
    cases hanswer with
    | @terminal symbol' bits hsymbol' hpos hle hcode =>
      rw [← List.take_append_drop bits (bitsOf 8 c), ← List.append_assoc path, ← hcode, List.append_assoc] at hbits
      obtain rfl := eq_of_codeBits_append hsymbol' hsymbol hbits
      have hcodelen : (codeOf symbol').len = path.length + bits := by
        simpa [codeBits_eq, hle] using congrArg List.length hcode
      obtain rfl : cs = [] := List.eq_nil_of_length_eq_zero (by omega)
      rw [List.foldl_nil, hcodelen]
      simp
    | internal hstands =>
      have hmore : cs ≠ [] := by
        rintro rfl
        exact hstands.properPart.not_codeBits_append hsymbol (by rwa [List.flatMap_nil, List.append_nil] at hbits)
      have hcs := List.length_pos_iff.mpr hmore
      rw [ih hstands hbits, List.length_append, bitsOf_length, List.length_cons]
      congr 1
      omega

theorem codeOf_of_getElem? {symbol : Nat} {c : HufCode} (h : hufCode[symbol]? = some c) :
    symbol ≤ Config.eosSymbol ∧ codeOf symbol = c := by
  obtain ⟨hlt, rfl⟩ := List.getElem?_eq_some_iff.mp h
  exact ⟨Nat.le_of_lt_succ (hlt.trans_eq hufCode_length), codeOf_eq_getElem hlt⟩

/-- Settles O12: it holds; the octets of the code and its continuation spell the code word and fewer than eight bits. -/
theorem huffmanTreeHoldsEveryCode : Obligations.HuffmanTreeHoldsEveryCode := by
  refine ⟨buildTree_hufCode, fun symbol c hc pad hpad => ?_⟩
  obtain ⟨hsymbol, rfl⟩ := codeOf_of_getElem? hc
  generalize hm : ((codeOf symbol).len + 7) / 8 = m at hpad ⊢
  generalize hn : 8 * m - (codeOf symbol).len = n at hpad ⊢
  have hbits : bitsOf (8 * m) ((codeOf symbol).code <<< n ||| pad) = codeBits symbol ++ bitsOf n pad := by
    rw [codeBits_eq, ← bitsOf_append hpad, show 8 * m = (codeOf symbol).len + n by omega]
  rw [← flatMap_bitsOf_octets] at hbits
  have hfold := hufTree_standsAt.foldl_slot hsymbol (by rw [bitsOf_length]; omega) hbits
  rwa [List.foldl_map, List.length_map, List.length_range, List.length_nil, Nat.sub_zero] at hfold

end Sys2Proof.Machine
end

section
/-!
PROOFS. The relation of HufDecode's input to its output (42_huffman.md R160–R167): every bit string splits into code words
and a proper part of one more, and that split decides what HufDecode and its command answer.
-/

namespace Sys2Proof.Machine

/-! ### Every bit string splits (R166) -/

/-- The tree is full: a bit string below a path in it starts with a code word or is a proper part of one (R153). -/
theorem Slots.holdCodes_covers {fuel level : Nat} {slots : Slots HufNode} {path : List Bool}
    (h : slots.holdCodes fuel level path = true) (bits : List Bool) :
    (∃ symbol rest, symbol ≤ Config.eosSymbol ∧ path ++ bits = codeBits symbol ++ rest) ∨
      ProperPart (path ++ bits) := by
  fun_induction Slots.holdCodes fuel level slots path generalizing bits with
  | case1 | case4 => cases h
  | case2 fuel level symbol n path =>
    simp only [Bool.and_eq_true, decide_eq_true_eq, beq_iff_eq] at h
    obtain ⟨⟨⟨hsymbol, -⟩, -⟩, rfl⟩ := h
    exact .inl ⟨symbol, bits, hsymbol, rfl⟩
  | case3 fuel level slots path ih =>
    simp only [Bool.and_eq_true] at h
    obtain ⟨-, hslots⟩ := h
    exact ih hslots bits
  | case5 fuel level zero one path ihzero ihone =>
    simp only [Bool.and_eq_true] at h
    obtain ⟨⟨-, hzero⟩, hone⟩ := h
    match bits with
    | [] =>
      obtain ⟨symbol, u, hsymbol, -, hcode⟩ := Slots.holdCodes_extends hzero
      exact .inr ⟨symbol, false :: u, hsymbol, List.cons_ne_nil _ _, by rw [hcode]; simp⟩
    | false :: bits => rw [List.append_cons]; exact ihzero hzero bits
    | true :: bits => rw [List.append_cons]; exact ihone hone bits

theorem startsWith_codeBits_or_properPart (bits : List Bool) :
    (∃ symbol rest, symbol ≤ Config.eosSymbol ∧ bits = codeBits symbol ++ rest) ∨ ProperPart bits := by
  obtain ⟨slots, fuel, -, hslots⟩ := hufTree_standsAt
  exact Slots.holdCodes_covers hslots bits

theorem codeBits_length_pos {symbol : Nat} (h : symbol ≤ Config.eosSymbol) : 0 < (codeBits symbol).length := by
  rw [List.length_pos_iff]
  exact fun hnil => hufTree_standsAt.properPart.not_codeBits_append h (by rw [hnil, List.append_nil])

theorem exists_hufSplit (bits : List Bool) : ∃ ws t, HufSplit bits ws t := by
  rcases startsWith_codeBits_or_properPart bits with ⟨symbol, rest, hsymbol, hbits⟩ | hproper
  · have hpos := codeBits_length_pos hsymbol
    obtain ⟨ws, t, hsplit⟩ := exists_hufSplit rest
    exact ⟨symbol :: ws, t, List.forall_mem_cons.mpr ⟨hsymbol, hsplit.symbols⟩, hsplit.proper, by
      rw [hbits, List.flatMap_cons, List.append_assoc, ← hsplit.bits_eq]⟩
  · exact ⟨[], bits, by simp, hproper, rfl⟩
termination_by bits.length
decreasing_by rw [hbits, List.length_append]; omega

/-- The code words that a bit string starts with are the first ones of its split. -/
theorem HufSplit.startsWith {bits t r : List Bool} {ws vs : List Nat} (h : HufSplit bits ws t)
    (hvs : ∀ v ∈ vs, v ≤ Config.eosSymbol) (hbits : bits = vs.flatMap codeBits ++ r) :
    ∃ rest, ws = vs ++ rest ∧ r = rest.flatMap codeBits ++ t :=
  codeWords_prefix h.proper h.symbols hvs (hbits.symm.trans h.bits_eq)

theorem HufSplit.unique {bits t t' : List Bool} {ws vs : List Nat} (h : HufSplit bits ws t)
    (h' : HufSplit bits vs t') : ws = vs ∧ t = t' := by
  obtain ⟨rest, rfl, hrest⟩ := h.startsWith h'.symbols h'.bits_eq
  cases rest with
  | nil => exact ⟨List.append_nil vs, hrest.symm⟩
  | cons s rest =>
    rw [List.flatMap_cons, List.append_assoc] at hrest
    exact absurd hrest (ProperPart.not_codeBits_append h'.proper (h.symbols s (by simp)))

/-! ### What HufDecode answers (R166) -/

/-- A walk that has read everything has found the split, where the rest of it is a proper part of a code word. -/
theorem HufWalk.HasRead.split {w : HufWalk} {bits path : List Bool} {ws : List Nat} (h : w.HasRead bits ws path)
    (hproper : ProperPart (path ++ bitsOf w.bits w.cur)) : HufSplit bits ws (path ++ bitsOf w.bits w.cur) :=
  ⟨fun s hs => (h.symbols s hs).le, hproper, h.bits_eq⟩

theorem any_not_eq_false_iff (t : List Bool) : (t.any fun b => !b) = false ↔ t = List.replicate t.length true := by
  simp [List.eq_replicate_iff]

/-- The bits of a number are ones where its value is the largest (R163). -/
theorem bitsOf_eq_ones_iff (n v : Nat) : bitsOf n v = List.replicate n true ↔ v % 2 ^ n = 2 ^ n - 1 := by
  have hones : (2 ^ n - 1) % 2 ^ n = 2 ^ n - 1 := Nat.mod_eq_of_lt (Nat.sub_lt (Nat.two_pow_pos n) Nat.one_pos)
  rw [← bitsOf_ones]
  refine ⟨fun h => (mod_eq_of_bitsOf_eq h).trans hones, fun h => ?_⟩
  rw [← bitsOf_mod (Nat.le_refl n) v, h]

/-- The end of the walk (R163, R165), in terms of the rest of the split. -/
theorem HufWalk.HasRead.finish_eq {w : HufWalk} {bits path t : List Bool} {ws : List Nat} (h : w.HasRead bits ws path)
    (h8 : w.bits < 8) (ht : t = path ++ bitsOf w.bits w.cur) (strict : Bool) :
    w.finish strict =
      if (t.drop (8 * (t.length / 8))).any (fun b => !b) then .error .invalidHuffmanPadding
      else if strict && decide (8 ≤ t.length) then .error .invalidHuffmanPadding
      else .ok (ws.map (BitVec.ofNat 8)) := by
  obtain ⟨d, hd⟩ := h.whole_octets
  have hlen : t.length = 8 * d + w.bits := by rw [ht, List.length_append, bitsOf_length, hd]
  have hpending : t.drop (8 * (t.length / 8)) = bitsOf w.bits w.cur := by
    rw [hlen, show 8 * ((8 * d + w.bits) / 8) = path.length by omega, ht, List.drop_left]
  have hzero : (bitsOf w.bits w.cur).any (fun b => !b) = true ↔ w.cur % 2 ^ w.bits ≠ 2 ^ w.bits - 1 := by
    rw [← Bool.not_eq_false, any_not_eq_false_iff, bitsOf_length, bitsOf_eq_ones_iff]
  have hbelow : (!w.atRoot) = decide (8 ≤ t.length) := by
    rw [h.atRoot_eq, Bool.eq_iff_iff]
    simp only [Bool.not_eq_true', List.isEmpty_eq_false_iff, ← List.length_pos_iff, decide_eq_true_eq]
    omega
  simp only [HufWalk.finish, hpending, hzero, hbelow, h.out_eq, Bool.and_comm]

/-- What HufDecode answers for octets whose bits split into code words and `t` (R166). -/
theorem hufDecode_of_split {data : OctetString} {ws : List Nat} {t : List Bool} (h : HufSplit (octetBits data) ws t)
    (strict : Bool) :
    hufDecode strict data =
      if Config.eosSymbol ∈ ws then .error .eosDecodedLiterally
      else if (t.drop (8 * (t.length / 8))).any (fun b => !b) then .error .invalidHuffmanPadding
      else if strict && decide (8 ≤ t.length) then .error .invalidHuffmanPadding
      else .ok (ws.map (BitVec.ofNat 8)) := by
  rcases hufDecode_cases strict data with ⟨herr, vs, r, hvs, heos, hbits⟩ | ⟨w, vs, path, hw, hread, h8, hproper⟩
  · obtain ⟨more, rfl, -⟩ := h.startsWith hvs hbits
    rw [herr, if_pos (List.mem_append_left _ heos)]
  · obtain ⟨rfl, ht⟩ := h.unique (hread.split hproper)
    rw [hw, hread.finish_eq h8 ht, if_neg fun heos => Nat.lt_irrefl _ (hread.symbols _ heos)]

theorem map_ofNat_map_toNat (x : OctetString) : (x.map BitVec.toNat).map (BitVec.ofNat 8) = x := by
  simp [Function.comp_def]

theorem map_toNat_map_ofNat {ws : List Nat} (h : ∀ w ∈ ws, w < Config.eosSymbol) :
    (ws.map (BitVec.ofNat 8)).map BitVec.toNat = ws := by
  rw [List.map_map]
  refine (List.map_congr_left fun w hw => ?_).trans (List.map_id ws)
  exact (BitVec.toNat_ofNat w 8).trans (Nat.mod_eq_of_lt (h w hw))

/-- Under HUF_STRICT_END success means: no EOS, and at most seven ones after the code words (R166). -/
theorem hufDecode_strict_iff (data octets : OctetString) : hufDecode true data = .ok octets ↔
    ∃ k, k ≤ 7 ∧ HufSplit (octetBits data) (octets.map BitVec.toNat) (List.replicate k true) := by
  constructor
  · intro hok
    obtain ⟨ws, t, hsplit⟩ := exists_hufSplit (octetBits data)
    rw [hufDecode_of_split hsplit] at hok
    split_ifs at hok with heos hzero hlong
    rw [Bool.true_and, decide_eq_true_eq, Nat.not_le] at hlong
    rw [Nat.div_eq_of_lt hlong, Nat.mul_zero, List.drop_zero, Bool.not_eq_true, any_not_eq_false_iff] at hzero
    cases hok
    refine ⟨t.length, Nat.le_of_lt_succ hlong, ?_⟩
    rwa [map_toNat_map_ofNat fun s hs => lt_of_le_of_ne (hsplit.symbols s hs) fun h => heos (h ▸ hs), ← hzero]
  · rintro ⟨k, hk, hsplit⟩
    have hoctets : Config.eosSymbol ∉ octets.map BitVec.toNat := fun heos => by
      obtain ⟨b, -, hb⟩ := List.mem_map.mp heos
      exact b.isLt.ne hb
    have hlong : ¬ 8 ≤ k := by omega
    rw [hufDecode_of_split hsplit, if_neg hoctets, List.length_replicate, Nat.div_eq_of_lt (Nat.lt_succ_of_le hk),
      map_ofNat_map_toNat]
    simp [hlong]

/-- Settles O13: it holds; the split exists because the tree is full, it is unique because no code word starts another
one, and it is the one the walk finds. -/
theorem hufDecodeSplitsIntoCodeWords : Obligations.HufDecodeSplitsIntoCodeWords :=
  ⟨exists_hufSplit, fun _ _ _ _ _ => HufSplit.unique, fun strict _ _ _ h => hufDecode_of_split h strict,
    hufDecode_strict_iff⟩

/-- Settles O14: it holds, by the round trip. -/
theorem hufDecodeOfHufEncode : Obligations.HufDecodeOfHufEncode := hufDecode_hufEncode

/-! ### The commands (R167, R171) -/

theorem exec_hufDecode_of_ok {inp x : OctetString} {s : State} (h : hufDecode s.hufStrictEnd inp = .ok x) :
    exec (.hufDecode inp) s = .next (s.respond (.octets x)) := by
  simp only [exec, execHufDecode, h]

theorem exec_hufDecode_of_error {inp : OctetString} {e : Err} {s : State}
    (h : hufDecode s.hufStrictEnd inp = .error e) : exec (.hufDecode inp) s = .next (s.raise e) := by
  simp only [exec, execHufDecode, h]

/-- Settles O15: it holds; HUF_DECODE answers what HufDecode gives, which is the text of an encoded string and otherwise
octets or one of its two errors. -/
theorem huffmanCommandsComplete : Obligations.HuffmanCommandsComplete := by
  refine ⟨fun _ _ => rfl, fun x s => exec_hufDecode_of_ok (hufDecode_hufEncode _ x),
    fun _ _ _ => exec_hufDecode_of_ok, fun _ _ _ => exec_hufDecode_of_error, fun inp s => ?_⟩
  cases h : hufDecode s.hufStrictEnd inp with
  | ok octets => exact .inl ⟨octets, exec_hufDecode_of_ok h⟩
  | error e =>
    rcases hufDecode_error h with rfl | rfl
    · exact .inr (.inl (exec_hufDecode_of_error h))
    · exact .inr (.inr (exec_hufDecode_of_error h))

end Sys2Proof.Machine
end

section
/-!
PROOFS. The string reader by its parts (43_string.md R190–R193): what the content of a string can be, how long it is,
and the run of STR_DECODE from acceptance to response (R196).
-/

namespace Sys2Proof.Machine

/-! ### The length of what HufDecode gives (R193) -/

theorem octetBits_length (data : OctetString) : (octetBits data).length = 8 * data.length := by
  simp [octetBits, Nat.mul_comm]

theorem five_le_codeBits_length {symbol : Nat} (h : symbol ≤ Config.eosSymbol) : 5 ≤ (codeBits symbol).length := by
  obtain ⟨hshort, -⟩ := hufCode_bounds _ (List.getElem_mem (lt_hufCode_length h))
  rwa [codeBits_eq, bitsOf_length, codeOf_eq_getElem (lt_hufCode_length h)]

theorem five_mul_length_le_flatMap_codeBits {ws : List Nat} (h : ∀ w ∈ ws, w ≤ Config.eosSymbol) :
    5 * ws.length ≤ (ws.flatMap codeBits).length := by
  induction ws with
  | nil => exact Nat.zero_le _
  | cons w ws ih =>
    rw [List.forall_mem_cons] at h
    obtain ⟨hw, hws⟩ := h
    have hword := five_le_codeBits_length hw
    have hwords := ih hws
    rw [List.flatMap_cons, List.length_append, List.length_cons]
    omega

/-- HufDecode gives at most one octet for every five bits of its input (R88, R193). -/
theorem hufDecode_length_le {strict : Bool} {data octets : OctetString} (h : hufDecode strict data = .ok octets) :
    octets.length ≤ 8 * data.length / 5 := by
  obtain ⟨ws, t, hsplit⟩ := exists_hufSplit (octetBits data)
  have hbits : 8 * data.length = (ws.flatMap codeBits).length + t.length := by
    rw [← octetBits_length, ← List.length_append, ← hsplit.bits_eq]
  have hws := five_mul_length_le_flatMap_codeBits hsplit.symbols
  rw [hufDecode_of_split hsplit] at h
  split_ifs at h
  cases h
  rw [List.length_map]
  omega

/-! ### The content of a string (R190–R193) -/

theorem strContent_of_lt {inp : OctetString} {pos strLen : Nat} (h : inp.length - pos < strLen) (strict huf : Bool) :
    strContent strict huf strLen inp pos = .error .unexpectedEndOfStream :=
  if_pos h

theorem strContent_raw_ok {strict : Bool} {strLen pos p : Nat} {inp octets : OctetString}
    (h : strContent strict false strLen inp pos = .ok (octets, p)) : octets = (inp.drop pos).take strLen := by
  unfold strContent at h
  split at h
  · cases h
  · cases h
    rfl

theorem strContent_huf_ok {strict : Bool} {strLen pos p : Nat} {inp octets : OctetString}
    (h : strContent strict true strLen inp pos = .ok (octets, p)) :
    hufDecode strict ((inp.drop pos).take strLen) = .ok octets := by
  unfold strContent at h
  split at h
  · cases h
  · rw [if_pos rfl] at h
    split at h
    · cases h
    · cases h
      assumption

/-- Where a string is read its content octets are all there (R192). -/
theorem strContent_ok_length {strict huf : Bool} {strLen pos p : Nat} {inp octets : OctetString}
    (h : strContent strict huf strLen inp pos = .ok (octets, p)) : ((inp.drop pos).take strLen).length = strLen := by
  obtain ⟨-, hfits⟩ := strContent_ok h
  rw [List.length_take, List.length_drop, Nat.min_eq_left hfits]

/-- Settles O16: it holds; the content is strLen octets, and each octet of a Huffman text took at least five bits. -/
theorem stringResultLength : Obligations.StringResultLength := by
  intro strict strLen inp pos octets p
  constructor <;> intro h <;> have hlen := strContent_ok_length h
  · rw [strContent_raw_ok h, hlen]
  · have hle := hufDecode_length_le (strContent_huf_ok h)
    rwa [hlen] at hle

/-! ### The length integer of a string (R190, R192) -/

/-- An integer whose first-octet part has at most 31 bits is at most INT_MAX (R124). -/
theorem intDecode_le_intMax {n pos v p : Nat} {inp : OctetString} (hn : n ≤ 31)
    (h : intDecode n inp pos = .ok (v, p)) : v ≤ Config.intMax := by
  obtain ⟨b, -, hrest⟩ := intDecode_ok h
  obtain ⟨-, ⟨-, rfl, hlow⟩ | ⟨-, -, hmax⟩⟩ := intRest_ok hrest
  · have hpow : 2 ^ n ≤ 2 ^ 31 := Nat.pow_le_pow_right (by decide) hn
    unfold Config.intMax
    omega
  · exact hmax

/-- After its length integer StrDecode reads the content, as the Huffman flag of the first octet says (R190). -/
theorem strDecode_of_intDecode {pos strLen p : Nat} {inp : OctetString} (strict : Bool)
    (h : intDecode 7 inp pos = .ok (strLen, p)) :
    ∃ huf, strDecode strict inp pos = strContent strict huf strLen inp p := by
  obtain ⟨b, hb, hrest⟩ := intDecode_ok h
  refine ⟨b.getLsbD 7, ?_⟩
  simp only [strDecode, hb, strRest, show b.toNat % 128 = b.toNat % 2 ^ 7 from rfl, hrest]

/-- Settles O17: it holds; the content is read after the length test only, whatever the flag. -/
theorem stringLengthTestComesFirst : Obligations.StringLengthTestComesFirst := by
  intro strict inp pos strLen p h
  refine ⟨intDecode_le_intMax (by decide) h, fun hshort => ?_⟩
  obtain ⟨huf, heq⟩ := strDecode_of_intDecode strict h
  rw [heq, strContent_of_lt hshort]

/-! ### The step on a string literal (R190) -/

theorem exec_decodeString (b : Octet) (s : State) :
    exec (decodeString b) s = stringLiteral (b.getLsbD 7) (b.extractLsb' 0 7) s := by
  unfold decodeString
  cases b.getLsbD 7 <;> rfl

theorem strDecode_of_getElem? {inp : OctetString} {pos : Nat} {b : Octet} (h : inp[pos]? = some b) (strict : Bool) :
    strDecode strict inp pos = strRest strict (b.getLsbD 7) (b.extractLsb' 0 7).toNat inp (pos + 1) := by
  rw [strDecode, h, BitVec.extractLsb'_toNat, Nat.shiftRight_zero]

theorem strDecode_of_getElem?_none {inp : OctetString} {pos : Nat} (h : inp[pos]? = none) (strict : Bool) :
    strDecode strict inp pos = .error .unexpectedEndOfStream := by
  rw [strDecode, h]

theorem step_of_string {s : State} {b : Octet} (hb : s.busy = true) (ha : s.scratch.activity = .string)
    (hoctet : s.octetAtCursor = some b) : step s = stringLiteral (b.getLsbD 7) (b.extractLsb' 0 7) s := by
  rw [step_eq_exec (State.fetch_string hb ha hoctet) rfl, exec_decodeString]

theorem step_of_strDecode_ok {s : State} {x : OctetString} {p : Nat} (hb : s.busy = true)
    (ha : s.scratch.activity = .string)
    (h : strDecode s.hufStrictEnd s.scratch.input s.scratch.pos = .ok (x, p)) :
    step s = .next (s.respond (.string x p)) := by
  cases hoctet : s.octetAtCursor with
  | none => cases (strDecode_of_getElem?_none hoctet _).symm.trans h
  | some b => rw [step_of_string hb ha hoctet, stringLiteral_of_ok (strDecode_of_getElem? hoctet _ ▸ h)]

theorem step_of_strDecode_error {s : State} {e : Err} (hb : s.busy = true) (ha : s.scratch.activity = .string)
    (h : strDecode s.hufStrictEnd s.scratch.input s.scratch.pos = .error e) : step s = .next (s.raise e) := by
  cases hoctet : s.octetAtCursor with
  | none =>
    cases (strDecode_of_getElem?_none hoctet _).symm.trans h
    exact step_of_string_end hb ha (List.getElem?_eq_none_iff.mp hoctet)
  | some b => rw [step_of_string hb ha hoctet, stringLiteral_of_error (strDecode_of_getElem? hoctet _ ▸ h)]

/-! ### STR_DECODE from acceptance to response (R196) -/

theorem run_succ_of_step {s t : State} (h : step s = .next t) (k : Nat) : core.run (k + 1) s = core.run k t := by
  have hcore : core.step s = .next t := h
  simp only [Host.Core.run, hcore]

/-- The step that accepts STR_DECODE latches its operand (R23, R196). -/
theorem step_of_strDecode_offer {s : State} {inp : OctetString} {rest : List Offer} (hb : s.busy = false)
    (ho : s.offers = ⟨0x30, [.octets inp]⟩ :: rest) : step s = .next ((s.accept rest).start .string inp) :=
  step_eq_exec (State.fetch_command hb ho) (decode_encode (.strDecode inp))

theorem run_strDecode_of_ok {s : State} {inp x : OctetString} {rest : List Offer} {p : Nat} (hb : s.busy = false)
    (ho : s.offers = ⟨0x30, [.octets inp]⟩ :: rest) (h : strDecode s.hufStrictEnd inp 0 = .ok (x, p)) :
    core.run 2 s = .next ((s.accept rest).respond (.string x p)) := by
  rw [run_succ_of_step (step_of_strDecode_offer hb ho), run_succ_of_step (step_of_strDecode_ok rfl rfl h)]
  rfl

theorem run_strDecode_of_error {s : State} {inp : OctetString} {rest : List Offer} {e : Err} (hb : s.busy = false)
    (ho : s.offers = ⟨0x30, [.octets inp]⟩ :: rest) (h : strDecode s.hufStrictEnd inp 0 = .error e) :
    core.run 2 s = .next ((s.accept rest).raise e) := by
  rw [run_succ_of_step (step_of_strDecode_offer hb ho), run_succ_of_step (step_of_strDecode_error rfl rfl h)]
  rfl

/-- Settles O19: it holds; the first step latches the operand, and the second is that of the literal at the cursor. -/
theorem strDecodeCompletes : Obligations.StrDecodeCompletes := by
  refine ⟨fun _ _ => rfl, fun s rest str after hb hfits ho => run_strDecode_of_ok hb ho ?_,
    fun s rest inp hb ho => ⟨fun _ _ => run_strDecode_of_ok hb ho, fun _ => run_strDecode_of_error hb ho⟩⟩
  rw [strDecode_strEncode s.hufStrictEnd hfits (List.drop_zero ..), Nat.zero_add]

end Sys2Proof.Machine
end

section
/-!
PROOFS. The static table and its commands (44_static_table.md R210–R214): row `k` of the list is the entry with index
`k + 1`, and the answers of ST_GET and ST_FIND_NAME are read off that.
-/

namespace Sys2Proof.Machine

/-! ### The table by its indices (R210, R211) -/

theorem stEntries_length : stEntries.length = Config.staticLen := rfl

theorem stEntry_zero : stEntry 0 = none := rfl

theorem stEntry_succ (k : Nat) : stEntry (k + 1) = stEntries[k]? := by
  by_cases hk : k + 1 ≤ Config.staticLen
  · exact if_pos ⟨Nat.succ_pos k, hk⟩
  · rw [List.getElem?_eq_none (Nat.le_of_lt_succ (Nat.not_le.mp hk))]
    exact if_neg fun h => hk h.2

theorem stEntry_eq_none {i : Nat} (h : i = 0 ∨ 61 < i) : stEntry i = none := by
  cases i with
  | zero => exact stEntry_zero
  | succ k =>
    obtain h0 | hlt := h
    · cases h0
    · rw [stEntry_succ]
      exact List.getElem?_eq_none (Nat.le_of_lt_succ hlt)

/-- Settles O20: it holds, by looking the rows up. -/
theorem staticTableContents : Obligations.StaticTableContents := by
  refine ⟨stEntries_length, stEntry_zero, stEntry_eq_none (.inr (by decide)), ?_⟩
  simp only [stEntry_succ]
  decide

/-! ### The name index (R212) -/

theorem map_fst_stIndexed : stIndexed.map Prod.fst = List.range' 1 Config.staticLen :=
  List.map_fst_zip (Nat.le_refl _)

theorem mem_stIndexed {i : Nat} {e : OctetString × OctetString} : (i, e) ∈ stIndexed ↔ stEntry i = some e := by
  simp only [stIndexed, List.mem_iff_getElem?, List.getElem?_zip_eq_some]
  constructor
  · rintro ⟨k, hi, he⟩
    obtain ⟨-, rfl⟩ := List.getElem?_eq_some_iff.mp hi
    rw [List.getElem_range', Nat.one_mul, Nat.add_comm, stEntry_succ, he]
  · intro he
    cases i with
    | zero => cases he
    | succ k =>
      rw [stEntry_succ] at he
      obtain ⟨hk, -⟩ : ∃ _ : k < Config.staticLen, _ := List.getElem?_eq_some_iff.mp he
      exact ⟨k, by rw [List.getElem?_range' hk, Nat.one_mul, Nat.add_comm], he⟩

theorem mem_stFind {name value : OctetString} {i : Nat} :
    (i, value) ∈ stFind name ↔ stEntry i = some (name, value) := by
  rw [← mem_stIndexed]
  simp [stFind]

/-- Selecting the rows of a name keeps their order. -/
theorem stFind_indices_increase (name : OctetString) : ((stFind name).map fun m => m.1).Pairwise (· < ·) := by
  have hsub : ((stFind name).map fun m => m.1).Sublist (stIndexed.map Prod.fst) := by
    rw [stFind, List.map_map]
    exact List.filter_sublist.map Prod.fst
  rw [map_fst_stIndexed] at hsub
  exact (List.pairwise_lt_range' 1).sublist hsub

/-! ### The commands (R213, R214) -/

theorem exec_stGet_of_some {i : Nat} {name value : OctetString} (hi : i ≤ Config.intMax)
    (h : stEntry i = some (name, value)) (s : State) :
    exec (.stGet i) s = .next (s.respond (.entry name value)) := by
  simp [exec, execStGet, inRange31, hi, h]

theorem exec_stGet_of_none {i : Nat} (hi : i ≤ Config.intMax) (h : stEntry i = none) (s : State) :
    exec (.stGet i) s = .next (s.raise .invalidTableIndex) := by
  simp [exec, execStGet, inRange31, hi, h]

/-- Settles O21: it holds; ST_GET answers what stands at the index, and ST_FIND_NAME selects the rows of the name. -/
theorem staticTableCommandsComplete : Obligations.StaticTableCommandsComplete := by
  refine ⟨fun i s => ⟨fun hpos hle => ?_, fun hout hmax => exec_stGet_of_none hmax (stEntry_eq_none hout) s,
    fun hbig => exec_of_not_wellFormed (i := .stGet i) (decide_eq_false (Nat.not_le.mpr hbig)) s⟩,
    fun name s => ⟨stFind name, rfl, fun _ _ => mem_stFind, stFind_indices_increase name⟩⟩
  obtain ⟨k, rfl⟩ := Nat.exists_eq_add_one_of_ne_zero (Nat.pos_iff_ne_zero.mp hpos)
  have hrow : stEntries[k]? = some (stEntries[k]'hle) := List.getElem?_eq_getElem hle
  exact ⟨_, _, hrow, exec_stGet_of_some (hle.trans (by decide)) ((stEntry_succ k).trans hrow) s⟩

end Sys2Proof.Machine
end

section
/-!
PROOFS. The dynamic table and its commands (45_dynamic_table.md R231–R249): what eviction leaves, where an entry stands
by its index, its sequence number or its name, and from that what each command answers; SIZE_UPD (46_field_decoder.md
R287) and SET_MAX_TABLE_SIZE (47_control.md R300), which set the cap the same way.
-/

namespace Sys2Proof.Machine

/-! ### Eviction keeps as many entries as fit (R232) -/

/-- One entry more than the survivors would not fit. -/
theorem cap_lt_entriesSize_take_succ_survivors {fuel cap : Nat} {es : List DynEntry}
    (h : (survivors fuel cap es).length < es.length) :
    cap < entriesSize (es.take ((survivors fuel cap es).length + 1)) := by
  induction fuel generalizing es with
  | zero => exact absurd h (Nat.lt_irrefl _)
  | succ fuel ih =>
    rw [survivors] at h ⊢
    split at h
    case isFalse => exact absurd h (Nat.lt_irrefl _)
    case isTrue hbig =>
      rw [if_pos hbig]
      by_cases hmore : (survivors fuel cap es.dropLast).length < es.dropLast.length
      · have hnext := ih hmore
        rw [List.length_dropLast] at hmore
        generalize (survivors fuel cap es.dropLast).length = k at hmore hnext ⊢
        rwa [List.dropLast_eq_take, List.take_take, Nat.min_eq_left hmore] at hnext
      · rw [List.length_dropLast] at hmore
        rwa [List.take_of_length_le (by omega)]

/-- A first entry that fits by itself survives (R233). -/
theorem head?_survivors_cons {fuel cap : Nat} {e : DynEntry} (he : e.size ≤ cap) (es : List DynEntry) :
    (survivors fuel cap (e :: es)).head? = some e := by
  have hpos : (survivors fuel cap (e :: es)).length ≠ 0 := by
    intro hnone
    have hlt := cap_lt_entriesSize_take_succ_survivors (fuel := fuel) (cap := cap) (es := e :: es) (by simp [hnone])
    simp only [hnone, Nat.zero_add, List.take_succ_cons, List.take_zero, entriesSize_cons, entriesSize_nil] at hlt
    omega
  rw [survivors_eq_take, List.head?_take, if_neg hpos, List.head?_cons]

/-! ### The cap (R234) -/

theorem toNat_ofNat_of_le_intMax {n : Nat} (h : n ≤ Config.intMax) : (BitVec.ofNat 31 n).toNat = n :=
  BitVec.toNat_ofNat n 31 ▸ Nat.mod_eq_of_lt (Nat.lt_succ_of_le h)

theorem min_toNat_le_intMax (n : Nat) (b : BitVec 31) : min n b.toNat ≤ Config.intMax :=
  (Nat.min_le_right _ _).trans (Nat.le_of_lt_succ b.isLt)

/-- Settles O25: it holds; what SetMax leaves are the survivors of the new cap. -/
theorem evictionKeepsTheNewestThatFit : Obligations.EvictionKeepsTheNewestThatFit := by
  intro t n h hn
  obtain ⟨t', hset, hinv, hentries, hmax, hseq⟩ := DynTable.setMax_spec h.toCoherent n
  have hcap : t'.maxSize.toNat = n := hmax ▸ toNat_ofNat_of_le_intMax hn
  have hsize := hinv.curSize_eq
  rw [toNat_ofNat_of_le_intMax hn] at hentries
  exact ⟨t', _, hset, survivors_length_le _ _ _, hentries.trans (survivors_eq_take _ _ _), hcap ▸ hsize ▸ hinv.size_le,
    cap_lt_entriesSize_take_succ_survivors, hcap, hseq, hsize⟩

theorem exec_dtSetMax_of_le {n : Nat} (hn : n ≤ Config.intMax) (s : State) :
    exec (.dtSetMax n) s = s.withTable (s.dt.setMax n) fun s => s.respond .none :=
  if_pos (decide_eq_true hn)

theorem exec_setMaxTableSize_of_le {n : Nat} (hn : n ≤ Config.intMax) (s : State) :
    exec (.setMaxTableSize n) s =
      s.withTable (s.dt.setMax n) fun s => { s with cfgMaxTableSize := BitVec.ofNat 31 n }.respond .none :=
  if_pos (decide_eq_true hn)

theorem inRange31_of_gt {n : Nat} (hn : Config.intMax < n) : inRange31 n = false :=
  decide_eq_false (Nat.not_le.mpr hn)

/-- Settles O26: it holds; SetMax does not fault on a table with the invariants. -/
theorem capCommandsComplete : Obligations.CapCommandsComplete := by
  intro s n h
  refine ⟨fun hn => ?_, fun hbig => ⟨exec_of_not_wellFormed (i := .dtSetMax n) (inRange31_of_gt hbig) s,
    exec_of_not_wellFormed (i := .setMaxTableSize n) (inRange31_of_gt hbig) s⟩⟩
  obtain ⟨t', hset, -⟩ := DynTable.setMax_spec h.toCoherent n
  rw [exec_dtSetMax_of_le hn, exec_setMaxTableSize_of_le hn, hset]
  exact ⟨t', rfl, rfl, rfl⟩

/-- Settles O35: it holds; the clamped value is a cap in range and SetMax does not fault. -/
theorem sizeUpdCompletes : Obligations.SizeUpdCompletes := by
  intro n s cap p h hint
  obtain ⟨t', hset, -, -, hmax, -⟩ := DynTable.setMax_spec h.toCoherent (min cap s.cfgMaxTableSize.toNat)
  refine ⟨t', hset, hmax ▸ toNat_ofNat_of_le_intMax (min_toNat_le_intMax _ _), ?_⟩
  simp only [exec, execSizeUpd, hint, hset]
  rfl

/-! ### Insertion (R233, R240–R242) -/

theorem exec_dtAdd_eq_next {name value : OctetString} {s t : State} : exec (.dtAdd name value) s = .next t ↔
    ∃ t', s.dt.insert name value = .ok t' ∧ t = { s with dt := t' }.respond .none :=
  State.withTable_eq_next (k := fun s => s.respond .none)

/-- Settles O23: it holds; the new entry fits by itself, so it survives the eviction. -/
theorem dtAddInserts : Obligations.DtAddInserts := by
  intro s name value h hfits
  obtain ⟨t', hins, hinv, hmax, -, hinserted⟩ := DynTable.insert_spec h.toCoherent name value
  obtain ⟨hentries, hseq⟩ := hinserted hfits
  exact ⟨t', exec_dtAdd_eq_next.mpr ⟨t', hins, rfl⟩, hinv, hentries,
    hentries ▸ head?_survivors_cons hfits _, hseq, hmax⟩

/-- With no entry held there is no name in the index (R33). -/
theorem DynTable.Coherent.nameIdx_eq_nil {t : DynTable} (h : t.Coherent) (hnone : t.entries = []) : t.nameIdx = [] := by
  refine List.eq_nil_iff_forall_not_mem.mpr fun key hkey => ?_
  obtain ⟨k, ix, hix⟩ := List.exists_cons_of_ne_nil (List.ne_nil_of_mem hkey)
  have hfind := h.name_find k.1
  rw [hix, NameIndex.find_cons, if_pos rfl, hnone] at hfind
  exact h.name_keys k (hix ▸ List.mem_cons_self) hfind

/-- Settles O24: it holds; Clear leaves no entry, and the invariants say the rest. -/
theorem oversizedEntryClearsTheTable : Obligations.OversizedEntryClearsTheTable := by
  intro s name value h hbig
  obtain ⟨t', hins, hinv, hmax, hcleared, -⟩ := DynTable.insert_spec h.toCoherent name value
  obtain ⟨hnone, hseq⟩ := hcleared hbig
  exact ⟨t', hins, exec_dtAdd_eq_next.mpr ⟨t', hins, rfl⟩, hnone, hinv.curSize_eq.trans (hnone ▸ rfl),
    hinv.nameIdx_eq_nil hnone, hmax, hseq⟩

/-! ### An entry by its combined index (R244, R245) -/

theorem DynTable.get_static {k : Nat} {e : OctetString × OctetString} (he : stEntries[k]? = some e) (t : DynTable) :
    t.get (k + 1) = .ok e := by
  have hk : k + 1 ≤ Config.staticLen := (List.getElem?_eq_some_iff.mp he).1
  simp only [DynTable.get, Nat.succ_ne_zero, if_false, if_pos hk, stEntry_succ, he]

theorem DynTable.get_dynamic {t : DynTable} {i : Nat} {e : DynEntry} (hi : 62 ≤ i)
    (he : t.entries[i - 62]? = some e) : t.get i = .ok (e.name, e.value) := by
  have hoff : i - Config.staticLen - 1 = i - 62 := by simp only [Config.staticLen]; omega
  rw [DynTable.get, if_neg (by omega), if_neg (by simp only [Config.staticLen]; omega), hoff, he]

theorem DynTable.get_outside {t : DynTable} {i : Nat} (h : i = 0 ∨ 61 + t.entries.length < i) :
    t.get i = .error .invalidTableIndex := by
  rcases h with rfl | hi
  · rfl
  · have hnone : t.entries[i - Config.staticLen - 1]? = none :=
      List.getElem?_eq_none (by simp only [Config.staticLen]; omega)
    rw [DynTable.get, if_neg (by omega), if_neg (by simp only [Config.staticLen]; omega), hnone]

theorem exec_dtGet_of_ok {i : Nat} {name value : OctetString} {s : State} (hi : i ≤ Config.intMax)
    (h : s.dt.get i = .ok (name, value)) : exec (.dtGet i) s = .next (s.respond (.entry name value)) := by
  simp [exec, execDtGet, inRange31, hi, h]

theorem exec_dtGet_of_error {i : Nat} {e : Err} {s : State} (hi : i ≤ Config.intMax) (h : s.dt.get i = .error e) :
    exec (.dtGet i) s = .next (s.raise e) := by
  simp [exec, execDtGet, inRange31, hi, h]

/-- Settles O22: it holds; DT_GET answers what stands at the combined index. -/
theorem dtGetCompletes : Obligations.DtGetCompletes := by
  refine fun i s => ⟨fun hpos hle hmax => ?_, fun e hi hmax he => exec_dtGet_of_ok hmax (DynTable.get_dynamic hi he),
    fun hout hmax => exec_dtGet_of_error hmax (DynTable.get_outside hout),
    fun hbig => exec_of_not_wellFormed (i := .dtGet i) (inRange31_of_gt hbig) s⟩
  obtain ⟨k, rfl⟩ := Nat.exists_eq_add_one_of_ne_zero (Nat.pos_iff_ne_zero.mp hpos)
  have hrow : stEntries[k]? = some (stEntries[k]'hle) := List.getElem?_eq_getElem hle
  exact ⟨_, _, hrow, exec_dtGet_of_ok hmax (DynTable.get_static hrow s.dt)⟩

/-! ### An entry by its sequence number (R32, R248) -/

theorem DynTable.indexOf_of_head_last {t : DynTable} {newest oldest : DynEntry} (hnew : t.entries.head? = some newest)
    (hold : t.entries.getLast? = some oldest) (seq : Nat) : t.indexOf seq =
      if oldest.seq ≤ seq ∧ seq ≤ newest.seq then (t.entries.length : Int) - ((seq : Int) - (oldest.seq : Int)) - 1
      else -1 := by
  simp only [DynTable.indexOf, hnew, hold]

/-- The number of the entry at a position resolves to the position. -/
theorem DynTable.Inv.indexOf_of_getElem? {t : DynTable} (h : t.Inv) {k : Nat} {e : DynEntry}
    (he : t.entries[k]? = some e) : t.indexOf e.seq = k := by
  have hk : k < t.entries.length := (List.getElem?_eq_some_iff.mp he).1
  have hne : t.entries ≠ [] := List.ne_nil_of_length_pos (by omega)
  have hnew := List.head?_eq_some_head hne
  have hold := List.getLast?_eq_some_getLast hne
  obtain ⟨hle, hlen, -⟩ := lengthFromSequenceNumbers t _ _ h hnew hold
  have hek := h.seq_add_position hnew he
  rw [DynTable.indexOf_of_head_last hnew hold, if_pos (by omega)]
  omega

/-- Every number between the oldest entry's and the newest's is held, so one that is not lies outside. -/
theorem DynTable.Inv.indexOf_of_not_held {t : DynTable} (h : t.Inv) {seq : Nat} (hno : ∀ e ∈ t.entries, e.seq ≠ seq) :
    t.indexOf seq = -1 := by
  by_cases hne : t.entries = []
  · simp [DynTable.indexOf, hne]
  · have hnew := List.head?_eq_some_head hne
    have hold := List.getLast?_eq_some_getLast hne
    obtain ⟨hle, hlen, -⟩ := lengthFromSequenceNumbers t _ _ h hnew hold
    rw [DynTable.indexOf_of_head_last hnew hold]
    refine if_neg fun hbetween => ?_
    obtain ⟨k, hk⟩ := Nat.exists_eq_add_of_le hbetween.2
    have hlt : k < t.entries.length := by omega
    have hek := h.seq_add_position hnew (List.getElem?_eq_getElem hlt)
    exact hno _ (List.getElem_mem hlt) (by omega)

theorem DynTable.Inv.indexOf_eq_neg_one_iff {t : DynTable} (h : t.Inv) {seq : Nat} :
    t.indexOf seq = -1 ↔ ∀ e ∈ t.entries, e.seq ≠ seq := by
  refine ⟨fun hgone e he hseq => ?_, h.indexOf_of_not_held⟩
  obtain ⟨k, hk⟩ := List.mem_iff_getElem?.mp he
  have hpos := h.indexOf_of_getElem? hk
  rw [hseq, hgone] at hpos
  omega

/-- Settles O27: it holds; the numbers fall by one with every position. -/
theorem dtIndexOfCompletes : Obligations.DtIndexOfCompletes := by
  intro s seq h
  have hexec : exec (.dtIndexOf seq) s = .next (s.respond (.position (s.dt.indexOf seq))) := rfl
  refine ⟨fun k e he hseq => ?_, fun hno => ?_⟩
  · rw [hexec, ← hseq, h.indexOf_of_getElem? he]
  · rw [hexec, h.indexOf_of_not_held hno]

/-! ### The entries of a name (R33, R247) -/

/-- No two entries have the same number. -/
theorem DynTable.Inv.eq_of_seq_eq {t : DynTable} (h : t.Inv) {e e' : DynEntry} (he : e ∈ t.entries)
    (he' : e' ∈ t.entries) (hseq : e.seq = e'.seq) : e = e' := by
  obtain ⟨k, hk⟩ := List.mem_iff_getElem?.mp he
  obtain ⟨k', hk'⟩ := List.mem_iff_getElem?.mp he'
  have hpos := h.indexOf_of_getElem? hk
  rw [hseq, h.indexOf_of_getElem? hk'] at hpos
  obtain rfl : k' = k := Int.ofNat_inj.mp hpos
  exact Option.some_injective _ (hk.symm.trans hk')

theorem DynTable.Inv.valueOf_seq {t : DynTable} (h : t.Inv) {e : DynEntry} (he : e ∈ t.entries) :
    t.valueOf e.seq = some e.value := by
  cases hfind : t.entries.find? fun d => d.seq == e.seq with
  | none => exact absurd (beq_self_eq_true _) (List.find?_eq_none.mp hfind e he)
  | some d =>
    have hseq : d.seq = e.seq := beq_iff_eq.mp (List.find?_some (p := fun d : DynEntry => d.seq == e.seq) hfind)
    rw [DynTable.valueOf, hfind, h.eq_of_seq_eq (List.mem_of_find?_eq_some hfind) he hseq, Option.map_some]

theorem mapM_eq_some_map {α β : Type} {f : α → Option β} {g : α → β} {l : List α} (h : ∀ a ∈ l, f a = some (g a)) :
    l.mapM f = some (l.map g) := by
  induction l with
  | nil => rfl
  | cons a l ih =>
    rw [List.mapM_cons, h a List.mem_cons_self, ih fun b hb => h b (List.mem_cons_of_mem a hb)]
    rfl

/-- The entries of a name with their positions, newest first. -/
def DynTable.named (t : DynTable) (name : OctetString) : List (DynEntry × Nat) :=
  t.entries.zipIdx.filter fun p => p.1.name == name

/-- The name index lists the numbers of these entries. -/
theorem DynTable.Inv.find_nameIdx {t : DynTable} (h : t.Inv) (name : OctetString) :
    t.nameIdx.find name = (t.named name).map fun p => p.1.seq := by
  have hfilter : t.entries.filter (fun e => e.name == name) = (t.named name).map Prod.fst := by
    conv_lhs => rw [← List.zipIdx_map_fst 0 t.entries]
    exact List.filter_map
  rw [h.name_find, hfilter, List.map_map]
  rfl

/-- Each of these numbers is held, so DT_FIND_NAME has a list to answer. -/
theorem DynTable.Inv.matches_eq_some {t : DynTable} (h : t.Inv) (name : OctetString) :
    t.matches name = some ((t.named name).map fun p => ((62 : Int) + (p.2 : Int), p.1.seq, p.1.value)) := by
  rw [DynTable.matches, h.find_nameIdx, List.mapM_map]
  refine mapM_eq_some_map fun p hp => ?_
  have hpos : t.entries[p.2]? = some p.1 := List.mk_mem_zipIdx_iff_getElem?.mp (List.mem_of_mem_filter hp)
  rw [Function.comp_apply, h.valueOf_seq (List.mem_of_getElem? hpos), h.indexOf_of_getElem? hpos]
  rfl

theorem exec_dtFindName_of_some {name : OctetString} {s : State} {ms : List (Int × Nat × OctetString)}
    (h : s.dt.matches name = some ms) : exec (.dtFindName name) s = .next (s.respond (.dynMatches ms)) := by
  simp only [exec, execDtFindName, h]

/-- Settles O28: it holds; the name index lists the name's entries, and each number resolves to its entry. -/
theorem dtFindNameCompletes : Obligations.DtFindNameCompletes :=
  fun _ name h => exec_dtFindName_of_some (h.matches_eq_some name)

/-! ### The sizes (R249) -/

/-- Settles O29: it holds; the invariants say what the three numbers are. -/
theorem dtReadSizeCompletes : Obligations.DtReadSizeCompletes :=
  fun _ => ⟨rfl, fun h => ⟨h.curSize_eq, h.size_le⟩⟩

end Sys2Proof.Machine
end

section
/-!
PROOFS. What a step does to the table's sequence numbers (45_dynamic_table.md R233, R248, R250): the counter never falls
and rises by at most one, and no entry comes back under a number already issued. It holds of every table, coherent or
not.
-/

namespace Sys2Proof.Machine

/-! ### Eviction brings no entry back (R231, R240) -/

theorem DynTable.evict_entries_subset {fuel : Nat} {t t' : DynTable} (h : DynTable.evict fuel t = .ok t') :
    t'.entries ⊆ t.entries := by
  induction fuel generalizing t with
  | zero =>
    unfold DynTable.evict at h
    split at h
    · cases h
    · cases h
      exact List.Subset.refl _
  | succ fuel ih =>
    unfold DynTable.evict at h
    split at h
    · split at h
      · exact List.Subset.trans (ih h) (List.dropLast_subset _)
      · cases h
    · cases h
      exact List.Subset.refl _

theorem DynTable.clearLoop_entries_subset (fuel : Nat) (t : DynTable) :
    (DynTable.clearLoop fuel t).entries ⊆ t.entries := by
  induction fuel generalizing t with
  | zero => exact List.Subset.refl _
  | succ fuel ih =>
    unfold DynTable.clearLoop
    split
    · exact List.Subset.trans (ih _) (List.dropLast_subset _)
    · exact List.Subset.refl _

/-! ### How a table may go on (R250) -/

/-- From `t` to `t'` at most one number was issued, and an entry that is new has the number that was next. -/
structure DynTable.Advances (t t' : DynTable) : Prop where
  seq_le : t.seqNext ≤ t'.seqNext
  seq_le_succ : t'.seqNext ≤ t.seqNext + 1
  held_or_new : ∀ e ∈ t'.entries, e ∈ t.entries ∨ e.seq = t.seqNext

/-- Only entries are lost. -/
theorem DynTable.Advances.of_subset {t t' : DynTable} (hseq : t'.seqNext = t.seqNext) (h : t'.entries ⊆ t.entries) :
    t.Advances t' :=
  ⟨hseq.ge, by omega, fun _ he => .inl (h he)⟩

theorem DynTable.Advances.refl (t : DynTable) : t.Advances t := .of_subset rfl (List.Subset.refl _)

theorem DynTable.setMax_advances {t t' : DynTable} {n : Nat} (h : t.setMax n = .ok t') : t.Advances t' :=
  .of_subset (DynTable.setMax_frame h).2
    (DynTable.evict_entries_subset (t := { t with maxSize := BitVec.ofNat 31 n }) h)

theorem DynTable.insert_advances {t t' : DynTable} {name value : OctetString} (h : t.insert name value = .ok t') :
    t.Advances t' := by
  unfold DynTable.insert at h
  split at h
  · cases h
    exact .of_subset (DynTable.clearLoop_frame _ _).2 (DynTable.clearLoop_entries_subset _ _)
  · have hseq : t'.seqNext = t.seqNext + 1 := (DynTable.evict_frame h).2
    refine ⟨by omega, hseq.le, fun e he => ?_⟩
    rcases List.mem_cons.mp (DynTable.evict_entries_subset h he) with rfl | hheld
    · exact .inr rfl
    · exact .inl hheld

/-- Every instruction but RESET leaves such a table. -/
theorem exec_advances {i : Instr} {s t : State} (hi : i ≠ .reset) (hx : exec i s = .next t) : s.dt.Advances t.dt := by
  cases exec_effect hx with
  | emit => exact State.emit_dt _ _ _ ▸ .refl _
  | litInc _ _ _ _ u _ hu => exact (State.emit_dt _ _ _).symm ▸ DynTable.insert_advances hu
  | sizeUpd _ _ _ u _ hu => exact DynTable.setMax_advances hu
  | dtAdd _ _ u _ hu => exact DynTable.insert_advances hu
  | dtSetMax _ u _ hu => exact DynTable.setMax_advances hu
  | setMaxTableSize _ u _ hu => exact DynTable.setMax_advances hu
  | reset hreset => exact absurd hreset hi
  | _ => exact .refl _

theorem step_advances {s t : State} (hx : step s = .next t) (hi : s.nextInstr ≠ some .reset) : s.dt.Advances t.dt := by
  rcases step_cases hx with ⟨-, rfl, -⟩ | ⟨-, -, -, -, rfl⟩ | ⟨-, -, -, -, rfl⟩ | ⟨o, rest, -, -, -, rfl⟩ |
    ⟨o, rest, i, hrun, -, -, -, hexec⟩ | ⟨b, i, hrun, -, -, -, hexec⟩
  · exact .refl _
  · exact .refl _
  · exact .refl _
  · exact .refl _
  · exact exec_advances (s := s.accept rest) (by simpa [hrun] using hi) hexec
  · exact exec_advances (by simpa [hrun] using hi) hexec

/-- Settles O31: it holds, of every step of every state (`step_advances`). -/
theorem sequenceNumbersAreFreeRunning : Obligations.SequenceNumbersAreFreeRunning := by
  intro s t hx hi
  obtain ⟨seq_le, seq_le_succ, -⟩ := step_advances hx hi
  exact ⟨seq_le, seq_le_succ⟩

/-- Settles O32: it holds; a number is found exactly where an entry has it, and a new entry takes none issued before. -/
theorem staleHandleStaysNotFound : Obligations.StaleHandleStaysNotFound := by
  intro s t seq hinv hissued hgone hx hi
  obtain ⟨seq_le, -, held_or_new⟩ := step_advances hx hi
  refine ⟨(step_inv hinv hx).table.indexOf_of_not_held fun e he => ?_, hissued.trans_le seq_le⟩
  rcases held_or_new e he with hheld | hnew
  · exact hinv.table.indexOf_eq_neg_one_iff.mp hgone e hheld
  · exact hnew ▸ hissued.ne'

end Sys2Proof.Machine
end

section
/-!
PROOFS. The frame of the commands that write (O54; 45_dynamic_table.md R241, R243; 47_control.md R300, R301), read off
the form of each command's answer; and that no step stops the machine from a state with the invariant (O58;
45_dynamic_table.md R231; 93_implementation_defined.md U7).
-/

namespace Sys2Proof.Machine

/-! ### The frame of the commands that write -/

theorem exec_setMaxListSize_of_le {n : Nat} (hn : n ≤ Config.intMax) (s : State) :
    exec (.setMaxListSize n) s = .next ({ s with listCapEn := true, listCap := BitVec.ofNat 31 n }.respond .none) :=
  if_pos (decide_eq_true hn)

/-- A command whose one operand is above INT_MAX has raised InvalidCommand (R97, R329). -/
theorem le_intMax_or_eq_raise {i : Instr} {n : Nat} {s t : State} (hi : WellFormed i = inRange31 n)
    (hx : exec i s = .next t) : n ≤ Config.intMax ∨ t = s.raise .invalidCommand := by
  refine (Nat.lt_or_ge Config.intMax n).symm.imp_right fun hbig => ?_
  rw [exec_of_not_wellFormed (hi.trans (inRange31_of_gt hbig))] at hx
  cases hx
  rfl

/-- Settles O54: it holds; a command in range writes through the table's operation, which says what it leaves. -/
theorem writingCommandsFrame : Obligations.WritingCommandsFrame := by
  refine fun s t => ⟨fun name value hx => ?_, fun n hx => ?_, fun n hx => ?_, fun n hx => ?_, fun inp hx => ?_⟩
  · obtain ⟨t', hins, rfl⟩ := exec_dtAdd_eq_next.mp hx
    exact ⟨rfl, (DynTable.insert_frame hins).1⟩
  · refine (le_intMax_or_eq_raise (n := n) rfl hx).imp_left fun hn => ?_
    rw [exec_dtSetMax_of_le hn] at hx
    obtain ⟨t', hset, rfl⟩ := State.withTable_eq_next.mp hx
    exact ⟨rfl, (DynTable.setMax_frame hset).2⟩
  · refine (le_intMax_or_eq_raise (n := n) rfl hx).imp_left fun hn => ?_
    rw [exec_setMaxTableSize_of_le hn] at hx
    obtain ⟨t', hset, rfl⟩ := State.withTable_eq_next.mp hx
    exact ⟨rfl, (DynTable.setMax_frame hset).2⟩
  · refine (le_intMax_or_eq_raise (n := n) rfl hx).imp_left fun hn => ?_
    rw [exec_setMaxListSize_of_le hn] at hx
    cases hx
    rfl
  · rcases hx with hx | hx <;> cases hx <;> rfl

/-! ### No fault and no refusal -/

theorem State.withTable_insert_answers {s : State} (h : s.dt.Inv) (name value : OctetString) (k : State → State) :
    ∃ t, s.withTable (s.dt.insert name value) k = .next t := by
  obtain ⟨t', hins, -⟩ := DynTable.insert_spec h.toCoherent name value
  exact ⟨_, State.withTable_eq_next.mpr ⟨t', hins, rfl⟩⟩

theorem State.withTable_setMax_answers {s : State} (h : s.dt.Inv) (n : Nat) (k : State → State) :
    ∃ t, s.withTable (s.dt.setMax n) k = .next t := by
  obtain ⟨t', hset, -⟩ := DynTable.setMax_spec h.toCoherent n
  exact ⟨_, State.withTable_eq_next.mpr ⟨t', hset, rfl⟩⟩

theorem fieldLiteral_answers {s : State} (h : s.dt.Inv) (n low : Nat) (kind : LiteralKind) :
    ∃ t, fieldLiteral n low kind s = .next t := by
  unfold fieldLiteral
  split
  · exact ⟨_, rfl⟩
  · cases kind with
    | inc => exact State.withTable_insert_answers h _ _ _
    | never => exact ⟨_, rfl⟩
    | noidx => exact ⟨_, rfl⟩

theorem execIdx_answers (i : BitVec 7) (s : State) : ∃ t, execIdx i s = .next t := by
  unfold execIdx
  split
  · exact ⟨_, rfl⟩
  · split <;> exact ⟨_, rfl⟩

theorem execSizeUpd_answers {s : State} (h : s.dt.Inv) (n : BitVec 5) : ∃ t, execSizeUpd n s = .next t := by
  unfold execSizeUpd
  split
  · exact ⟨_, rfl⟩
  · exact State.withTable_setMax_answers h _ _

theorem stringLiteral_answers (huf : Bool) (l : BitVec 7) (s : State) : ∃ t, stringLiteral huf l s = .next t := by
  unfold stringLiteral
  split <;> exact ⟨_, rfl⟩

theorem execIntDecode_answers (n : Nat) (inp : OctetString) (s : State) : ∃ t, execIntDecode n inp s = .next t := by
  unfold execIntDecode
  split
  · split <;> exact ⟨_, rfl⟩
  · exact ⟨_, rfl⟩

theorem execIntEncode_answers (n flags v : Nat) (s : State) : ∃ t, execIntEncode n flags v s = .next t := by
  unfold execIntEncode
  split <;> exact ⟨_, rfl⟩

theorem execHufDecode_answers (inp : OctetString) (s : State) : ∃ t, execHufDecode inp s = .next t := by
  unfold execHufDecode
  split <;> exact ⟨_, rfl⟩

theorem execStGet_answers (i : Nat) (s : State) : ∃ t, execStGet i s = .next t := by
  unfold execStGet
  split
  · split <;> exact ⟨_, rfl⟩
  · exact ⟨_, rfl⟩

theorem execDtGet_answers (i : Nat) (s : State) : ∃ t, execDtGet i s = .next t := by
  unfold execDtGet
  split
  · split <;> exact ⟨_, rfl⟩
  · exact ⟨_, rfl⟩

theorem execDtSetMax_answers {s : State} (h : s.dt.Inv) (n : Nat) : ∃ t, execDtSetMax n s = .next t := by
  unfold execDtSetMax
  split
  · exact State.withTable_setMax_answers h _ _
  · exact ⟨_, rfl⟩

theorem execSetMaxTableSize_answers {s : State} (h : s.dt.Inv) (n : Nat) :
    ∃ t, execSetMaxTableSize n s = .next t := by
  unfold execSetMaxTableSize
  split
  · exact State.withTable_setMax_answers h _ _
  · exact ⟨_, rfl⟩

theorem execSetMaxListSize_answers (n : Nat) (s : State) : ∃ t, execSetMaxListSize n s = .next t := by
  unfold execSetMaxListSize
  split <;> exact ⟨_, rfl⟩

/-- On a table with the invariants every instruction answers a next state. -/
theorem exec_answers {s : State} (h : s.dt.Inv) (i : Instr) : ∃ t, exec i s = .next t := by
  cases i with
  | idx i => exact execIdx_answers i s
  | litInc n => exact fieldLiteral_answers h 6 n.toNat .inc
  | sizeUpd n => exact execSizeUpd_answers h n
  | litNever n => exact fieldLiteral_answers h 4 n.toNat .never
  | litNoidx n => exact fieldLiteral_answers h 4 n.toNat .noidx
  | strRaw l => exact stringLiteral_answers false l s
  | strHuf l => exact stringLiteral_answers true l s
  | setMaxTableSize n => exact execSetMaxTableSize_answers h n
  | setMaxListSize n => exact execSetMaxListSize_answers n s
  | intDecode n inp => exact execIntDecode_answers n inp s
  | intEncode n flags v => exact execIntEncode_answers n flags v s
  | hufDecode inp => exact execHufDecode_answers inp s
  | stGet i => exact execStGet_answers i s
  | dtGet i => exact execDtGet_answers i s
  | dtAdd name value => exact State.withTable_insert_answers h name value fun s => s.respond .none
  | dtSetMax n => exact execDtSetMax_answers h n
  | dtFindName name => exact ⟨_, exec_dtFindName_of_some (h.matches_eq_some name)⟩
  | _ => exact ⟨_, rfl⟩

/-- What the fetch gives runs on the table as it stands: acceptance leaves it. -/
theorem State.fetch_dt {s s' : State} {c : Code} (h : s.fetch = some (c, s')) : s'.dt = s.dt := by
  unfold State.fetch at h
  split at h <;> split at h <;> cases h <;> rfl

/-- Settles O58: it holds; where a step runs an instruction the table has its invariants, and a step that
runs none answers a next state as it is written. -/
theorem invariantStatesStep : Obligations.InvariantStatesStep := by
  intro s h
  unfold step
  split
  · exact ⟨_, rfl⟩
  · rename_i c s' hfetch
    split
    · exact exec_answers (State.fetch_dt hfetch ▸ h.table) _
    · exact ⟨_, rfl⟩

end Sys2Proof.Machine
end

section
/-!
PROOFS. The five representations one at a time (46_field_decoder.md R282–R289): what each answers where its operands are
read, where they raise and where its triple reaches the list cap (R283), and what it leaves unchanged.
-/

namespace Sys2Proof.Machine

/-! ### What a representation answers (R282, R284, R287) -/

theorem exec_idx_of_intRest_error {i : BitVec 7} {s : State} {e : Err}
    (h : intRest 7 i.toNat s.scratch.input (s.scratch.pos + 1) = .error e) : exec (.idx i) s = .next (s.raise e) := by
  simp only [exec, execIdx, h]

theorem exec_idx_of_get_error {i : BitVec 7} {s : State} {index p : Nat} {e : Err}
    (h : intRest 7 i.toNat s.scratch.input (s.scratch.pos + 1) = .ok (index, p)) (hget : s.dt.get index = .error e) :
    exec (.idx i) s = .next (s.raise e) := by
  simp only [exec, execIdx, h, hget]

theorem exec_idx_of_get_ok {i : BitVec 7} {s : State} {index p : Nat} {name value : OctetString}
    (h : intRest 7 i.toNat s.scratch.input (s.scratch.pos + 1) = .ok (index, p))
    (hget : s.dt.get index = .ok (name, value)) : exec (.idx i) s = .next (s.emit p ⟨name, value, false⟩) := by
  simp only [exec, execIdx, h, hget]

theorem exec_sizeUpd_of_intRest_error {n : BitVec 5} {s : State} {e : Err}
    (h : intRest 5 n.toNat s.scratch.input (s.scratch.pos + 1) = .error e) :
    exec (.sizeUpd n) s = .next (s.raise e) := by
  simp only [exec, execSizeUpd, h]

theorem fieldLiteral_of_operands_error {n low : Nat} {kind : LiteralKind} {s : State} {e : Err}
    (h : literalOperands s.hufStrictEnd s.dt n low s.scratch.input (s.scratch.pos + 1) = .error e) :
    fieldLiteral n low kind s = .next (s.raise e) := by
  simp only [fieldLiteral, h]

/-- A literal field whose operands are read emits their triple over the table it leaves, sensitive exactly for LIT_NEVER
(R284–R286, R288). -/
theorem fieldLiteral_of_operands_ok {n low p : Nat} {kind : LiteralKind} {s : State} {name value : OctetString}
    {t : DynTable} (h : literalOperands s.hufStrictEnd s.dt n low s.scratch.input (s.scratch.pos + 1) =
      .ok (name, value, p)) (ht : kind.Leaves s.dt name value t) :
    fieldLiteral n low kind s = .next ({ s with dt := t }.emit p ⟨name, value, decide (kind = LiteralKind.never)⟩) := by
  cases kind with
  | inc =>
    have hins : s.dt.insert name value = .ok t := ht
    simp only [fieldLiteral, h, hins]
    rfl
  | never =>
    obtain rfl : t = s.dt := ht
    simp only [fieldLiteral, h]
  | noidx =>
    obtain rfl : t = s.dt := ht
    simp only [fieldLiteral, h]

/-! ### Below the list cap and at it (R283) -/

/-- Settles O33: it holds; the entry at the index is emitted, and below the cap nothing is raised. -/
theorem idxCompletes : Obligations.IdxCompletes := by
  intro i s index p name value hint hget hcap
  rw [exec_idx_of_get_ok hint hget, State.emit_of_belowCap hcap]

/-- Settles O34: it holds; on a table with the invariants the insertion of LIT_INC does not fault, and below the cap each
triple is emitted. -/
theorem literalsComplete : Obligations.LiteralsComplete := by
  refine fun s name value p => ⟨fun n hinv hop hcap => ?_, fun n hop => ⟨fun hcap => ?_, fun hcap => ?_⟩⟩
  · obtain ⟨t', hins, -⟩ := DynTable.insert_spec hinv.toCoherent name value
    have hcap' : { s with dt := t' }.belowCap ⟨name, value, false⟩ := hcap
    refine ⟨t', hins, ?_⟩
    rw [← State.emit_of_belowCap hcap']
    exact fieldLiteral_of_operands_ok (kind := .inc) hop hins
  · rw [← State.emit_of_belowCap hcap]
    exact fieldLiteral_of_operands_ok (kind := .never) hop rfl
  · rw [← State.emit_of_belowCap hcap]
    exact fieldLiteral_of_operands_ok (kind := .noidx) hop rfl

/-- Settles O37: it holds; each form emits its triple, and a triple that reaches the cap raises. LIT_INC has inserted by
then. -/
theorem listCapReached : Obligations.ListCapReached := by
  intro s name value p hen hcap
  have hraise : ∀ (t : DynTable) (sensitive : Bool), { s with dt := t }.emit p ⟨name, value, sensitive⟩ =
      { s with dt := t }.raise .headerListSizeExceeded :=
    fun t sensitive => State.emit_of_not_belowCap (s := { s with dt := t }) (h := ⟨name, value, sensitive⟩)
      (fun hbelow => absurd (hbelow hen) (Nat.not_lt.mpr hcap)) p
  refine ⟨fun i index hint hget => ?_, fun n hinv hop => ?_, fun n hop => ⟨?_, ?_⟩⟩
  · exact (exec_idx_of_get_ok hint hget).trans (congrArg _ (hraise s.dt false))
  · obtain ⟨t', hins, -⟩ := DynTable.insert_spec hinv.toCoherent name value
    exact ⟨t', hins, (fieldLiteral_of_operands_ok (kind := .inc) hop hins).trans (congrArg _ (hraise t' false))⟩
  · exact (fieldLiteral_of_operands_ok (kind := .never) hop rfl).trans (congrArg _ (hraise s.dt true))
  · exact (fieldLiteral_of_operands_ok (kind := .noidx) hop rfl).trans (congrArg _ (hraise s.dt false))

/-! ### Where a representation raises (R284, R326, R331) -/

/-- A name index outside the combined table ends the operands before anything of the value is read. -/
theorem literalOperands_of_name_outside {strict : Bool} {t : DynTable} {n low ni pos p : Nat} {inp : OctetString}
    (h : intRest n low inp pos = .ok (ni, p)) (hout : 61 + t.entries.length < ni) :
    literalOperands strict t n low inp pos = .error .invalidTableIndex := by
  have hname : nameOperand strict t ni inp p = .error .invalidTableIndex := by
    rw [nameOperand, if_pos (by omega), DynTable.get_outside (.inr hout)]
  simp only [literalOperands, h, hname]

/-- Settles O36: it holds, clause by clause; an index outside the combined table is one TableGet raises for. -/
theorem representationsRaise : Obligations.RepresentationsRaise :=
  fun _ _ => ⟨fun _ => exec_idx_of_intRest_error,
    fun _ _ _ hint hout => exec_idx_of_get_error hint (DynTable.get_outside hout),
    fun _ => exec_sizeUpd_of_intRest_error, fun _ => fieldLiteral_of_operands_error (kind := .inc),
    fun _ hop => ⟨fieldLiteral_of_operands_error (kind := .never) hop,
      fieldLiteral_of_operands_error (kind := .noidx) hop⟩,
    fun _ _ _ _ => literalOperands_of_name_outside⟩

/-! ### What a representation leaves unchanged (R282, R285–R289) -/

/-- A field that emits ends its command only by reaching the list cap. -/
theorem State.emit_error {s : State} {pos : Nat} {h : Header} {e : Err}
    (hr : (s.emit pos h).responses = s.responses ++ [.error e]) : e = .headerListSizeExceeded := by
  rcases State.emit_cases s pos h with ⟨-, he⟩ | ⟨-, he⟩ <;> rw [he] at hr
  · simp [State.emitted] at hr
  · simpa using hr.symm

/-- Settles O38: it holds; of the fields that write the table LIT_INC fails after its insertion only at the list cap, and
SIZE_UPD does not fail once it has set the cap. -/
theorem failedFieldLeavesTheTable : Obligations.FailedFieldLeavesTheTable := by
  intro i s t e hfield hx hr hne
  cases exec_effect hx with
  | raise => rfl
  | emit => exact State.emit_dt _ _ _
  | litInc => exact absurd (State.emit_error hr) hne
  | sizeUpd => simp at hr
  | start => rfl
  | respond => rfl
  | readStatus => rfl
  | _ => subst i; cases hfield

theorem State.emit_frame (s : State) (pos : Nat) (h : Header) :
    (∃ p h' total, s.emit pos h =
      { s with scratch := { s.scratch with pos := p, out := s.scratch.out ++ [h'], total := total } }) ∨
    (∃ e, s.emit pos h = s.raise e) := by
  rcases State.emit_cases s pos h with ⟨-, he⟩ | ⟨-, he⟩
  · exact .inl ⟨pos, h, _, he⟩
  · exact .inr ⟨_, he⟩

/-- Settles O52: it holds; of the effects of an instruction only an error and a triple over the table as it stands are of
one of these three. -/
theorem readingFieldsFrame : Obligations.ReadingFieldsFrame := by
  intro i s t hi hx
  obtain ⟨hfield, hquery, hwrites⟩ : i.isField = true ∧ i.isQuery = false ∧ i.writesTable = false := by
    rcases hi with ⟨k, rfl⟩ | ⟨n, rfl⟩ | ⟨n, rfl⟩ <;> exact ⟨rfl, rfl, rfl⟩
  cases exec_effect hx with
  | raise e => exact .inr ⟨e, rfl⟩
  | emit pos h => exact s.emit_frame pos h
  | respond _ hq => exact absurd hq (by simp [hquery])
  | litInc => subst i; cases hwrites
  | sizeUpd => subst i; cases hwrites
  | start _ _ _ hl => rcases hl with rfl | rfl <;> cases hfield
  | _ => subst i; cases hfield

/-- SIZE_UPD raises before it sets the cap, or sets it and moves the cursor (R287). -/
theorem execSizeUpd_next {n : BitVec 5} {s u : State} (h : execSizeUpd n s = .next u) :
    (∃ e, u = s.raise e) ∨
      (∃ cap p t', s.dt.setMax (min cap s.cfgMaxTableSize.toNat) = .ok t' ∧ u = { s with dt := t' }.advance p) := by
  unfold execSizeUpd at h
  split at h
  · cases h
    exact .inl ⟨_, rfl⟩
  · obtain ⟨t', hset, rfl⟩ := State.withTable_eq_next.mp h
    exact .inr ⟨_, _, t', hset, rfl⟩

/-- Settles O53: it holds; each writes the table through one operation of it, which says what it leaves. -/
theorem writingFieldsFrame : Obligations.WritingFieldsFrame := by
  refine fun s t => ⟨fun n hx => ?_, fun n hx => ?_⟩
  · rcases fieldLiteral_next (kind := .inc) hx with ⟨e, -, rfl⟩ | ⟨name, value, p, -, hemit⟩
    · exact ⟨rfl, .inr ⟨e, rfl⟩⟩
    · obtain ⟨-, t', hins, rfl⟩ | ⟨hkind, -⟩ | ⟨hkind, -⟩ := hemit
      · rw [State.emit_dt]
        exact ⟨(DynTable.insert_frame hins).1, State.emit_frame { s with dt := t' } _ _⟩
      · cases hkind
      · cases hkind
  · rcases execSizeUpd_next hx with ⟨e, rfl⟩ | ⟨cap, p, t', hset, rfl⟩
    · exact ⟨rfl, .inr ⟨e, rfl⟩⟩
    · exact ⟨(DynTable.setMax_frame hset).2, .inl ⟨p, rfl⟩⟩

end Sys2Proof.Machine
end

section
/-!
PROOFS. A command in progress ends (46_field_decoder.md R291; 70_reset_and_hazards.md R364), and DECODE_BLOCK's steps are
the loop of R280: one step is DecodeField at the cursor followed by what the loop does with its answer, and the loop from
the state before the step is the loop from the state after it.
-/

namespace Sys2Proof.Machine

/-! ### Every command ends (R291, R364) -/

theorem State.emit_busy_of_responses_eq {s : State} {pos : Nat} {h : Header}
    (hr : (s.emit pos h).responses = s.responses) : (s.emit pos h).busy = s.busy := by
  rcases State.emit_cases s pos h with ⟨-, he⟩ | ⟨-, he⟩ <;> rw [he] at hr ⊢
  · rfl
  · simp at hr

/-- An instruction that gives no response leaves its command in progress. -/
theorem exec_busy_of_responses_eq {i : Instr} {s t : State} (hx : exec i s = .next t)
    (hr : t.responses = s.responses) : t.busy = s.busy := by
  cases exec_effect hx with
  | emit => exact State.emit_busy_of_responses_eq hr
  | litInc => exact State.emit_busy_of_responses_eq hr
  | sizeUpd => rfl
  | start => rfl
  | _ => simp at hr

/-- A step of a busy block goes on with its command, or ends it with one response. -/
theorem step_of_busy {s t : State} (hb : s.busy = true) (hx : step s = .next t) :
    (t.busy = true ∧ t.responses = s.responses) ∨ (t.busy = false ∧ ∃ r, t.responses = s.responses ++ [r]) := by
  rcases responsesOnlyGrow s t hx with hr | ⟨r, hr, hidle, -⟩
  · refine .inl ⟨?_, hr⟩
    rcases step_cases hx with ⟨-, rfl, -⟩ | ⟨-, -, -, -, rfl⟩ | ⟨-, -, -, -, rfl⟩ | ⟨o, rest, -, hidle, -⟩ |
      ⟨o, rest, i, -, hidle, -⟩ | ⟨b, i, -, -, -, -, hexec⟩
    · exact hb
    · simp [State.endBlock] at hr
    · simp at hr
    · simp [hidle] at hb
    · simp [hidle] at hb
    · exact (exec_busy_of_responses_eq hexec hr).trans hb
  · exact .inr ⟨hidle, r, hr⟩

/-- Every step that does not end the command takes at least one octet, so the octets left bound the steps. -/
theorem run_ends {s : State} (hinv : s.Inv) (hb : s.busy = true) :
    ∃ k t r, k ≤ s.scratch.input.length - s.scratch.pos + 1 ∧ core.run k s = .next t ∧ t.busy = false ∧
      t.responses = s.responses ++ [r] ∧ t.offers = s.offers := by
  obtain ⟨t, hx⟩ := invariantStatesStep s hinv
  have hoffers : t.offers = s.offers := (offersWaitWhileBusy s t hx).1 hb
  rcases step_of_busy hb hx with ⟨hbusy, hr⟩ | ⟨hidle, r, hr⟩
  · obtain ⟨hinput, -, hlt, hle⟩ := cursorMovesForward s t hb (hinv.busy_active hb) hx hbusy
    have hlen : t.scratch.input.length = s.scratch.input.length := congrArg List.length hinput
    obtain ⟨k, u, r, hk, hrun, hidle, hresp, hoff⟩ := run_ends (step_inv hinv hx) hbusy
    exact ⟨k + 1, u, r, by omega, (run_succ_of_step hx k).trans hrun, hidle, hr ▸ hresp, hoff.trans hoffers⟩
  · exact ⟨1, t, r, by omega, run_succ_of_step hx 0, hidle, hr, hoffers⟩
termination_by s.scratch.input.length - s.scratch.pos
decreasing_by omega

/-- Settles O59: it holds, by `run_ends`. -/
theorem everyCommandEnds : Obligations.EveryCommandEnds := fun _ => run_ends

/-! ### One step is DecodeField and what the loop does with its answer (R280, R281) -/

/-- What a field's answer makes of the state: a fault stops, an error ends the command, and else the cursor moves over
the table the field leaves, with the triple emitted where there is one (R280). -/
def State.afterField (s : State) : Except Fault (Except Err (Option Header × Nat × DynTable)) → Out
  | .error f => .fault f
  | .ok (.error e) => .next (s.raise e)
  | .ok (.ok (none, p, t)) => .next ({ s with dt := t }.advance p)
  | .ok (.ok (some h, p, t)) => .next ({ s with dt := t }.emit p h)

/-- What `fieldAt` answers at a literal field, the function it has under a local name (R284). -/
def literalAt (c : BlockConfig) (t : DynTable) (inp : OctetString) (pos : Nat) (kind : LiteralKind) :
    Except Fault (Except Err (Option Header × Nat × DynTable)) :=
  match intDecode kind.width inp pos with
  | .error e => .ok (.error e)
  | .ok (ni, pos) =>
    match (if ni ≠ 0 then (match t.get ni with | .ok (name, _) => .ok (name, pos) | .error e => .error e)
           else strDecode c.strictEnd inp pos : Except Err (OctetString × Nat)) with
    | .error e => .ok (.error e)
    | .ok (name, pos) =>
      match strDecode c.strictEnd inp pos with
      | .error e => .ok (.error e)
      | .ok (value, pos) =>
        if kind = .inc then
          match t.insert name value with
          | .error f => .error f
          | .ok t => .ok (.ok (some ⟨name, value, decide (kind = .never)⟩, pos, t))
        else .ok (.ok (some ⟨name, value, decide (kind = .never)⟩, pos, t))

/-- The meaning of a literal field is this answer: both read the name index, the name and the value in that order. -/
theorem fieldLiteral_eq_afterField (kind : LiteralKind) {s : State} {b : Octet} (hoctet : s.octetAtCursor = some b) :
    fieldLiteral kind.width (b.toNat % 2 ^ kind.width) kind s =
      s.afterField (literalAt s.blockConfig s.dt s.scratch.input s.scratch.pos kind) := by
  have hb : s.scratch.input[s.scratch.pos]? = some b := hoctet
  simp only [fieldLiteral, literalOperands, literalAt, intDecode_of_getElem? hb]
  cases intRest kind.width (b.toNat % 2 ^ kind.width) s.scratch.input (s.scratch.pos + 1) with
  | error e => rfl
  | ok r =>
    obtain ⟨ni, p⟩ := r
    have hname : (if ni ≠ 0 then (match s.dt.get ni with | .ok (name, _) => .ok (name, p) | .error e => .error e)
        else strDecode s.blockConfig.strictEnd s.scratch.input p : Except Err (OctetString × Nat)) =
        nameOperand s.hufStrictEnd s.dt ni s.scratch.input p := by
      unfold nameOperand
      cases s.dt.get ni <;> rfl
    simp only [hname]
    cases nameOperand s.hufStrictEnd s.dt ni s.scratch.input p with
    | error e => rfl
    | ok r =>
      obtain ⟨name, q⟩ := r
      simp only [State.blockConfig]
      cases strDecode s.hufStrictEnd s.scratch.input q with
      | error e => rfl
      | ok r =>
        cases kind with
        | inc => simp only [if_true]; cases s.dt.insert name r.1 <;> rfl
        | never => rfl
        | noidx => rfl

theorem execIdx_eq_afterField {s : State} {b : Octet} (hb : s.octetAtCursor = some b) (h7 : b.getLsbD 7 = true) :
    execIdx (b.extractLsb' 0 7) s = s.afterField (fieldAt s.blockConfig s.dt s.scratch.input s.scratch.pos) := by
  have hb : s.scratch.input[s.scratch.pos]? = some b := hb
  simp only [execIdx, fieldAt, hb, h7, if_true, intDecode_of_getElem? hb, BitVec.extractLsb'_toNat, Nat.shiftRight_zero]
  cases intRest 7 (b.toNat % 2 ^ 7) s.scratch.input (s.scratch.pos + 1) with
  | error e => rfl
  | ok r =>
    simp only
    cases s.dt.get r.1 <;> rfl

theorem execSizeUpd_eq_afterField {s : State} {b : Octet} (hb : s.octetAtCursor = some b) (h7 : b.getLsbD 7 = false)
    (h6 : b.getLsbD 6 = false) (h5 : b.getLsbD 5 = true) : execSizeUpd (b.extractLsb' 0 5) s =
      s.afterField (fieldAt s.blockConfig s.dt s.scratch.input s.scratch.pos) := by
  have hb : s.scratch.input[s.scratch.pos]? = some b := hb
  simp only [execSizeUpd, fieldAt, hb, h7, h6, h5, Bool.false_eq_true, if_false, if_true, intDecode_of_getElem? hb,
    BitVec.extractLsb'_toNat, Nat.shiftRight_zero]
  cases intRest 5 (b.toNat % 2 ^ 5) s.scratch.input (s.scratch.pos + 1) with
  | error e => rfl
  | ok r =>
    simp only [State.blockConfig]
    cases s.dt.setMax (min r.1 s.cfgMaxTableSize.toNat) <;> rfl

/-- A step on an octet in a header block is DecodeField there (R281). -/
theorem step_eq_afterField {s : State} {b : Octet} (hb : s.busy = true) (ha : s.scratch.activity = .block)
    (hoctet : s.octetAtCursor = some b) :
    step s = s.afterField (fieldAt s.blockConfig s.dt s.scratch.input s.scratch.pos) := by
  have hget : s.scratch.input[s.scratch.pos]? = some b := hoctet
  rw [step_eq_exec (State.fetch_field hb ha hoctet) rfl, decodeField]
  cases h7 : b.getLsbD 7 with
  | true => exact execIdx_eq_afterField hoctet h7
  | false =>
    cases h6 : b.getLsbD 6 with
    | true =>
      simp only [fieldAt, hget, h7, h6, Bool.false_eq_true, if_false, if_true]
      exact fieldLiteral_eq_afterField .inc hoctet
    | false =>
      cases h5 : b.getLsbD 5 with
      | true => exact execSizeUpd_eq_afterField hoctet h7 h6 h5
      | false =>
        cases h4 : b.getLsbD 4 with
        | true =>
          simp only [fieldAt, hget, h7, h6, h5, h4, Bool.false_eq_true, if_false, if_true]
          exact fieldLiteral_eq_afterField .never hoctet
        | false =>
          simp only [fieldAt, hget, h7, h6, h5, h4, Bool.false_eq_true, if_false]
          exact fieldLiteral_eq_afterField .noidx hoctet

/-! ### The loop from one step to the next (R280, R283) -/

/-- The loop of R280 from the state of a header block in progress. -/
def State.loop (s : State) (fuel : Nat) : Except Fault (Response × DynTable) :=
  blockLoop s.blockConfig s.scratch.input fuel s.dt s.scratch.pos s.scratch.out s.scratch.total

/-- The state a command leaves with its response and the table (R22, R96). -/
def State.ended (s : State) (r : Response) (t : DynTable) : State := ({ s with dt := t }.setStatus r.status).finish r

theorem State.loop_of_end {s : State} (hend : s.scratch.input.length ≤ s.scratch.pos) (fuel : Nat) :
    s.loop (fuel + 1) = .ok (.ok (.headers s.scratch.out), s.dt) := by
  rw [State.loop, blockLoop, if_neg (Nat.not_lt.mpr hend)]

theorem State.loop_of_error {s : State} {e : Err} (hpos : s.scratch.pos < s.scratch.input.length)
    (hfield : fieldAt s.blockConfig s.dt s.scratch.input s.scratch.pos = .ok (.error e)) (fuel : Nat) :
    s.loop (fuel + 1) = .ok (.error e, s.dt) := by
  rw [State.loop, blockLoop, if_pos hpos, hfield]

theorem State.loop_of_no_triple {s : State} {p : Nat} {t : DynTable} (hpos : s.scratch.pos < s.scratch.input.length)
    (hfield : fieldAt s.blockConfig s.dt s.scratch.input s.scratch.pos = .ok (.ok (none, p, t))) (fuel : Nat) :
    s.loop (fuel + 1) = ({ s with dt := t }.advance p).loop fuel := by
  rw [State.loop, blockLoop, if_pos hpos, hfield]
  rfl

theorem State.loop_of_belowCap {s : State} {p : Nat} {h : Header} {t : DynTable}
    (hpos : s.scratch.pos < s.scratch.input.length)
    (hfield : fieldAt s.blockConfig s.dt s.scratch.input s.scratch.pos = .ok (.ok (some h, p, t)))
    (hcap : s.belowCap h) (fuel : Nat) : s.loop (fuel + 1) = ({ s with dt := t }.emitted p h).loop fuel := by
  rw [State.loop, blockLoop, if_pos hpos, hfield]
  cases hen : s.listCapEn with
  | false => simp only [State.blockConfig, State.loop, State.emitted, hen, Bool.false_eq_true, if_false]
  | true =>
    have hlt : ¬ s.scratch.total + h.size ≥ s.listCap.toNat := Nat.not_le.mpr (hcap hen)
    simp only [State.blockConfig, State.loop, State.emitted, hen, if_true, if_neg hlt]

theorem State.loop_of_not_belowCap {s : State} {p : Nat} {h : Header} {t : DynTable}
    (hpos : s.scratch.pos < s.scratch.input.length)
    (hfield : fieldAt s.blockConfig s.dt s.scratch.input s.scratch.pos = .ok (.ok (some h, p, t)))
    (hcap : ¬ s.belowCap h) (fuel : Nat) : s.loop (fuel + 1) = .ok (.error .headerListSizeExceeded, t) := by
  obtain ⟨hen, hge⟩ := Classical.not_imp.mp hcap
  rw [State.loop, blockLoop, if_pos hpos, hfield]
  simp only [State.blockConfig, hen, if_true]
  rw [if_pos (Nat.not_lt.mp hge)]

/-- A step from `s` to `u` is a pass of the loop: it gives the loop's answer and ends the command, or leaves the rest of
the loop, and of what outlives the command only the table changed. -/
inductive LoopStep (fuel : Nat) (s u : State) : Prop where
  | ends (r : Response) (t : DynTable) (loop : s.loop (fuel + 1) = .ok (r, t)) (state : u = s.ended r t)
  | continues (busy : u.busy = true) (activity : u.scratch.activity = .block) (loop : s.loop (fuel + 1) = u.loop fuel)
      (ended : ∀ r t, u.ended r t = s.ended r t)

theorem step_loopStep {s u : State} (hb : s.busy = true) (ha : s.scratch.activity = .block) (hx : step s = .next u)
    (fuel : Nat) : LoopStep fuel s u := by
  rcases Nat.lt_or_ge s.scratch.pos s.scratch.input.length with hpos | hend
  · rw [step_eq_afterField hb ha (List.getElem?_eq_getElem hpos)] at hx
    cases hfield : fieldAt s.blockConfig s.dt s.scratch.input s.scratch.pos with
    | error f => rw [hfield] at hx; cases hx
    | ok answer =>
      rw [hfield] at hx
      rcases answer with e | ⟨_ | h, p, t⟩
      · cases hx
        exact .ends _ _ (State.loop_of_error hpos hfield fuel) rfl
      · cases hx
        exact .continues hb ha (State.loop_of_no_triple hpos hfield fuel) fun _ _ => rfl
      · cases hx
        rcases State.emit_cases { s with dt := t } p h with ⟨hcap, he⟩ | ⟨hcap, he⟩ <;> rw [he]
        · exact .continues hb ha (State.loop_of_belowCap hpos hfield hcap fuel) fun _ _ => rfl
        · exact .ends _ _ (State.loop_of_not_belowCap hpos hfield hcap fuel) rfl
  · cases (step_of_block_end hb ha hend).symm.trans hx
    exact .ends _ _ (State.loop_of_end hend fuel) rfl

/-! ### The loop from acceptance to response (R280, R291) -/

/-- The steps of a header block in progress lead to what the loop answers. -/
theorem run_loop {fuel : Nat} {s : State} (hinv : s.Inv) (hb : s.busy = true) (ha : s.scratch.activity = .block)
    (hfuel : s.scratch.input.length - s.scratch.pos < fuel) :
    ∃ r t k, s.loop fuel = .ok (r, t) ∧ k ≤ s.scratch.input.length - s.scratch.pos + 1 ∧
      core.run k s = .next (s.ended r t) := by
  induction fuel generalizing s with
  | zero => omega
  | succ fuel ih =>
    obtain ⟨u, hx⟩ := invariantStatesStep s hinv
    cases step_loopStep hb ha hx fuel with
    | ends r t loop state => exact ⟨r, t, 1, loop, by omega, state ▸ run_succ_of_step hx 0⟩
    | continues busy activity loop ended =>
      obtain ⟨hinput, -, hlt, hle⟩ := cursorMovesForward s u hb (hinv.busy_active hb) hx busy
      have hlen : u.scratch.input.length = s.scratch.input.length := congrArg List.length hinput
      obtain ⟨r, t, k, hloop, hk, hrun⟩ := ih (step_inv hinv hx) busy activity (by omega)
      exact ⟨r, t, k + 1, loop.trans hloop, by omega, (run_succ_of_step hx k).trans (ended r t ▸ hrun)⟩

/-- The step that accepts DECODE_BLOCK latches its operand (R23, R280). -/
theorem step_of_decodeBlock_offer {s : State} {inp : OctetString} {rest : List Offer} (hb : s.busy = false)
    (ho : s.offers = ⟨0x01, [.octets inp]⟩ :: rest) : step s = .next ((s.accept rest).start .block inp) :=
  step_eq_exec (State.fetch_command hb ho) (decode_encode (.decodeBlock inp))

/-- Settles O40: it holds; the first step latches the operand, and from there each step is a pass of the loop
(`step_loopStep`). -/
theorem decodeBlockIsTheLoop : Obligations.DecodeBlockIsTheLoop := by
  refine ⟨fun _ _ => rfl, fun s inp rest hinv hb ho => ?_⟩
  have hstep := step_of_decodeBlock_offer hb ho
  obtain ⟨r, t, k, hloop, hk, hrun⟩ := run_loop (step_inv hinv hstep) rfl rfl (Nat.lt_succ_self _)
  refine ⟨r, t, k + 1, _, hloop, Nat.succ_le_succ hk, (run_succ_of_step hstep k).trans hrun, ?_⟩
  simp only [State.ended, State.setStatus, State.finish, State.start, State.accept, hb]
  rfl

end Sys2Proof.Machine
end

section
/-!
PROOFS. What SET_MAX_LIST_SIZE and RESET complete with (O42, O44; 47_control.md R301, R303).
-/

namespace Sys2Proof.Machine

/-- Settles O42: it holds; an operand in range is the value of its 31 bits, and one above is refused at acceptance. -/
theorem setMaxListSizeCompletes : Obligations.SetMaxListSizeCompletes := by
  refine fun n s => ⟨fun hn => ?_, fun hbig => ?_⟩
  · exact ⟨BitVec.ofNat 31 n, toNat_ofNat_of_le_intMax hn, exec_setMaxListSize_of_le hn s⟩
  · exact exec_of_not_wellFormed (i := .setMaxListSize n) (inRange31_of_gt hbig) s

theorem exec_reset (s : State) : exec .reset s = .next (s.resetElements.respond .none) := rfl

/-- Settles O44: it holds; the fields are those of `State.resetElements`, and responding OK keeps LAST_ERR and ERR_STICKY
at zero. -/
theorem resetCompletes : Obligations.ResetCompletes := by
  intro s
  refine ⟨_, exec_reset s, ?_⟩
  simp [DynTable.reset, Ring.reset, Config.resetMaxSize]

end Sys2Proof.Machine
end

section
/-!
PROOFS. The state after power-on reset (70_reset_and_hazards.md R350), and the error code no rule raises
(60_exceptions.md R328): shown for what exec can do (`exec_effect`) and from there for a step (`step_cases`).
-/

namespace Sys2Proof.Machine

/-! ### CharacterCodingError is reserved (R328) -/

/-- What an instruction raises is another error by its effect; emitting a triple raises only HeaderListSizeExceeded. -/
theorem exec_responses_ne_characterCodingError {i : Instr} {s t : State} (hx : exec i s = .next t) :
    t.responses ≠ s.responses ++ [.error .characterCodingError] := by
  cases exec_effect hx with
  | raise e he => simp [he]
  | emit => exact fun hr => nomatch State.emit_error hr
  | litInc => exact fun hr => nomatch State.emit_error hr
  | _ => simp

/-- Settles O47: it holds; a step that runs no instruction answers no error but UnexpectedEndOfStream and
InvalidCommand. -/
theorem characterCodingErrorIsNeverRaised : Obligations.CharacterCodingErrorIsNeverRaised := by
  intro s t hx
  rcases step_cases hx with ⟨-, rfl, -⟩ | ⟨-, -, -, -, rfl⟩ | ⟨-, -, -, -, rfl⟩ | ⟨o, rest, -, -, -, rfl⟩ |
    ⟨o, rest, i, -, -, -, -, hexec⟩ | ⟨b, i, -, -, -, -, hexec⟩
  · simp
  · simp [State.endBlock]
  · simp
  · simp
  · simpa using exec_responses_ne_characterCodingError hexec
  · exact exec_responses_ne_characterCodingError hexec

/-! ### Power-on reset (R350) -/

/-- After reset every slot of the ring is empty, whatever its capacity (R350). -/
theorem Ring.reset_slots_eq_none {cap : Nat} {x : Option DynEntry} (hx : x ∈ (Ring.reset cap).slots) : x = none :=
  List.eq_of_mem_replicate hx

/-- Settles O45: it holds, element by element from `State.reset`; the slots by `Ring.reset_slots_eq_none`. -/
theorem powerOnResetValues : Obligations.PowerOnResetValues :=
  ⟨rfl, rfl, rfl, rfl, rfl, rfl, rfl, rfl, rfl, rfl, rfl, rfl, rfl, rfl, fun _ => Ring.reset_slots_eq_none, rfl⟩

end Sys2Proof.Machine
end
